-- ==== Sys2Proof/Word.lean ====
section
/-! DEFINITION. The words of the two ports and the number constants the spec names.

Rules: 00_scope.md R9, R10 (words, numbers); 30_encoding.md R80 (frames); 20_memory.md R60 (window select). -/

namespace Sys2Proof

/-- A data word of a port (R9). -/
abbrev Word := BitVec 64

/-- A real value, the `Num` of the spec: its binary64 pattern, kept as written, NaN payloads included (R10, R83). -/
abbrev Num64 := BitVec 64

/-- A command as the ports deliver it: one header word and the data words (R80). -/
structure Frame where
  header : BitVec 32
  data : List Word
  deriving DecidableEq, Repr

/-- Which window of a channel: ARG[0] = 0 raw, 1 filtered (R60, R81). -/
inductive WinSel where
  | raw
  | filt
  deriving DecidableEq, Repr

/-- +0.0. -/
def posZero : Num64 := 0x0000000000000000#64

/-- -0.0. -/
def negZero : Num64 := 0x8000000000000000#64

/-- 1.0. -/
def one : Num64 := 0x3FF0000000000000#64

/-- -1.0. -/
def negOne : Num64 := 0xBFF0000000000000#64

/-- 2.0. -/
def two : Num64 := 0x4000000000000000#64

/-- +infinity, which also encodes the unlimited step (10_state.md R40). -/
def posInf : Num64 := 0x7FF0000000000000#64

end Sys2Proof
end

