-- ==== Sys2Proof/Syntax.lean ====
section
/-! DEFINITION. The fourteen commands, one constructor per row of spec/opcode_table.json.

Rules: 30_encoding.md R80 to R84. REG and IDX stay numbers here: an unknown one is an OutOfRange of the command,
not an illegal encoding (R87). -/

namespace Sys2Proof

inductive Instr where
  /-- WRREG ch, REG, value (40_config_init.md R110). -/
  | wrreg (ch reg idx : BitVec 8) (value : Word)
  /-- RDREG ch, REG, idx (R111). -/
  | rdreg (ch reg idx : BitVec 8)
  /-- FINIT c (R112). -/
  | finit (ch : BitVec 8)
  /-- WINIT c (R120). -/
  | winit (ch : BitVec 8)
  /-- FILT c, x (41_filter.md R143). -/
  | filt (ch : BitVec 8) (x : Word)
  /-- FILTB c, [x0, .., x(N-1)] (R144). -/
  | filtb (ch : BitVec 8) (xs : List Word)
  /-- PUSH c, xr, xf (42_window.md R161). -/
  | push (ch : BitVec 8) (xr xf : Word)
  /-- SNAP c, W (R163). -/
  | snap (ch : BitVec 8) (win : WinSel)
  /-- ANALYZE c, W (43_spectrum.md R175). -/
  | analyze (ch : BitVec 8) (win : WinSel)
  /-- MAP a, v (44_actuator.md R190). -/
  | map (ch : BitVec 8) (v : Word)
  /-- RLIM a, v (R194). -/
  | rlim (ch : BitVec 8) (v : Word)
  /-- ACTWR a, v (R198). -/
  | actwr (ch : BitVec 8) (v : Word)
  /-- DRIVE a, v (45_hot_path.md R214). -/
  | drive (ch : BitVec 8) (v : Word)
  /-- TICK c (R210). -/
  | tick (ch : BitVec 8)
  deriving DecidableEq, Repr

end Sys2Proof
end

