-- ==== Sys2Proof/WellFormed.lean ====
section
/-! DEFINITION. Which terms of Instr are commands: those a frame can carry.

Rule: 30_encoding.md R81 (N is a 16-bit field, 0 ≤ N ≤ 65535). Every other field has its width in its type. -/

namespace Sys2Proof

/-- A batch has at most 65535 samples; every other command is well formed as it stands (R81, R82). -/
def Instr.wellFormed : Instr → Bool
  | .wrreg _ _ _ _ => true
  | .rdreg _ _ _ => true
  | .finit _ => true
  | .winit _ => true
  | .filt _ _ => true
  | .filtb _ xs => decide (xs.length ≤ 65535)
  | .push _ _ _ => true
  | .snap _ _ => true
  | .analyze _ _ => true
  | .map _ _ => true
  | .rlim _ _ => true
  | .actwr _ _ => true
  | .drive _ _ => true
  | .tick _ => true

end Sys2Proof
end

