-- ==== Sys2Proof/Decode.lean ====
section
/-! DEFINITION. From a frame to a command or a rejection, and back.

Rules: 30_encoding.md R80 to R87; the match and mask table of R84 is spec/opcode_table.json. Port restriction is
not part of decoding (R85). -/

namespace Sys2Proof

/-- The rows of the opcode map (R82, R84). -/
inductive Mnemonic where
  | wrreg | rdreg | finit | winit | filt | filtb | push | snap | analyze | map | rlim | actwr | drive | tick
  deriving DecidableEq, Repr

/-- The opcode map in the table's order. -/
def Mnemonic.all : List Mnemonic :=
  [.wrreg, .rdreg, .finit, .winit, .filt, .filtb, .push, .snap, .analyze, .map, .rlim, .actwr, .drive, .tick]

/-- The OP byte (R82). -/
def Mnemonic.opcode : Mnemonic → BitVec 8
  | .wrreg => 0x01#8
  | .rdreg => 0x02#8
  | .finit => 0x10#8
  | .winit => 0x11#8
  | .filt => 0x20#8
  | .filtb => 0x21#8
  | .push => 0x30#8
  | .snap => 0x31#8
  | .analyze => 0x38#8
  | .map => 0x40#8
  | .rlim => 0x41#8
  | .actwr => 0x42#8
  | .drive => 0x43#8
  | .tick => 0x50#8

/-- The bits of ARG that must be zero (R81). -/
def Mnemonic.argMbz : Mnemonic → BitVec 16
  | .wrreg => 0x0000#16
  | .rdreg => 0x0000#16
  | .finit => 0xFFFF#16
  | .winit => 0xFFFF#16
  | .filt => 0xFFFF#16
  | .filtb => 0x0000#16
  | .push => 0xFFFF#16
  | .snap => 0xFFFE#16
  | .analyze => 0xFFFE#16
  | .map => 0xFFFF#16
  | .rlim => 0xFFFF#16
  | .actwr => 0xFFFF#16
  | .drive => 0xFFFF#16
  | .tick => 0xFFFF#16

/-- The match column of the table of R84. -/
def Mnemonic.pattern : Mnemonic → BitVec 32
  | .wrreg => 0x01000000#32
  | .rdreg => 0x02000000#32
  | .finit => 0x10000000#32
  | .winit => 0x11000000#32
  | .filt => 0x20000000#32
  | .filtb => 0x21000000#32
  | .push => 0x30000000#32
  | .snap => 0x31000000#32
  | .analyze => 0x38000000#32
  | .map => 0x40000000#32
  | .rlim => 0x41000000#32
  | .actwr => 0x42000000#32
  | .drive => 0x43000000#32
  | .tick => 0x50000000#32

/-- The mask column of the table of R84. -/
def Mnemonic.mask : Mnemonic → BitVec 32
  | .wrreg => 0xFF000000#32
  | .rdreg => 0xFF000000#32
  | .finit => 0xFF00FFFF#32
  | .winit => 0xFF00FFFF#32
  | .filt => 0xFF00FFFF#32
  | .filtb => 0xFF000000#32
  | .push => 0xFF00FFFF#32
  | .snap => 0xFF00FFFE#32
  | .analyze => 0xFF00FFFE#32
  | .map => 0xFF00FFFF#32
  | .rlim => 0xFF00FFFF#32
  | .actwr => 0xFF00FFFF#32
  | .drive => 0xFF00FFFF#32
  | .tick => 0xFF00FFFF#32

/-- The row a command belongs to. -/
def Instr.mnemonic : Instr → Mnemonic
  | .wrreg _ _ _ _ => .wrreg
  | .rdreg _ _ _ => .rdreg
  | .finit _ => .finit
  | .winit _ => .winit
  | .filt _ _ => .filt
  | .filtb _ _ => .filtb
  | .push _ _ _ => .push
  | .snap _ _ => .snap
  | .analyze _ _ => .analyze
  | .map _ _ => .map
  | .rlim _ _ => .rlim
  | .actwr _ _ => .actwr
  | .drive _ _ => .drive
  | .tick _ => .tick

/-- OP = header[31:24] (R80). -/
def opField (h : BitVec 32) : BitVec 8 := h.extractLsb' 24 8

/-- CH = header[23:16] (R80). -/
def chField (h : BitVec 32) : BitVec 8 := h.extractLsb' 16 8

/-- ARG = header[15:0] (R80). -/
def argField (h : BitVec 32) : BitVec 16 := h.extractLsb' 0 16

/-- REG = ARG[15:8] (R81). -/
def regField (arg : BitVec 16) : BitVec 8 := arg.extractLsb' 8 8

/-- IDX = ARG[7:0] (R81). -/
def idxField (arg : BitVec 16) : BitVec 8 := arg.extractLsb' 0 8

/-- W = ARG[0] (R81). -/
def winField (arg : BitVec 16) : WinSel := if arg.getLsbD 0 then .filt else .raw

/-- The row whose OP the header carries, its must-be-zero bits being zero (R84, R86 (a), (b)). -/
def selectRow (h : BitVec 32) : Option Mnemonic :=
  match Mnemonic.all.find? (fun m => m.opcode == opField h) with
  | some m => if argField h &&& m.argMbz = 0#16 then some m else none
  | none => none

/-- How many data words a command carries (R82). -/
def Mnemonic.dataWords (m : Mnemonic) (arg : BitVec 16) : Nat :=
  match m with
  | .wrreg => 1
  | .rdreg => 0
  | .finit => 0
  | .winit => 0
  | .filt => 1
  | .filtb => arg.toNat
  | .push => 2
  | .snap => 0
  | .analyze => 0
  | .map => 1
  | .rlim => 1
  | .actwr => 1
  | .drive => 1
  | .tick => 0

/-- Whether a frame carries exactly `n` data words. -/
def hasLength : List Word → Nat → Bool
  | [], 0 => true
  | [], _ + 1 => false
  | _ :: _, 0 => false
  | _ :: ds, n + 1 => hasLength ds n

/-- The command a selected row makes of its fields and data words; none where their number differs from the
row's (R82, R86 (c)). -/
def operands (m : Mnemonic) (ch : BitVec 8) (arg : BitVec 16) (data : List Word) : Option Instr :=
  match m, data with
  | .wrreg, [d] => some (.wrreg ch (regField arg) (idxField arg) d)
  | .rdreg, [] => some (.rdreg ch (regField arg) (idxField arg))
  | .finit, [] => some (.finit ch)
  | .winit, [] => some (.winit ch)
  | .filt, [x] => some (.filt ch x)
  | .filtb, xs => if hasLength xs arg.toNat then some (.filtb ch xs) else none
  | .push, [xr, xf] => some (.push ch xr xf)
  | .snap, [] => some (.snap ch (winField arg))
  | .analyze, [] => some (.analyze ch (winField arg))
  | .map, [v] => some (.map ch v)
  | .rlim, [v] => some (.rlim ch v)
  | .actwr, [v] => some (.actwr ch v)
  | .drive, [v] => some (.drive ch v)
  | .tick, [] => some (.tick ch)
  | _, _ => none

/-- The command of a frame; none for every encoding that is not one of the fourteen commands (R86 (a), (b), (c)). -/
def decode (f : Frame) : Option Instr :=
  match selectRow f.header with
  | some m => operands m (chField f.header) (argField f.header) f.data
  | none => none

/-- Format H: OP, CH, ARG from high to low (R80). -/
def headerOf (m : Mnemonic) (ch : BitVec 8) (arg : BitVec 16) : BitVec 32 := m.opcode ++ ch ++ arg

/-- The ARG of a window select (R81). -/
def winArg : WinSel → BitVec 16
  | .raw => 0x0000#16
  | .filt => 0x0001#16

/-- The frame of a command: the header and data word columns of the table of 30_encoding.md R95, row by row. -/
def encode : Instr → Frame
  | .wrreg ch reg idx d => ⟨headerOf .wrreg ch (reg ++ idx), [d]⟩
  | .rdreg ch reg idx => ⟨headerOf .rdreg ch (reg ++ idx), []⟩
  | .finit ch => ⟨headerOf .finit ch 0#16, []⟩
  | .winit ch => ⟨headerOf .winit ch 0#16, []⟩
  | .filt ch x => ⟨headerOf .filt ch 0#16, [x]⟩
  | .filtb ch xs => ⟨headerOf .filtb ch (BitVec.ofNat 16 xs.length), xs⟩
  | .push ch xr xf => ⟨headerOf .push ch 0#16, [xr, xf]⟩
  | .snap ch w => ⟨headerOf .snap ch (winArg w), []⟩
  | .analyze ch w => ⟨headerOf .analyze ch (winArg w), []⟩
  | .map ch v => ⟨headerOf .map ch 0#16, [v]⟩
  | .rlim ch v => ⟨headerOf .rlim ch 0#16, [v]⟩
  | .actwr ch v => ⟨headerOf .actwr ch 0#16, [v]⟩
  | .drive ch v => ⟨headerOf .drive ch 0#16, [v]⟩
  | .tick ch => ⟨headerOf .tick ch 0#16, []⟩

/-- `n` data words read off a number, the first in its low 64 bits. -/
def wordsFrom (v : Nat) : Nat → List Word
  | 0 => []
  | n + 1 => BitVec.ofNat 64 v :: wordsFrom (v >>> 64) n

/-- The frame whose bits are `w`, numbered with bit 0 the least significant bit of the header: the header in the
low 32 bits, then the data words its row carries; every bit at or above `nbits` is zero (log 16). -/
def tableFrame (nbits w : Nat) : Frame :=
  let v := w % 2 ^ nbits
  let h := BitVec.ofNat 32 v
  match selectRow h with
  | some m => ⟨h, wordsFrom (v >>> 32) (m.dataWords (argField h))⟩
  | none => ⟨h, []⟩

/-- What the decoder reads from the instruction whose bits are `w`. -/
def decodeTableWord (nbits w : Nat) : Option Instr := decode (tableFrame nbits w)

end Sys2Proof
end

