-- ==== Sys2Proof/Config.lean ====
section
/-! DEFINITION. The parameters of an instance of the hardware and the values the spec leaves free.

Rules: 00_scope.md R7; 40_config_init.md R116 (DESIGN); 43_spectrum.md R180, R184 (DFTMAG);
41_filter.md R146 (NaN); 44_actuator.md R199 and 45_hot_path.md R212 (the Board). -/

namespace Sys2Proof

/-- The three filter kinds DESIGN is given (R116: "a kind in {0, 1, 2}"; 10_state.md R31). -/
inductive FilterKind where
  | lowpass
  | bandpass
  | bandstop
  deriving DecidableEq, Repr, Inhabited

/-- One section as DESIGN returns it: (b0, b1, b2, a1, a2), already divided by its a0 (R116, DESIGN-NORM). -/
structure Coefs where
  b0 : Num64
  b1 : Num64
  b2 : Num64
  a1 : Num64
  a2 : Num64
  deriving DecidableEq, Repr, Inhabited

/-- The five coefficients of a stage no filter uses (R112, R251). -/
def Coefs.zero : Coefs := ⟨posZero, posZero, posZero, posZero, posZero⟩

/-- One known value of the parameter function DESIGN: its four arguments and the sections it returns. -/
structure DesignCase where
  kind : FilterKind
  wlo : Num64
  whi : Option Num64
  order : Nat
  sections : List Coefs
  deriving DecidableEq, Repr

/-- The parameters of one instance (R7). They never change; `design` lists the values of DESIGN that are
known of this instance, and every other value of DESIGN is free (log 1, log 4). -/
structure Params where
  nch : Nat
  nact : Nat
  nsmax : Nat
  capmax : Nat
  guardNonfinite : Bool
  design : List DesignCase
  deriving DecidableEq, Repr

/-- The bounds R7 puts on the open parameters. -/
abbrev Params.Legal (p : Params) : Prop :=
  (1 ≤ p.nch ∧ p.nch ≤ 256) ∧ (1 ≤ p.nact ∧ p.nact ≤ 256) ∧
  (1 ≤ p.nsmax ∧ p.nsmax ≤ 32) ∧ (1 ≤ p.capmax ∧ p.capmax ≤ 65535)

/-- The instance State.reset is given: the counts of the test instance of 95_test_vectors.md section 0.
DESIGN CHOICE (log 1), unsafe for a claim that rests on one of the numbers. -/
def Params.default : Params :=
  { nch := 2, nact := 2, nsmax := 4, capmax := 8, guardNonfinite := false, design := [] }

namespace Config

/-- DESIGN where no value is listed: a function of its four arguments alone (DESIGN-FUN) that returns exactly
`n div 2` sections (DESIGN-LEN), and nothing else is known of it (R116; log 4). -/
opaque design (kind : FilterKind) (wlo : Num64) (whi : Option Num64) (n : Nat) : Vector Coefs (n / 2)

/-- The sign and payload of the n-th NaN the arithmetic makes (R146, U1; log 3). -/
opaque freeNaN : Nat → BitVec 52

/-- DFTMAG on a window of finite values that is not all zero, as the code of a number that is neither negative
nor NaN: codes 0 to 0x7FF0000000000000 are +0.0 to +infinity, the last code is -0.0 (R180, DFT-FUN and
DFT-NONNEG; log 5). -/
opaque dftMagnitude (x : List Num64) (k : Nat) : Fin 0x7FF0000000000002

/-- Whether some intermediate of the implementation's transform overflows on this window and bin; only the
named property DFT-TOL reads it (R180; log 5). -/
opaque dftOverflows (x : List Num64) (k : Nat) : Bool

/-- The n-th free magnitude, drawn for a window that holds a NaN or an infinity (R184, U5; log 6). -/
opaque freeMagnitude : Nat → Num64

/-- The Board's answer to the n-th BoardRead, where State lists none (R212, U6; log 7). -/
opaque boardSample : Nat → Option Num64

/-- The Board's acknowledgement of the n-th BoardWrite, where State lists none (R199, U7; log 8). -/
opaque boardAck : Nat → Bool

end Config

end Sys2Proof
end

