-- ==== Sys2Proof/Machine/Arith.lean ====
section
/-! DEFINITION. IEEE 754 binary64 arithmetic and comparison.

Rules: 00_scope.md R10; 41_filter.md R146 (the semantics is the spec's general-knowledge passage G1; log 2).
A finite number is an exact integer count of units of 2^-1074, the smallest subnormal. Every operation computes
the exact result as a quotient of naturals in that unit and rounds it once, to nearest with ties to even.
The first argument `q` of an operation is the NaN it answers where IEEE 754 answers a NaN (log 3). -/

namespace Sys2Proof.Machine.Arith

/-- The exponent and fraction bits of +infinity, as a number. -/
def infMag : Nat := 0x7FF0000000000000

/-- The sign bit. -/
def signBit (a : Num64) : Bool := a.msb

/-- The 63 bits below the sign. -/
def magBits (a : Num64) : Nat := a.toNat % 2 ^ 63

/-- The biased exponent. -/
def expField (a : Num64) : Nat := magBits a / 2 ^ 52

/-- The fraction bits. -/
def fracField (a : Num64) : Nat := a.toNat % 2 ^ 52

def isNaN (a : Num64) : Bool := decide (infMag < magBits a)

def isInf (a : Num64) : Bool := decide (magBits a = infMag)

def isZero (a : Num64) : Bool := decide (magBits a = 0)

/-- finite(x) of R10: neither an infinity nor a NaN. -/
def finite (a : Num64) : Bool := decide (magBits a < infMag)

/-- A NaN whose quiet bit (the top fraction bit) is set. -/
def isQuietNaN (a : Num64) : Bool := isNaN a && a.getLsbD 51

/-- absf(x) of R10: the sign bit cleared. -/
def absf (a : Num64) : Num64 := a &&& 0x7FFFFFFFFFFFFFFF#64

/-- The sign bit inverted. -/
def neg (a : Num64) : Num64 := a ^^^ 0x8000000000000000#64

/-- The magnitude of a finite number in units of 2^-1074, exact. -/
def units (a : Num64) : Nat :=
  if expField a = 0 then fracField a else (2 ^ 52 + fracField a) * 2 ^ (expField a - 1)

/-- The value of a finite number in units of 2^-1074, exact. -/
def value (a : Num64) : Int := if signBit a then -(units a : Int) else (units a : Int)

/-- A number from its sign and the 63 bits below it. -/
def pack (sgn : Bool) (mag : Nat) : Num64 := BitVec.ofNat 64 (if sgn then 2 ^ 63 + mag else mag)

/-- The magnitude bits of `num / den` units of 2^-1074, rounded once to 53 significant bits (fewer below the
normal range: gradual underflow), to nearest, ties to even; infinity from the overflow threshold on (R146). -/
def roundMag (num den : Nat) : Nat :=
  let k := (num / den).log2 - 52
  let step := den * 2 ^ k
  let m := num / step
  let r := num % step
  let up := decide (step < 2 * r) || (decide (2 * r = step) && m % 2 == 1)
  min (k * 2 ^ 52 + m + (if up then 1 else 0)) infMag

/-- The number nearest to plus or minus `num / den` units of 2^-1074. -/
def roundTo (sgn : Bool) (num den : Nat) : Num64 := pack sgn (roundMag num den)

/-- The quiet NaN with this sign (top bit) and payload (the other 51 bits). -/
def quietNaN (b : BitVec 52) : Num64 := b.extractLsb' 51 1 ++ 0x7FF#11 ++ 1#1 ++ b.extractLsb' 0 51

/-- The n-th free NaN: some quiet NaN, and nothing more is known of it (R146, U1; log 3). -/
def drawNaN (n : Nat) : Num64 := quietNaN (Config.freeNaN n)

/-- a +. b (R10). An exact zero sum is +0.0 unless both operands are negative. -/
def add (q a b : Num64) : Num64 :=
  if isNaN a || isNaN b then q
  else if isInf a then (if isInf b && signBit a != signBit b then q else a)
  else if isInf b then b
  else
    let v := value a + value b
    if v = 0 then pack (signBit a && signBit b) 0 else roundTo (decide (v < 0)) v.natAbs 1

/-- a -. b (R10). -/
def sub (q a b : Num64) : Num64 := add q a (neg b)

/-- a *. b (R10). -/
def mul (q a b : Num64) : Num64 :=
  let sgn := signBit a != signBit b
  if isNaN a || isNaN b then q
  else if (isInf a && isZero b) || (isZero a && isInf b) then q
  else if isInf a || isInf b then pack sgn infMag
  else roundTo sgn (units a * units b) (2 ^ 1074)

/-- a /. b (R10). -/
def div (q a b : Num64) : Num64 :=
  let sgn := signBit a != signBit b
  if isNaN a || isNaN b then q
  else if (isInf a && isInf b) || (isZero a && isZero b) then q
  else if isInf a || isZero b then pack sgn infMag
  else if isInf b then pack sgn 0
  else roundTo sgn (units a * 2 ^ 1074) (units b)

/-- The place of a number in the order of the comparisons; both zeros have place 0. -/
def orderKey (a : Num64) : Int := if signBit a then -(magBits a : Int) else (magBits a : Int)

/-- a < b of R10: false when an operand is a NaN. -/
def lt (a b : Num64) : Bool := !isNaN a && !isNaN b && decide (orderKey a < orderKey b)

/-- a == b of R10: false when an operand is a NaN, and +0 == -0. -/
def eq (a b : Num64) : Bool := !isNaN a && !isNaN b && decide (orderKey a = orderKey b)

/-- a <= b of R10. -/
def le (a b : Num64) : Bool := lt a b || eq a b

/-- a > b of R10. -/
def gt (a b : Num64) : Bool := lt b a

/-- numi(n) of R10: the binary64 of a natural number, exact below 2^53. -/
def numi (n : Nat) : Num64 := roundTo false (n * 2 ^ 1074) 1

end Sys2Proof.Machine.Arith
end

