-- ==== Sys2Proof/Machine/State.lean ====
section
/-! DEFINITION. Everything the spec gives the machine, as plain data, and the state right after reset.

Rules: 10_state.md R20 to R47; 20_memory.md R60; 70_reset_and_hazards.md R250, R251. INVENTORY.md lists every field
with its rule and its reset value. -/

namespace Sys2Proof.Machine

/-- The two command ports (R20). -/
inductive Port where
  | s
  | d
  deriving DecidableEq, Repr

/-- The registers of one sensor channel (R30 to R38). CSTAT is the view {WINITED, FINITED} of the two bits. -/
structure ChanRegs where
  fs : Num64
  kind : BitVec 2
  flo : Num64
  fhi : Num64
  order : BitVec 16
  capcfg : BitVec 16
  finited : Bool
  winited : Bool
  nst : BitVec 16
  cap : BitVec 16
  deriving DecidableEq, Repr

/-- The registers of one stage of one channel: its coefficients and its delay registers (R23, R42). A0 is hardwired
and has no storage. -/
structure StageRegs where
  coef : Coefs
  w1 : Num64
  w2 : Num64
  deriving DecidableEq, Repr

/-- The registers of one actuator channel (R25, R39, R40). -/
structure ActRegs where
  vlo : Num64
  vhi : Num64
  olo : Num64
  ohi : Num64
  step : Num64
  last : Num64
  deriving DecidableEq, Repr

/-- Reset values of a sensor channel (R251). -/
def ChanRegs.reset : ChanRegs :=
  { fs := posZero, kind := 0#2, flo := posZero, fhi := posZero, order := 0#16, capcfg := 0#16,
    finited := false, winited := false, nst := 0#16, cap := 0#16 }

/-- Reset values of a stage (R251). -/
def StageRegs.reset : StageRegs := { coef := Coefs.zero, w1 := posZero, w2 := posZero }

/-- Reset values of an actuator channel: STEP is unlimited (R251). -/
def ActRegs.reset : ActRegs :=
  { vlo := posZero, vhi := posZero, olo := posZero, ohi := posZero, step := posInf, last := posZero }

/-- Window memory: the elements that do not hold +0.0, by rising address; an unlisted address reads +0.0, its reset
value (R44, R60, R251; log 14). -/
abbrev Memory := List (Nat × Num64)

/-- One move of the environment (log 9): a frame arrives on a port, an agent is given its turn, or reset is applied
at a command boundary (R20, R66, R250). -/
inductive Event where
  | deliver (p : Port) (f : Frame)
  | serve (p : Port)
  | reset
  deriving DecidableEq, Repr

/-- A response as a port returns it: the header word and the data words (30_encoding.md R90). -/
structure Response where
  port : Port
  header : BitVec 32
  data : List Word
  deriving DecidableEq, Repr

/-- One BoardRead and the Board's answer (45_hot_path.md R212). -/
structure BoardReadCall where
  chan : BitVec 8
  answer : Option Num64
  deriving DecidableEq, Repr

/-- One BoardWrite and the Board's acknowledgement (44_actuator.md R199). -/
structure BoardWriteCall where
  act : BitVec 8
  value : Num64
  ack : Bool
  deriving DecidableEq, Repr

/-- The whole state. `chans`, `stages`, `acts` and `mem` list what differs from the reset value, by rising key. -/
structure State where
  params : Params
  chans : List (Nat × ChanRegs)
  stages : List (Nat × StageRegs)
  acts : List (Nat × ActRegs)
  mem : Memory
  portS : List Frame
  portD : List Frame
  active : Port
  events : List Event
  boardAnswers : List (Option Num64)
  boardAcks : List Bool
  boardReads : List BoardReadCall
  boardWrites : List BoardWriteCall
  responses : List Response
  nanDraws : Nat
  magDraws : Nat
  deriving DecidableEq, Repr

/-- The hardware never stops with a fault: every error is a status in a response, after which it takes its next
command (60_exceptions.md R220, R234). No reason to fault exists, so nothing raises one; safe. -/
inductive Fault where
  deriving DecidableEq, Repr

/-- Why the model gives a step no meaning. -/
inductive Refusal where
  /-- Raised by exec's arm of an instruction that has no meaning yet; safe. -/
  | notModelled (mnemonic : String)
  /-- Raised by FINIT where the listed value of DESIGN does not have `n div 2` sections: "the model must refuse the
  FINIT (no step)" (40_config_init.md R116); safe. -/
  | designLength
  deriving DecidableEq, Repr

/-- An instance with these parameters right after reset, before any command has arrived (R251). -/
def State.resetOf (p : Params) : State :=
  { params := p, chans := [], stages := [], acts := [], mem := [], portS := [], portD := [], active := .s,
    events := [], boardAnswers := [], boardAcks := [], boardReads := [], boardWrites := [], responses := [],
    nanDraws := 0, magDraws := 0 }

/-- The machine right after reset, with the parameters of log 1. -/
def State.reset : State := State.resetOf Params.default

end Sys2Proof.Machine
end

