-- ==== Sys2Proof/Machine/Flags.lean ====
section
/-! DEFINITION. Status codes, the F bit and the response header, and the CSTAT view of the two valid bits.

Rules: 30_encoding.md R90, R91; 10_state.md R26, R36. The hardware has no other flag. -/

namespace Sys2Proof.Machine

/-- The status of a response (R91). -/
inductive Status where
  | ok
  | invalidFilterOrder
  | invalidCutoff
  | degenerateRange
  | nonFiniteSample
  | invalidConfig
  | notInitialised
  | outOfRange
  | illegalCommand
  deriving DecidableEq, Repr

/-- STATUS numbers (R91). -/
def Status.code : Status → BitVec 4
  | .ok => 0#4
  | .invalidFilterOrder => 1#4
  | .invalidCutoff => 2#4
  | .degenerateRange => 3#4
  | .nonFiniteSample => 4#4
  | .invalidConfig => 5#4
  | .notInitialised => 6#4
  | .outOfRange => 7#4
  | .illegalCommand => 8#4

/-- The response header: OP echoed, F, three zero bits, STATUS, CNT, from high to low (R90). -/
def responseHeader (op : BitVec 8) (f : Bool) (st : Status) (cnt : Nat) : BitVec 32 :=
  op ++ BitVec.ofBool f ++ 0#3 ++ st.code ++ BitVec.ofNat 16 cnt

/-- The STATUS field of a response header, bits 19:16 (R90). -/
def statusField (h : BitVec 32) : BitVec 4 := h.extractLsb' 16 4

/-- The CNT field of a response header, bits 15:0 (R90). -/
def cntField (h : BitVec 32) : BitVec 16 := h.extractLsb' 0 16

/-- The F bit of a response header, bit 23 (R90). -/
def flagField (h : BitVec 32) : Bool := h.getLsbD 23

/-- CSTAT: zext_64 of the two bits WINITED, FINITED, the first above the second (R36). -/
def cstat (r : ChanRegs) : Word := (BitVec.ofBool r.winited ++ BitVec.ofBool r.finited).setWidth 64

/-- A check that fails with a status where the condition holds. -/
def failIf (c : Bool) (st : Status) : Option Status := if c then some st else none

/-- The first failing check, and only that one (60_exceptions.md R232). -/
def firstError : List (Option Status) → Option Status
  | [] => none
  | some st :: _ => some st
  | none :: cs => firstError cs

end Sys2Proof.Machine
end

