-- ==== Sys2Proof/Machine/Sparse.lean ====
section
/-! DEFINITION. A file of like registers, or a memory, as the list of what differs from the reset value.

One canonical form: keys strictly rising, no entry equal to what an unlisted key reads as. Log 14. -/

namespace Sys2Proof.Machine.Sparse

variable {α : Type} [DecidableEq α]

/-- The entry at `k`; `d` where none is listed. -/
def read (d : α) : List (Nat × α) → Nat → α
  | [], _ => d
  | (j, v) :: m, k => if j = k then v else read d m k

/-- The list without the entry at `k`. -/
def erase (m : List (Nat × α)) (k : Nat) : List (Nat × α) := m.filter (fun e => e.1 != k)

/-- The list with an entry put before the first larger key. -/
def insert (k : Nat) (v : α) : List (Nat × α) → List (Nat × α)
  | [] => [(k, v)]
  | (j, w) :: m => if k < j then (k, v) :: (j, w) :: m else (j, w) :: insert k v m

/-- Writing what an unlisted key reads as removes the entry. -/
def write (d : α) (m : List (Nat × α)) (k : Nat) (v : α) : List (Nat × α) :=
  if v = d then erase m k else insert k v (erase m k)

/-- The canonical form. -/
abbrev wf (d : α) (m : List (Nat × α)) : Prop :=
  m.Pairwise (fun a b => a.1 < b.1) ∧ ∀ e ∈ m, e.2 ≠ d

end Sys2Proof.Machine.Sparse

namespace Sys2Proof.Machine

/-- The canonical form of window memory: addresses strictly rising, no element listed as +0.0. -/
abbrev Memory.wf (m : Memory) : Prop := Sparse.wf posZero m

end Sys2Proof.Machine
end

