-- ==== Sys2Proof/Machine/Ops.lean ====
section
/-! DEFINITION. The named operations over registers, window memory, responses, the Board and the ports.

Rules: 00_scope.md R11; 10_state.md R22, R23, R44; 20_memory.md R60, R61; 44_actuator.md R199;
45_hot_path.md R212; 60_exceptions.md R226, R232, R233; 70_reset_and_hazards.md R250. -/

namespace Sys2Proof.Machine

/-- What a command or a step answers. -/
abbrev Result := Host.Outcome State Fault Refusal

/-- The registers of sensor channel `c`. -/
def State.chan (s : State) (c : Nat) : ChanRegs := Sparse.read ChanRegs.reset s.chans c

def setChan (c : Nat) (r : ChanRegs) (s : State) : State :=
  { s with chans := Sparse.write ChanRegs.reset s.chans c r }

/-- The place of stage `k` of channel `c` in the stage file; a stage number has at most 16 bits. -/
def stageKey (c k : Nat) : Nat := c * 65536 + k

/-- The registers of stage `k` of channel `c`. -/
def State.stage (s : State) (c k : Nat) : StageRegs := Sparse.read StageRegs.reset s.stages (stageKey c k)

def setStage (c k : Nat) (r : StageRegs) (s : State) : State :=
  { s with stages := Sparse.write StageRegs.reset s.stages (stageKey c k) r }

/-- The registers of actuator channel `a`. -/
def State.act (s : State) (a : Nat) : ActRegs := Sparse.read ActRegs.reset s.acts a

def setAct (a : Nat) (r : ActRegs) (s : State) : State :=
  { s with acts := Sparse.write ActRegs.reset s.acts a r }

/-- The number of a window select: 0 raw, 1 filtered (R44). -/
def winIndex : WinSel → Nat
  | .raw => 0
  | .filt => 1

/-- The address of WIN[c][w][i] as one number; an index has at most 16 bits (R60). -/
def winAddr (c : Nat) (w : WinSel) (i : Nat) : Nat := (c * 2 + winIndex w) * 65536 + i

/-- One element of window memory. -/
def Memory.read (m : Memory) (a : Nat) : Num64 := Sparse.read posZero m a

def Memory.write (m : Memory) (a : Nat) (v : Num64) : Memory := Sparse.write posZero m a v

/-- `n` elements from address `a` on. -/
def Memory.readFrom (m : Memory) (a : Nat) : Nat → List Num64
  | 0 => []
  | n + 1 => Memory.read m a :: Memory.readFrom m (a + 1) n

/-- The listed elements written from address `a` on. -/
def Memory.writeFrom (m : Memory) (a : Nat) : List Num64 → Memory
  | [] => m
  | v :: vs => Memory.writeFrom (Memory.write m a v) (a + 1) vs

/-- WIN[c][w][i]. -/
def State.win (s : State) (c : Nat) (w : WinSel) (i : Nat) : Num64 := Memory.read s.mem (winAddr c w i)

/-- MemRead((c, w, i), n) of R11. -/
def memRead (c : Nat) (w : WinSel) (i n : Nat) (s : State) : List Num64 := Memory.readFrom s.mem (winAddr c w i) n

/-- MemWrite((c, w, i), n, vs) of R11, `n` being the length of `vs`. -/
def memWrite (c : Nat) (w : WinSel) (i : Nat) (vs : List Num64) (s : State) : State :=
  { s with mem := Memory.writeFrom s.mem (winAddr c w i) vs }

/-- The response of a command that ends with status OK (R11 respond). -/
def respondOk (m : Mnemonic) (f : Bool) (data : List Word) (s : State) : State :=
  { s with responses := s.responses ++ [⟨s.active, responseHeader m.opcode f .ok data.length, data⟩] }

/-- Error entry, the whole of it: the response carries the status and the echoed OP, F = 0 and CNT = 0, and nothing
else changes (R11 raise, R226, R233). -/
def raise (op : BitVec 8) (st : Status) (s : State) : State :=
  { s with responses := s.responses ++ [⟨s.active, responseHeader op false st 0, []⟩] }

/-- A command: the status of its first failing check, or its effect (R232). -/
def guarded (m : Mnemonic) (checks : List (Option Status)) (s effect : State) : Result :=
  match firstError checks with
  | some st => .next (raise m.opcode st s)
  | none => .next effect

/-- Port D refuses every write-class command (R236). -/
def portCheck (s : State) : Option Status := failIf (s.active == .d) .illegalCommand

/-- CH ≥ NCH (R228). -/
def sensorCheck (c : BitVec 8) (s : State) : Option Status :=
  failIf (decide (s.params.nch ≤ c.toNat)) .outOfRange

/-- CH ≥ NACT (R228). -/
def actuatorCheck (a : BitVec 8) (s : State) : Option Status :=
  failIf (decide (s.params.nact ≤ a.toNat)) .outOfRange

/-- FINITED[c] = 0 (R227). -/
def finitedCheck (c : BitVec 8) (s : State) : Option Status := failIf (!(s.chan c.toNat).finited) .notInitialised

/-- WINITED[c] = 0 (R227). -/
def winitedCheck (c : BitVec 8) (s : State) : Option Status := failIf (!(s.chan c.toNat).winited) .notInitialised

/-- BoardRead(c): the Board's next answer, a free one where none is listed (R212; log 7). -/
def boardRead (c : BitVec 8) (s : State) : Option Num64 × State :=
  let r := s.boardAnswers.headD (Config.boardSample s.boardReads.length)
  (r, { s with boardAnswers := s.boardAnswers.tail, boardReads := s.boardReads ++ [⟨c, r⟩] })

/-- BoardWrite(a, v): the Board's next acknowledgement, a free one where none is listed (R199; log 8). -/
def boardWrite (a : BitVec 8) (v : Num64) (s : State) : Bool × State :=
  let k := s.boardAcks.headD (Config.boardAck s.boardWrites.length)
  (k, { s with boardAcks := s.boardAcks.tail, boardWrites := s.boardWrites ++ [⟨a, v, k⟩] })

/-- The commands received on a port and not yet executed, oldest first. -/
def State.pending (s : State) : Port → List Frame
  | .s => s.portS
  | .d => s.portD

def setPending (p : Port) (fs : List Frame) (s : State) : State :=
  match p with
  | .s => { s with portS := fs }
  | .d => { s with portD := fs }

/-- A frame arrives on a port, behind those already there (R66). -/
def enqueue (p : Port) (f : Frame) (s : State) : State := setPending p (s.pending p ++ [f]) s

/-- An agent takes the oldest command of its port; none where the port is idle (R20, R24). -/
def dequeue (p : Port) (s : State) : Option (Frame × State) :=
  match s.pending p with
  | [] => none
  | f :: fs => some (f, { setPending p fs s with active := p })

/-- A frame that is not one of the fourteen commands: IllegalCommand with its OP byte echoed (R86, R90). -/
def rejectFrame (f : Frame) (s : State) : State := raise (opField f.header) .illegalCommand s

/-- Reset: every element at its reset value, both ports emptied, no response, no Board call (R250, R251; log 11). -/
def resetMachine (s : State) : State :=
  { s with chans := [], stages := [], acts := [], mem := [], portS := [], portD := [], active := .s }

end Sys2Proof.Machine
end

