-- ==== Sys2Proof/Machine/Actuator.lean ====
section
/-! DEFINITION. The actuator mapper: MAP, RLIM and ACTWR (44_actuator.md R190 to R199). -/

namespace Sys2Proof.Machine

/-- The value range has collapsed: VHI == VLO, the IEEE 754 equality (R191, R223). -/
def rangeCheck (r : ActRegs) : Option Status := failIf (Arith.eq r.vhi r.vlo) .degenerateRange

/-- AMAP(a, v) once the range is not degenerate (R191). Not clamped (R192). -/
def amap (q : Nat → Num64) (r : ActRegs) (v : Num64) : Num64 :=
  let t := Arith.div (q 2) (Arith.sub (q 0) v r.vlo) (Arith.sub (q 1) r.vhi r.vlo)
  Arith.add (q 5) (Arith.mul (q 4) t (Arith.sub (q 3) r.ohi r.olo)) r.olo

/-- STEP is greater than zero; zero, a negative value and a NaN fail (R194). -/
def stepCheck (r : ActRegs) : Option Status := failIf (!Arith.gt r.step posZero) .invalidConfig

/-- RATELIMIT(new, last, st) (R195). -/
def rateLimit (q : Nat → Num64) (new last st : Num64) : Num64 :=
  let d := Arith.sub (q 0) new last
  if Arith.gt (Arith.absf d) st then
    let sg := if Arith.gt d posZero then one else negOne
    Arith.add (q 2) last (Arith.mul (q 1) sg st)
  else new

/-- The NaNs the next operations answer, from draw `n` on (log 3). -/
def nansFrom (n : Nat) : Nat → Num64 := fun j => Arith.drawNaN (n + j)

/-- The value MAP computes for actuator `a` in a state (R191). -/
def mapped (a : BitVec 8) (v : Num64) (s : State) : Num64 := amap (nansFrom s.nanDraws) (s.act a.toNat) v

/-- The value RLIM computes for actuator `a` in a state (R195). -/
def limited (a : BitVec 8) (v : Num64) (s : State) : Num64 :=
  rateLimit (nansFrom s.nanDraws) v (s.act a.toNat).last (s.act a.toNat).step

/-- The six draws AMAP's operations use up (log 3). -/
def drawMap (s : State) : State := { s with nanDraws := s.nanDraws + 6 }

/-- BoardWrite, and LAST[a] takes the value where the Board acknowledged it (R198). -/
def writeActuator (a : BitVec 8) (v : Num64) (s : State) : Bool × State :=
  let b := boardWrite a v s
  (b.1, if b.1 then setAct a.toNat { b.2.act a.toNat with last := v } b.2 else b.2)

/-- MAP (R190). -/
def execMap (a : BitVec 8) (v : Word) (s : State) : Result :=
  guarded .map [portCheck s, actuatorCheck a s, rangeCheck (s.act a.toNat)] s
    (respondOk .map false [mapped a v s] (drawMap s))

/-- RLIM (R194): writes nothing. -/
def execRlim (a : BitVec 8) (v : Word) (s : State) : Result :=
  guarded .rlim [portCheck s, actuatorCheck a s, stepCheck (s.act a.toNat)] s
    (respondOk .rlim false [limited a v s] s)

/-- ACTWR (R198): F is the Board's acknowledgement. -/
def execActwr (a : BitVec 8) (v : Word) (s : State) : Result :=
  guarded .actwr [portCheck s, actuatorCheck a s] s
    (respondOk .actwr (writeActuator a v s).1 [] (writeActuator a v s).2)

end Sys2Proof.Machine
end

