-- ==== Sys2Proof/Machine/Operands.lean ====
section
/-! DEFINITION. The register map and the operand forms of WRREG and RDREG.

Rules: 10_state.md section 4 (R30 to R42, the table); 30_encoding.md R81, R83, R87, R95; 40_config_init.md R110, R111. -/

namespace Sys2Proof.Machine

/-- The registers of the map. -/
inductive Reg where
  | fs | kind | flo | fhi | order | capcfg | cstat | nst | cap | coef | w
  | vlo | vhi | olo | ohi | step | last | param
  deriving DecidableEq, Repr

/-- What CH names for a register. -/
inductive RegClass where
  | sensor
  | actuator
  | global
  deriving DecidableEq, Repr

/-- The number a register's name stands for in a command (30_encoding.md R95; the table of 10_state.md section 4). -/
def Reg.number : Reg → BitVec 8
  | .fs => 0x00#8
  | .kind => 0x01#8
  | .flo => 0x02#8
  | .fhi => 0x03#8
  | .order => 0x04#8
  | .capcfg => 0x05#8
  | .cstat => 0x08#8
  | .nst => 0x09#8
  | .cap => 0x0A#8
  | .coef => 0x10#8
  | .w => 0x11#8
  | .vlo => 0x20#8
  | .vhi => 0x21#8
  | .olo => 0x22#8
  | .ohi => 0x23#8
  | .step => 0x24#8
  | .last => 0x28#8
  | .param => 0x30#8

/-- REG numbers; every number not in the table is reserved. -/
def Reg.ofNumber (n : BitVec 8) : Option Reg :=
  match n.toNat with
  | 0x00 => some .fs
  | 0x01 => some .kind
  | 0x02 => some .flo
  | 0x03 => some .fhi
  | 0x04 => some .order
  | 0x05 => some .capcfg
  | 0x08 => some .cstat
  | 0x09 => some .nst
  | 0x0A => some .cap
  | 0x10 => some .coef
  | 0x11 => some .w
  | 0x20 => some .vlo
  | 0x21 => some .vhi
  | 0x22 => some .olo
  | 0x23 => some .ohi
  | 0x24 => some .step
  | 0x28 => some .last
  | 0x30 => some .param
  | _ => none

def Reg.cls : Reg → RegClass
  | .fs | .kind | .flo | .fhi | .order | .capcfg | .cstat | .nst | .cap | .coef | .w => .sensor
  | .vlo | .vhi | .olo | .ohi | .step | .last => .actuator
  | .param => .global

/-- RO in the table: WRREG raises IllegalCommand (R110). -/
def Reg.readOnly : Reg → Bool
  | .cstat | .nst | .cap | .coef | .w | .last | .param => true
  | .fs | .kind | .flo | .fhi | .order | .capcfg | .vlo | .vhi | .olo | .ohi | .step => false

/-- IDX = {s[4:0], k[2:0]}, as `RDREG c, COEF, s, k` and `RDREG c, W, s, j` give it (R81, R95). -/
def stageIdx (s : BitVec 5) (k : BitVec 3) : BitVec 8 := s ++ k

/-- s of IDX = {s[4:0], k[2:0]} (R81). -/
def idxStage (idx : BitVec 8) : Nat := (idx.extractLsb' 3 5).toNat

/-- k or j of IDX (R81). -/
def idxElem (idx : BitVec 8) : Nat := (idx.extractLsb' 0 3).toNat

/-- CH against NCH, NACT or 0 (R110, R111). -/
def Reg.channelCheck (r : Reg) (ch : BitVec 8) (s : State) : Option Status :=
  match r.cls with
  | .sensor => sensorCheck ch s
  | .actuator => actuatorCheck ch s
  | .global => failIf (ch != 0#8) .outOfRange

/-- IDX against the range RDREG gives the register (R111). -/
def Reg.indexCheck (r : Reg) (idx : BitVec 8) (s : State) : Option Status :=
  match r with
  | .coef => failIf (decide (s.params.nsmax ≤ idxStage idx) || decide (5 < idxElem idx)) .outOfRange
  | .w => failIf (decide (s.params.nsmax ≤ idxStage idx) || decide (1 < idxElem idx)) .outOfRange
  | .param => failIf (decide (4 < idx.toNat)) .outOfRange
  | _ => failIf (idx != 0#8) .outOfRange

/-- An integer register takes a value that fits it; a Num register takes any pattern (R83, R110). -/
def Reg.widthCheck (r : Reg) (d : Word) : Option Status :=
  match r with
  | .kind => failIf (d.extractLsb' 2 62 != 0#62) .outOfRange
  | .order | .capcfg => failIf (d.extractLsb' 16 48 != 0#48) .outOfRange
  | _ => none

/-- COEF element k: 0 B0, 1 B1, 2 B2, 3 A0 hardwired to 1.0, 4 A1, 5 A2 (R42). -/
def coefElem (c : Coefs) (k : Nat) : Num64 :=
  match k with
  | 0 => c.b0
  | 1 => c.b1
  | 2 => c.b2
  | 3 => one
  | 4 => c.a1
  | _ => c.a2

/-- PARAM by IDX: 0 NCH, 1 NACT, 2 NSMAX, 3 CAPMAX, 4 GUARD_NONFINITE (R41). -/
def paramElem (p : Params) (idx : Nat) : Word :=
  match idx with
  | 0 => BitVec.ofNat 64 p.nch
  | 1 => BitVec.ofNat 64 p.nact
  | 2 => BitVec.ofNat 64 p.nsmax
  | 3 => BitVec.ofNat 64 p.capmax
  | _ => if p.guardNonfinite then 1#64 else 0#64

/-- The value RDREG returns: a Num as its bits, an integer zero-extended (R111). -/
def readReg (r : Reg) (ch idx : BitVec 8) (s : State) : Word :=
  match r with
  | .fs => (s.chan ch.toNat).fs
  | .kind => (s.chan ch.toNat).kind.setWidth 64
  | .flo => (s.chan ch.toNat).flo
  | .fhi => (s.chan ch.toNat).fhi
  | .order => (s.chan ch.toNat).order.setWidth 64
  | .capcfg => (s.chan ch.toNat).capcfg.setWidth 64
  | .cstat => cstat (s.chan ch.toNat)
  | .nst => (s.chan ch.toNat).nst.setWidth 64
  | .cap => (s.chan ch.toNat).cap.setWidth 64
  | .coef => coefElem (s.stage ch.toNat (idxStage idx)).coef (idxElem idx)
  | .w => if idxElem idx = 0 then (s.stage ch.toNat (idxStage idx)).w1 else (s.stage ch.toNat (idxStage idx)).w2
  | .vlo => (s.act ch.toNat).vlo
  | .vhi => (s.act ch.toNat).vhi
  | .olo => (s.act ch.toNat).olo
  | .ohi => (s.act ch.toNat).ohi
  | .step => (s.act ch.toNat).step
  | .last => (s.act ch.toNat).last
  | .param => paramElem s.params idx.toNat

/-- The staging register written by WRREG; a read-only register is left alone (R110). -/
def writeReg (r : Reg) (ch : BitVec 8) (d : Word) (s : State) : State :=
  match r with
  | .fs => setChan ch.toNat { s.chan ch.toNat with fs := d } s
  | .kind => setChan ch.toNat { s.chan ch.toNat with kind := d.extractLsb' 0 2 } s
  | .flo => setChan ch.toNat { s.chan ch.toNat with flo := d } s
  | .fhi => setChan ch.toNat { s.chan ch.toNat with fhi := d } s
  | .order => setChan ch.toNat { s.chan ch.toNat with order := d.extractLsb' 0 16 } s
  | .capcfg => setChan ch.toNat { s.chan ch.toNat with capcfg := d.extractLsb' 0 16 } s
  | .vlo => setAct ch.toNat { s.act ch.toNat with vlo := d } s
  | .vhi => setAct ch.toNat { s.act ch.toNat with vhi := d } s
  | .olo => setAct ch.toNat { s.act ch.toNat with olo := d } s
  | .ohi => setAct ch.toNat { s.act ch.toNat with ohi := d } s
  | .step => setAct ch.toNat { s.act ch.toNat with step := d } s
  | .cstat | .nst | .cap | .coef | .w | .last | .param => s

end Sys2Proof.Machine
end

