-- ==== Sys2Proof/Machine/Construct.lean ====
section
/-! DEFINITION. Construction: FINIT and WINIT (40_config_init.md R112 to R117, R120). -/

namespace Sys2Proof.Machine

/-- KIND's encoding; 3 is reserved (10_state.md R31). -/
def kindOf (k : BitVec 2) : Option FilterKind :=
  match k.toNat with
  | 0 => some .lowpass
  | 1 => some .bandpass
  | 2 => some .bandstop
  | _ => none

/-- nyq = fs /. 2.0 (R112). `q` is never answered: fs is finite and greater than zero where nyq is used. -/
def nyquist (q : Num64) (r : ChanRegs) : Num64 := Arith.div q r.fs two

/-- A cutoff is valid when f > 0.0 and f < nyq; a NaN fails (R115). -/
def cutoffValid (q : Num64) (r : ChanRegs) (f : Num64) : Bool :=
  Arith.gt f posZero && Arith.lt f (nyquist q r)

/-- The sampling rate is finite and greater than zero (R113; also 43_spectrum.md R175). -/
def rateCheck (fs : Num64) : Option Status := failIf (!(Arith.finite fs && Arith.gt fs posZero)) .invalidConfig

/-- FINIT's checks in the order R112 lists them. -/
def finitChecks (c : BitVec 8) (s : State) : List (Option Status) :=
  let r := s.chan c.toNat
  let q := Arith.drawNaN s.nanDraws
  [ portCheck s,
    sensorCheck c s,
    rateCheck r.fs,
    failIf (r.kind == 3#2) .invalidConfig,
    failIf (r.order.toNat % 2 == 1 || decide (r.order.toNat < 2)) .invalidFilterOrder,
    failIf (decide (s.params.nsmax < r.order.toNat / 2)) .outOfRange,
    failIf (!cutoffValid q r r.flo) .invalidCutoff,
    failIf (r.kind != 0#2 && !cutoffValid q r r.fhi) .invalidCutoff,
    failIf (r.kind != 0#2 && !Arith.lt r.flo r.fhi) .invalidCutoff ]

/-- DESIGN(kind, wlo, whi, n): the listed value where the instance lists one, else a free one (R116; log 4). -/
def designOf (p : Params) (kind : FilterKind) (wlo : Num64) (whi : Option Num64) (n : Nat) : List Coefs :=
  match p.design.find? (fun d => d.kind == kind && d.wlo == wlo && d.whi == whi && d.order == n) with
  | some d => d.sections
  | none => (Config.design kind wlo whi n).toList

/-- The sections FINIT asks DESIGN for: the cutoffs relative to the Nyquist frequency, the high one absent for a
lowpass (R112). -/
def sectionsFor (c : BitVec 8) (s : State) : List Coefs :=
  let r := s.chan c.toNat
  let q := Arith.drawNaN s.nanDraws
  match kindOf r.kind with
  | none => []
  | some kind =>
    designOf s.params kind (Arith.div q r.flo (nyquist q r))
      (if kind = .lowpass then none else some (Arith.div q r.fhi (nyquist q r))) r.order.toNat

/-- Stages 0 to `n`-1 take their section, zero coefficients beyond the list, and zero delay state (R112, R117). -/
def constructStages (c : BitVec 8) (secs : List Coefs) : Nat → State → State
  | 0, s => s
  | k + 1, s =>
    setStage c.toNat k ⟨secs.getD k Coefs.zero, posZero, posZero⟩ (constructStages c secs k s)

/-- FINIT's writes: every stage below NSMAX, NST and FINITED (R112). -/
def constructCascade (c : BitVec 8) (secs : List Coefs) (s : State) : State :=
  let r := s.chan c.toNat
  setChan c.toNat { r with nst := BitVec.ofNat 16 (r.order.toNat / 2), finited := true }
    (constructStages c secs s.params.nsmax s)

/-- FINIT (R112): construct or re-initialise the cascade of one channel. Where DESIGN does not return `n div 2`
sections there is no step (R116). -/
def execFinit (c : BitVec 8) (s : State) : Result :=
  match firstError (finitChecks c s) with
  | some st => .next (raise Mnemonic.finit.opcode st s)
  | none =>
    if (sectionsFor c s).length = (s.chan c.toNat).order.toNat / 2 then
      .next (respondOk .finit false [] (constructCascade c (sectionsFor c s) s))
    else .refused .designLength

/-- WINIT's checks in the order R120 lists them. -/
def winitChecks (c : BitVec 8) (s : State) : List (Option Status) :=
  let n := (s.chan c.toNat).capcfg.toNat
  [ portCheck s,
    sensorCheck c s,
    failIf (decide (n = 0)) .invalidConfig,
    failIf (decide (s.params.capmax < n)) .outOfRange ]

/-- WINIT's writes: CAP, both windows zero filled, WINITED (R120). -/
def constructWindows (c : BitVec 8) (s : State) : State :=
  let r := s.chan c.toNat
  let zeros := List.replicate r.capcfg.toNat posZero
  setChan c.toNat { r with cap := r.capcfg, winited := true }
    (memWrite c.toNat .filt 0 zeros (memWrite c.toNat .raw 0 zeros s))

/-- WINIT (R120): construct or re-construct the window pair of one channel. -/
def execWinit (c : BitVec 8) (s : State) : Result :=
  guarded .winit (winitChecks c s) s (respondOk .winit false [] (constructWindows c s))

end Sys2Proof.Machine
end

