-- ==== Sys2Proof/Machine/Filter.lean ====
section
/-! DEFINITION. The biquad stage, the cascade, and FILT and FILTB (41_filter.md R140 to R146). -/

namespace Sys2Proof.Machine

/-- BIQUAD on the registers of one stage: the output and the registers after (R140). `q j` is the NaN the j-th of
the nine operations answers where it answers one. -/
def biquadStep (q : Nat → Num64) (r : StageRegs) (x : Num64) : Num64 × StageRegs :=
  let inp :=
    Arith.sub (q 3) (Arith.sub (q 1) x (Arith.mul (q 0) r.coef.a1 r.w1)) (Arith.mul (q 2) r.coef.a2 r.w2)
  let out :=
    Arith.add (q 8) (Arith.add (q 6) (Arith.mul (q 4) r.coef.b0 inp) (Arith.mul (q 5) r.coef.b1 r.w1))
      (Arith.mul (q 7) r.coef.b2 r.w2)
  (out, { r with w1 := inp, w2 := r.w1 })

/-- BIQUAD(c, k, x) (R140): one stage, one sample; nine NaN draws are used up (log 3). -/
def biquad (c k : Nat) (x : Num64) (s : State) : Num64 × State :=
  let r := biquadStep (fun j => Arith.drawNaN (s.nanDraws + j)) (s.stage c k) x
  (r.1, { setStage c k r.2 s with nanDraws := s.nanDraws + 9 })

/-- `n` stages from stage `k` on, each stage's output the next stage's input (R141). -/
def cascadeFrom (c k : Nat) : Nat → Num64 → State → Num64 × State
  | 0, v, s => (v, s)
  | n + 1, v, s => cascadeFrom c (k + 1) n (biquad c k v s).1 (biquad c k v s).2

/-- CASCADE(c, x) (R141): the NST[c] stages in order. -/
def cascade (c : BitVec 8) (x : Num64) (s : State) : Num64 × State :=
  cascadeFrom c.toNat 0 (s.chan c.toNat).nst.toNat x s

/-- CASCADE on each sample in input order, the delay state carried over (R144). -/
def cascadeBatch (c : BitVec 8) : List Num64 → State → List Num64 × State
  | [], s => ([], s)
  | x :: xs, s =>
    ((cascade c x s).1 :: (cascadeBatch c xs (cascade c x s).2).1, (cascadeBatch c xs (cascade c x s).2).2)

/-- The optional guard: no sample is processed where one is not finite (R142). -/
def sampleCheck (xs : List Num64) (s : State) : Option Status :=
  failIf (s.params.guardNonfinite && xs.any (fun x => !Arith.finite x)) .nonFiniteSample

/-- FILT (R143). -/
def execFilt (c : BitVec 8) (x : Word) (s : State) : Result :=
  guarded .filt [portCheck s, sensorCheck c s, finitedCheck c s, sampleCheck [x] s] s
    (respondOk .filt false [(cascade c x s).1] (cascade c x s).2)

/-- FILTB (R144): the whole batch is tested before the first sample is processed. -/
def execFiltb (c : BitVec 8) (xs : List Word) (s : State) : Result :=
  guarded .filtb [portCheck s, sensorCheck c s, finitedCheck c s, sampleCheck xs s] s
    (respondOk .filtb false (cascadeBatch c xs s).1 (cascadeBatch c xs s).2)

end Sys2Proof.Machine
end

