-- ==== Sys2Proof/Machine/Window.lean ====
section
/-! DEFINITION. The sample windows: PUSH and SNAP (42_window.md R160 to R163). -/

namespace Sys2Proof.Machine

/-- CAP[c] as a number. -/
def State.cap (s : State) (c : BitVec 8) : Nat := (s.chan c.toNat).cap.toNat

/-- The whole window, oldest first (R44, R163). -/
def windowOf (c : BitVec 8) (w : WinSel) (s : State) : List Num64 := memRead c.toNat w 0 (s.cap c) s

/-- WPUSH(c, w, v) (R160): the window without its oldest element, followed by `v`. -/
def wpush (c : BitVec 8) (w : WinSel) (v : Num64) (s : State) : State :=
  memWrite c.toNat w 0 ((windowOf c w s).tail ++ [v]) s

/-- Both windows of the channel take their sample together (R161). -/
def pushPair (c : BitVec 8) (xr xf : Num64) (s : State) : State := wpush c .filt xf (wpush c .raw xr s)

/-- PUSH (R161): any Num is stored, whatever the guard; the cascade is not needed. -/
def execPush (c : BitVec 8) (xr xf : Word) (s : State) : Result :=
  guarded .push [portCheck s, sensorCheck c s, winitedCheck c s] s (respondOk .push false [] (pushPair c xr xf s))

/-- SNAP (R163): allowed on both ports, writes nothing. -/
def execSnap (c : BitVec 8) (w : WinSel) (s : State) : Result :=
  guarded .snap [sensorCheck c s, winitedCheck c s] s (respondOk .snap false (windowOf c w s) s)

end Sys2Proof.Machine
end

