-- ==== Sys2Proof/Machine/HotPath.lean ====
section
/-! DEFINITION. The hot path: TICK and DRIVE (45_hot_path.md R210 to R215). -/

namespace Sys2Proof.Machine

/-- A present sample: filtered, pushed with its output where the channel has windows, both returned (R210, R211). -/
def ingest (c : BitVec 8) (x : Num64) (s : State) : State :=
  let y := cascade c x s
  respondOk .tick true [x, y.1] (if (s.chan c.toNat).winited then pushPair c x y.1 y.2 else y.2)

/-- TICK (R210): existence is tested before the Board is read; an absent sample advances nothing (R211); the guard
comes after the read, so a refused sample is lost (R212, R226). -/
def execTick (c : BitVec 8) (s : State) : Result :=
  match firstError [portCheck s, sensorCheck c s, finitedCheck c s] with
  | some st => .next (raise Mnemonic.tick.opcode st s)
  | none =>
    match (boardRead c s).1 with
    | none => .next (respondOk .tick false [] (boardRead c s).2)
    | some x => guarded .tick [sampleCheck [x] (boardRead c s).2] (boardRead c s).2 (ingest c x (boardRead c s).2)

/-- The value DRIVE sends: mapped, then limited against LAST (R214). -/
def driveValue (a : BitVec 8) (v : Num64) (s : State) : Num64 := limited a (mapped a v s) (drawMap s)

/-- DRIVE (R214): every check comes before the Board is written; not clamped. -/
def execDrive (a : BitVec 8) (v : Word) (s : State) : Result :=
  guarded .drive [portCheck s, actuatorCheck a s, stepCheck (s.act a.toNat), rangeCheck (s.act a.toNat)] s
    (respondOk .drive (writeActuator a (driveValue a v s) (drawMap s)).1 [driveValue a v s]
      (writeActuator a (driveValue a v s) (drawMap s)).2)

end Sys2Proof.Machine
end

