-- ==== Sys2Proof/Machine/Registers.lean ====
section
/-! DEFINITION. Register access: WRREG and RDREG (40_config_init.md R110, R111). -/

namespace Sys2Proof.Machine

/-- WRREG's checks in the order R110 lists them, after the port. -/
def wrregChecks (ch reg idx : BitVec 8) (d : Word) (s : State) : List (Option Status) :=
  match Reg.ofNumber reg with
  | none => [some .outOfRange]
  | some r => [failIf r.readOnly .illegalCommand, r.channelCheck ch s, failIf (idx != 0#8) .outOfRange, r.widthCheck d]

/-- WRREG's write (R110). -/
def writeNumber (ch reg : BitVec 8) (d : Word) (s : State) : State :=
  match Reg.ofNumber reg with
  | none => s
  | some r => writeReg r ch d s

/-- WRREG (R110): a staging register is written, no active state changes. -/
def execWrreg (ch reg idx : BitVec 8) (d : Word) (s : State) : Result :=
  guarded .wrreg (portCheck s :: wrregChecks ch reg idx d s) s (respondOk .wrreg false [] (writeNumber ch reg d s))

/-- RDREG's checks in the order R111 lists them. -/
def rdregChecks (ch reg idx : BitVec 8) (s : State) : List (Option Status) :=
  match Reg.ofNumber reg with
  | none => [some .outOfRange]
  | some r => [r.channelCheck ch s, r.indexCheck idx s]

/-- The value of a register number (R111). -/
def readNumber (ch reg idx : BitVec 8) (s : State) : Word :=
  match Reg.ofNumber reg with
  | none => 0#64
  | some r => readReg r ch idx s

/-- RDREG (R111): allowed on both ports, no side effect. -/
def execRdreg (ch reg idx : BitVec 8) (s : State) : Result :=
  guarded .rdreg (rdregChecks ch reg idx s) s (respondOk .rdreg false [readNumber ch reg idx s] s)

end Sys2Proof.Machine
end

