-- ==== Sys2Proof/Machine/Spectrum.lean ====
section
/-! DEFINITION. The spectral analyzer: ANALYZE (43_spectrum.md R175 to R184). -/

namespace Sys2Proof.Machine

/-- The bins returned are 1 to K = (n - 1) div 2 (R176). -/
def binCount (n : Nat) : Nat := (n - 1) / 2

/-- f_k = (numi(k) *. fs) /. numi(n) (R177). `q` is never answered: fs is finite and the divisor is not zero. -/
def binFreq (q fs : Num64) (n k : Nat) : Num64 := Arith.div q (Arith.mul q (Arith.numi k) fs) (Arith.numi n)

/-- The number of a magnitude code of Config.dftMagnitude. -/
def magnitudeOfCode (code : Nat) : Num64 :=
  if code ≤ Arith.infMag then Arith.pack false code else negZero

/-- DFTMAG(x, k) (R180): exactly zero on an all-zero window (DFT-ZERO), not negative and not NaN on a finite one
(DFT-NONNEG), and the `d`-th free magnitude where some sample is not finite (R184; logs 5, 6). -/
def dftMag (x : List Num64) (k d : Nat) : Num64 :=
  if !x.all Arith.finite then Config.freeMagnitude d
  else if x.all Arith.isZero then posZero
  else magnitudeOfCode (Config.dftMagnitude x k).val

/-- The points of `r` bins from bin `k` on: f_k, m_k, f_(k+1), m_(k+1), .. (R175). -/
def spectrumFrom (q fs : Num64) (x : List Num64) (d k : Nat) : Nat → List Word
  | 0 => []
  | r + 1 => binFreq q fs x.length k :: dftMag x k d :: spectrumFrom q fs x (d + 1) (k + 1) r

/-- The response words of ANALYZE, in increasing k (R175, R177). -/
def spectrum (c : BitVec 8) (w : WinSel) (s : State) : List Word :=
  spectrumFrom (Arith.drawNaN s.nanDraws) (s.chan c.toNat).fs (windowOf c w s) s.magDraws 1 (binCount (s.cap c))

/-- ANALYZE (R175): allowed on both ports; FS is read live; nothing is written but the model's own count of free
magnitudes (log 6). -/
def execAnalyze (c : BitVec 8) (w : WinSel) (s : State) : Result :=
  guarded .analyze [sensorCheck c s, winitedCheck c s, rateCheck (s.chan c.toNat).fs] s
    (respondOk .analyze false (spectrum c w s) { s with magDraws := s.magDraws + binCount (s.cap c) })

end Sys2Proof.Machine
end

