-- ==== Sys2Proof/Machine/Dispatch.lean ====
section
/-! DEFINITION. From a command to its meaning, one arm per row of the opcode map (30_encoding.md R82). -/

namespace Sys2Proof.Machine

/-- The effect of a decoded command, executed by the agent of the port `s.active`. -/
def exec (i : Instr) (s : State) : Host.Outcome State Fault Refusal :=
  match i with
  | .wrreg ch reg idx value => Sys2Proof.Machine.execWrreg ch reg idx value s
  | .rdreg ch reg idx => Sys2Proof.Machine.execRdreg ch reg idx s
  | .finit ch => Sys2Proof.Machine.execFinit ch s
  | .winit ch => Sys2Proof.Machine.execWinit ch s
  | .filt ch x => Sys2Proof.Machine.execFilt ch x s
  | .filtb ch xs => Sys2Proof.Machine.execFiltb ch xs s
  | .push ch xr xf => Sys2Proof.Machine.execPush ch xr xf s
  | .snap ch win => Sys2Proof.Machine.execSnap ch win s
  | .analyze ch win => Sys2Proof.Machine.execAnalyze ch win s
  | .map ch v => Sys2Proof.Machine.execMap ch v s
  | .rlim ch v => Sys2Proof.Machine.execRlim ch v s
  | .actwr ch v => Sys2Proof.Machine.execActwr ch v s
  | .drive ch v => Sys2Proof.Machine.execDrive ch v s
  | .tick ch => Sys2Proof.Machine.execTick ch s

end Sys2Proof.Machine
end

