-- ==== Sys2Proof/Machine/Step.lean ====
section
/-! DEFINITION. One step of the machine: the next move of the environment (log 9).

Rules: 10_state.md R20, R24; 20_memory.md R66, R68; 60_exceptions.md R232; 70_reset_and_hazards.md R250. -/

namespace Sys2Proof.Machine

/-- The agent of a port takes its oldest command: a frame that is no command is rejected first (R232 (1)), any other
is executed. An agent whose port is empty does nothing. -/
def serve (p : Port) (s : State) : Host.Outcome State Fault Refusal :=
  match dequeue p s with
  | none => .next s
  | some (f, s') =>
    match decode f with
    | none => .next (rejectFrame f s')
    | some i => exec i s'

/-- What one move of the environment does. -/
def runEvent (e : Event) (s : State) : Host.Outcome State Fault Refusal :=
  match e with
  | .deliver p f => .next (enqueue p f s)
  | .serve p => serve p s
  | .reset => .next (resetMachine s)

/-- One step. Where the environment makes no move the hardware is idle and its state survives (R240). -/
def step (s : State) : Host.Outcome State Fault Refusal :=
  match s.events with
  | [] => .next s
  | e :: es => runEvent e { s with events := es }

/-- `s` with the frame of these bits first in the queue of port S and agent S next to move, so that the next step
runs exactly it (log 10). -/
def State.withFetchWord (s : State) (nbits w : Nat) : State :=
  { s with portS := tableFrame nbits w :: s.portS, events := .serve .s :: s.events }

end Sys2Proof.Machine
end

