-- ==== Sys2Proof/Safety.lean ====
section
/-! DEFINITION. The terms claims use: runs of commands, the invariant of the state, well-formed responses, what the
rounded result of an exact value is, and the named properties the spec lets a claim assume of DESIGN and DFTMAG.

Rules: 00_scope.md R10; 10_state.md R22, R36 to R38, R44; 30_encoding.md R90, R91; 40_config_init.md R116, R118;
41_filter.md R146; 43_spectrum.md R178, R180. -/

namespace Sys2Proof.Machine

/-- Commands executed one after the other by the agent of the port `s.active`. -/
def execAll : List Instr → State → Result
  | [], s => .next s
  | i :: is, s =>
    match exec i s with
    | .next t => execAll is t
    | .fault r => .fault r
    | .refused r => .refused r

/-- CH of a command, as the number of the channel it names. -/
def channelOf : Instr → Nat
  | .wrreg ch _ _ _ => ch.toNat
  | .rdreg ch _ _ => ch.toNat
  | .finit ch => ch.toNat
  | .winit ch => ch.toNat
  | .filt ch _ => ch.toNat
  | .filtb ch _ => ch.toNat
  | .push ch _ _ => ch.toNat
  | .snap ch _ => ch.toNat
  | .analyze ch _ => ch.toNat
  | .map ch _ => ch.toNat
  | .rlim ch _ => ch.toNat
  | .actwr ch _ => ch.toNat
  | .drive ch _ => ch.toNat
  | .tick ch => ch.toNat

/-- What CH of a command names: a sensor channel, an actuator channel, or, for PARAM and a reserved register number,
neither (R22, R80). -/
def commandClass : Instr → RegClass
  | .wrreg _ reg _ _ | .rdreg _ reg _ =>
    match Reg.ofNumber reg with
    | some r => r.cls
    | none => .global
  | .finit _ | .winit _ | .filt _ _ | .filtb _ _ | .push _ _ _ | .snap _ _ | .analyze _ _ | .tick _ => .sensor
  | .map _ _ | .rlim _ _ | .actwr _ _ | .drive _ _ => .actuator

/-- The only commands port D accepts (R236). -/
def readClass : Instr → Bool
  | .rdreg _ _ _ | .snap _ _ | .analyze _ _ => true
  | .wrreg _ _ _ _ | .finit _ | .winit _ | .filt _ _ | .filtb _ _ | .push _ _ _ | .map _ _ | .rlim _ _
  | .actwr _ _ | .drive _ _ | .tick _ => false

/-- The statuses the table of 60_exceptions.md section 1 gives a command once its frame is legal, and OK. -/
def mayAnswer : Instr → List Status
  | .wrreg _ _ _ _ => [.ok, .outOfRange, .illegalCommand]
  | .rdreg _ _ _ => [.ok, .outOfRange]
  | .finit _ => [.ok, .invalidFilterOrder, .invalidCutoff, .invalidConfig, .outOfRange, .illegalCommand]
  | .winit _ => [.ok, .invalidConfig, .outOfRange, .illegalCommand]
  | .filt _ _ | .filtb _ _ | .tick _ => [.ok, .nonFiniteSample, .notInitialised, .outOfRange, .illegalCommand]
  | .push _ _ _ => [.ok, .notInitialised, .outOfRange, .illegalCommand]
  | .snap _ _ => [.ok, .notInitialised, .outOfRange]
  | .analyze _ _ => [.ok, .invalidConfig, .notInitialised, .outOfRange]
  | .map _ _ => [.ok, .degenerateRange, .outOfRange, .illegalCommand]
  | .rlim _ _ => [.ok, .invalidConfig, .outOfRange, .illegalCommand]
  | .actwr _ _ => [.ok, .outOfRange, .illegalCommand]
  | .drive _ _ => [.ok, .degenerateRange, .invalidConfig, .outOfRange, .illegalCommand]

/-- What holds of the state between two steps: legal parameters, canonical register files and memory, and the bounds
of R36 to R38 on every channel, constructed or not. -/
structure State.Inv (s : State) : Prop where
  params : s.params.Legal
  chans : Sparse.wf ChanRegs.reset s.chans
  stages : Sparse.wf StageRegs.reset s.stages
  acts : Sparse.wf ActRegs.reset s.acts
  mem : Memory.wf s.mem
  nst_le : ∀ c, (s.chan c).nst.toNat ≤ s.params.nsmax
  cap_le : ∀ c, (s.chan c).cap.toNat ≤ s.params.capmax
  finited_iff : ∀ c, (s.chan c).finited = true ↔ 1 ≤ (s.chan c).nst.toNat
  winited_iff : ∀ c, (s.chan c).winited = true ↔ 1 ≤ (s.chan c).cap.toNat
  absent_chan : ∀ c, s.params.nch ≤ c → s.chan c = ChanRegs.reset
  absent_act : ∀ a, s.params.nact ≤ a → s.act a = ActRegs.reset
  absent_stage : ∀ c k, k < 65536 → (s.params.nch ≤ c ∨ s.params.nsmax ≤ k) → s.stage c k = StageRegs.reset
  absent_win : ∀ c w i, i < 65536 → (s.params.nch ≤ c ∨ s.params.capmax ≤ i) → s.win c w i = posZero

/-- R90 and R91 of one response: bits 22:20 zero, a status of the table, CNT the number of data words, and no flag
and no data where the status is not OK. -/
def Response.WellFormed (r : Response) : Prop :=
  r.header.extractLsb' 20 3 = 0#3 ∧ (statusField r.header).toNat ≤ 8 ∧
  (cntField r.header).toNat = r.data.length ∧
  (statusField r.header ≠ 0#4 → flagField r.header = false ∧ r.data = [])

/-- A state from which the machine goes on (R234). -/
def Safe (s : State) : Prop := ∃ t, step s = .next t

/-- DESIGN-LEN of the listed values of DESIGN (R116); the free ones have it by their type. -/
def DesignLen (p : Params) : Prop := ∀ d ∈ p.design, d.sections.length = d.order / 2

/-- The exact value of a finite number. -/
def exactValue (a : Num64) : ℚ := (Arith.value a : ℚ) / 2 ^ 1074

/-- `r` is `e` units of 2^-1074 rounded once, with sign `sgn` where the result could be a zero of either sign: below
the overflow threshold no finite number is nearer to `e`, and where another is as near `r` has an even significand;
from the threshold on, half a step above the largest finite number, `r` is an infinity (R10, R146; log 2). -/
structure Rounded (e : ℚ) (sgn : Bool) (r : Num64) : Prop where
  sign : Arith.signBit r = sgn
  finite : |e| < (2 ^ 54 - 1) * 2 ^ 2044 → Arith.finite r = true
  nearest : |e| < (2 ^ 54 - 1) * 2 ^ 2044 → ∀ y : Num64, Arith.finite y = true →
    |(Arith.value r : ℚ) - e| ≤ |(Arith.value y : ℚ) - e| ∧
    (|(Arith.value r : ℚ) - e| = |(Arith.value y : ℚ) - e| → Arith.value y ≠ Arith.value r →
      Arith.magBits r % 2 = 0)
  overflow : (2 ^ 54 - 1) * 2 ^ 2044 ≤ |e| → Arith.isInf r = true

/-- The arguments R116 gives DESIGN in an instance, without the corners in which the words of R118 (a pass band that
excludes DC, a stop band away from DC) do not apply: a quotient that underflowed to +0.0, and two cutoffs that became
one (log 4). -/
def DesignDomain (p : Params) (kind : FilterKind) (wlo : Num64) (whi : Option Num64) (n : Nat) : Prop :=
  Arith.gt wlo posZero = true ∧ Arith.le wlo one = true ∧
  (match whi with
    | none => kind = .lowpass
    | some w => kind ≠ .lowpass ∧ Arith.lt wlo w = true ∧ Arith.le w one = true) ∧
  n % 2 = 0 ∧ 2 ≤ n ∧ n ≤ 2 * p.nsmax

/-- The DC gain of a list of sections: the product of (b0 + b1 + b2) / (1 + a1 + a2) (R118). -/
def dcGain (secs : List Coefs) : ℚ :=
  (secs.map fun c =>
    (exactValue c.b0 + exactValue c.b1 + exactValue c.b2) / (1 + exactValue c.a1 + exactValue c.a2)).prod

/-- The gain at DC the document expects of a filter kind: 1 for a lowpass and a bandstop, 0 for a bandpass (R118). -/
def dcTarget : FilterKind → ℚ
  | .lowpass | .bandstop => 1
  | .bandpass => 0

/-- DESIGN-DC (R118) of what DESIGN returns, usable by name: on its domain every section has a DC gain, and the gain of
the cascade is within `tol` of the kind's. The tolerance is this model's: the spec says only "approaches" (log 4). -/
def DesignDc (p : Params) (tol : ℚ) : Prop :=
  ∀ kind wlo whi n, DesignDomain p kind wlo whi n →
    (∀ c ∈ designOf p kind wlo whi n,
      Arith.finite c.b0 = true ∧ Arith.finite c.b1 = true ∧ Arith.finite c.b2 = true ∧
      Arith.finite c.a1 = true ∧ Arith.finite c.a2 = true ∧ 1 + exactValue c.a1 + exactValue c.a2 ≠ 0) ∧
    |dcGain (designOf p kind wlo whi n) - dcTarget kind| ≤ tol

/-- The sections of the active cascade of a channel, in order (R43). -/
def State.sections (s : State) (c : BitVec 8) : List Coefs :=
  (List.range (s.chan c.toNat).nst.toNat).map fun k => (s.stage c.toNat k).coef

/-- A constant input equal to 1.0, sustained from this state on, settles within `tol` of the cascade's DC gain: from
some sample on every output is finite and that near (R118; the tolerance is the model's, log 4). -/
def SettlesAtDcGain (c : BitVec 8) (tol : ℚ) (s : State) : Prop :=
  ∃ m, ∀ n, m ≤ n → ∃ y, (cascadeBatch c (List.replicate (n + 1) one) s).1.getLast? = some y ∧
    Arith.finite y = true ∧ |exactValue y - dcGain (s.sections c)| ≤ tol

/-- The convergence of DESIGN-DC (R118), usable by name: every cascade an OK FINIT constructs settles at its DC gain.
"The convergence needs a stable filter, which is a property of DESIGN's output and not of the hardware." -/
def DesignSettles (p : Params) (tol : ℚ) : Prop :=
  ∀ (c : BitVec 8) (s t : State), s.params = p → exec (.finit c) s = .next t →
    t.responses = s.responses ++ [⟨.s, 0x10000000#32, []⟩] → SettlesAtDcGain c tol t

/-- `m` is MAGX(x, k) of R178: the magnitude of bin `k` of the unnormalised transform, in exact real arithmetic. -/
def IsMagx (x : List Num64) (k : Nat) (m : ℝ) : Prop :=
  let u : Nat → ℝ := fun j => (Arith.value (x.getD j posZero) : ℝ) / 2 ^ 1074
  let re := ∑ j ∈ Finset.range x.length, u j * Real.cos (2 * Real.pi * k * j / x.length)
  let im := -∑ j ∈ Finset.range x.length, u j * Real.sin (2 * Real.pi * k * j / x.length)
  m = Real.sqrt (re ^ 2 + im ^ 2)

/-- DFT-TOL (R180), usable by name, with the open tolerance DFT_TOL as its argument (log 5). -/
def DftTol (tol : ℝ) : Prop :=
  0 ≤ tol ∧
  ∀ (x : List Num64) (k d : Nat) (m : ℝ), 1 ≤ k → k ≤ binCount x.length → x.all Arith.finite = true →
    Config.dftOverflows x k = false → IsMagx x k m →
    Arith.finite (dftMag x k d) = true ∧
    |(Arith.value (dftMag x k d) : ℝ) / 2 ^ 1074 - m| ≤
      tol * max 1 (∑ j ∈ Finset.range x.length, |(Arith.value (x.getD j posZero) : ℝ) / 2 ^ 1074|)

end Sys2Proof.Machine
end

