-- ==== Sys2Proof/Certificates/Slice0/Obligations.lean ====
section
/-! DEFINITION. The statements for the provers. Each docstring names the rule it formalises; a free value (a NaN draw,
a free magnitude, a Board answer) is never given a value here. -/

open Sys2Proof Sys2Proof.Machine

/-! ## Encoding -/

/-- The header table and the worked encodings of 30_encoding.md section 6. The worked frames, written out from format H,
are what `encode` builds of their commands and what `decode` reads as them; the two worked response headers are those of
R90; every row of the table is the frame `encode` builds, for every operand; a register's name stands for the number that
reads as that register, and `{s, k}` splits into the stage and the element (R95; R80, R81, R83, R90). -/
def Obligations.WorkedEncodingsDecode : Prop :=
  (decode ⟨0x20000000#32, [0x3FF0000000000000#64]⟩ = some (.filt 0#8 one) ∧
    decode ⟨0x01020400#32, [0x0000000000000004#64]⟩ = some (.wrreg 2#8 0x04#8 0#8 4#64) ∧
    decode ⟨0x0201101C#32, []⟩ = some (.rdreg 1#8 0x10#8 0x1C#8) ∧
    decode ⟨0x38000001#32, []⟩ = some (.analyze 0#8 .filt) ∧
    decode ⟨0x21000002#32, [0x3FF0000000000000#64, 0x3FE0000000000000#64]⟩ =
      some (.filtb 0#8 [0x3FF0000000000000#64, 0x3FE0000000000000#64])) ∧
  (encode (.filt 0#8 one) = ⟨0x20000000#32, [0x3FF0000000000000#64]⟩ ∧
    encode (.wrreg 2#8 Reg.order.number 0#8 4#64) = ⟨0x01020400#32, [0x0000000000000004#64]⟩ ∧
    encode (.rdreg 1#8 Reg.coef.number (stageIdx 3#5 4#3)) = ⟨0x0201101C#32, []⟩ ∧
    encode (.analyze 0#8 .filt) = ⟨0x38000001#32, []⟩ ∧
    encode (.filtb 0#8 [0x3FF0000000000000#64, 0x3FE0000000000000#64]) =
      ⟨0x21000002#32, [0x3FF0000000000000#64, 0x3FE0000000000000#64]⟩) ∧
  (responseHeader Mnemonic.filtb.opcode false .ok 2 = 0x21000002#32 ∧
    responseHeader Mnemonic.finit.opcode false .invalidCutoff 0 = 0x10020000#32) ∧
  (∀ (c reg idx : BitVec 8) (d x y : Word) (xs : List Word),
    encode (.wrreg c reg idx d) = ⟨0x01#8 ++ c ++ (reg ++ idx), [d]⟩ ∧
    encode (.rdreg c reg idx) = ⟨0x02#8 ++ c ++ (reg ++ idx), []⟩ ∧
    encode (.finit c) = ⟨0x10#8 ++ c ++ 0x0000#16, []⟩ ∧
    encode (.winit c) = ⟨0x11#8 ++ c ++ 0x0000#16, []⟩ ∧
    encode (.filt c x) = ⟨0x20#8 ++ c ++ 0x0000#16, [x]⟩ ∧
    encode (.filtb c xs) = ⟨0x21#8 ++ c ++ BitVec.ofNat 16 xs.length, xs⟩ ∧
    encode (.push c x y) = ⟨0x30#8 ++ c ++ 0x0000#16, [x, y]⟩ ∧
    encode (.snap c .raw) = ⟨0x31#8 ++ c ++ 0x0000#16, []⟩ ∧
    encode (.snap c .filt) = ⟨0x31#8 ++ c ++ 0x0001#16, []⟩ ∧
    encode (.analyze c .raw) = ⟨0x38#8 ++ c ++ 0x0000#16, []⟩ ∧
    encode (.analyze c .filt) = ⟨0x38#8 ++ c ++ 0x0001#16, []⟩ ∧
    encode (.map c x) = ⟨0x40#8 ++ c ++ 0x0000#16, [x]⟩ ∧
    encode (.rlim c x) = ⟨0x41#8 ++ c ++ 0x0000#16, [x]⟩ ∧
    encode (.actwr c x) = ⟨0x42#8 ++ c ++ 0x0000#16, [x]⟩ ∧
    encode (.drive c x) = ⟨0x43#8 ++ c ++ 0x0000#16, [x]⟩ ∧
    encode (.tick c) = ⟨0x50#8 ++ c ++ 0x0000#16, []⟩) ∧
  (∀ r : Reg, Reg.ofNumber r.number = some r) ∧
  (∀ (s : BitVec 5) (k : BitVec 3), idxStage (stageIdx s k) = s.toNat ∧ idxElem (stageIdx s k) = k.toNat)

/-- No bit of an encoding is dropped: decoding the frame of a well-formed command gives it back (R80 to R83). -/
def Obligations.DecodeAfterEncode : Prop :=
  ∀ i : Instr, i.wellFormed = true → decode (encode i) = some i

/-- Each command has one frame: what decodes to a command is that command's encoding, and the command is well formed. -/
def Obligations.EncodeAfterDecode : Prop :=
  ∀ (f : Frame) (i : Instr), decode f = some i → encode i = f ∧ i.wellFormed = true

/-- The decoder selects a row exactly where the header matches the row's match under its mask, the numbers being those
of the table, and a header that matches no row is no command whatever its data words (R84). -/
def Obligations.RowsAreTheMatchMaskTable : Prop :=
  ∀ h : BitVec 32,
    (selectRow h = some .wrreg ↔ h &&& 0xFF000000#32 = 0x01000000#32) ∧
    (selectRow h = some .rdreg ↔ h &&& 0xFF000000#32 = 0x02000000#32) ∧
    (selectRow h = some .finit ↔ h &&& 0xFF00FFFF#32 = 0x10000000#32) ∧
    (selectRow h = some .winit ↔ h &&& 0xFF00FFFF#32 = 0x11000000#32) ∧
    (selectRow h = some .filt ↔ h &&& 0xFF00FFFF#32 = 0x20000000#32) ∧
    (selectRow h = some .filtb ↔ h &&& 0xFF000000#32 = 0x21000000#32) ∧
    (selectRow h = some .push ↔ h &&& 0xFF00FFFF#32 = 0x30000000#32) ∧
    (selectRow h = some .snap ↔ h &&& 0xFF00FFFE#32 = 0x31000000#32) ∧
    (selectRow h = some .analyze ↔ h &&& 0xFF00FFFE#32 = 0x38000000#32) ∧
    (selectRow h = some .map ↔ h &&& 0xFF00FFFF#32 = 0x40000000#32) ∧
    (selectRow h = some .rlim ↔ h &&& 0xFF00FFFF#32 = 0x41000000#32) ∧
    (selectRow h = some .actwr ↔ h &&& 0xFF00FFFF#32 = 0x42000000#32) ∧
    (selectRow h = some .drive ↔ h &&& 0xFF00FFFF#32 = 0x43000000#32) ∧
    (selectRow h = some .tick ↔ h &&& 0xFF00FFFF#32 = 0x50000000#32) ∧
    (selectRow h = none → ∀ ds : List Word, decode ⟨h, ds⟩ = none)

/-- A frame is no command exactly where its header matches no row or its number of data words differs from the number
the row requires (R82; R86 (a), (b), (c)). -/
def Obligations.IllegalFramesExactly : Prop :=
  ∀ f : Frame, decode f = none ↔
    ((∀ m : Mnemonic, f.header &&& m.mask ≠ m.pattern) ∨
      ∃ m : Mnemonic, f.header &&& m.mask = m.pattern ∧ f.data.length ≠ m.dataWords (argField f.header))

/-! ## Steps and ports -/

/-- A step in which the agent of port `p` is served runs the oldest decoded command of that port, taken off its queue,
with `p` as the executing port (R24, R66). -/
def Obligations.StepRunsDecodedCommand : Prop :=
  ∀ (s : State) (p : Port) (es : List Event) (f : Frame) (fs : List Frame) (i : Instr),
    s.events = .serve p :: es → s.pending p = f :: fs → decode f = some i →
      step s = exec i { setPending p fs { s with events := es } with active := p }

/-- A frame that is no command answers IllegalCommand with its OP byte echoed, on the port it came from, and nothing
but the queue changes (R86, R90). -/
def Obligations.IllegalFrameIsRejected : Prop :=
  ∀ (s : State) (p : Port) (es : List Event) (f : Frame) (fs : List Frame),
    s.events = .serve p :: es → s.pending p = f :: fs → decode f = none →
      ∃ t, step s = .next t ∧
        t = { setPending p fs { s with events := es } with
              active := p,
              responses := s.responses ++
                [⟨p, opField f.header ++ 0#4 ++ 8#4 ++ 0#16, []⟩] }

/-- The other moves: a frame delivered joins the back of its port's queue, an agent with no command does nothing, and
without a move of the environment the hardware is idle (R66, R240; log 9). -/
def Obligations.DeliveryAndIdling : Prop :=
  (∀ (s : State) (p : Port) (f : Frame) (es : List Event), s.events = .deliver p f :: es →
    step s = .next (setPending p (s.pending p ++ [f]) { s with events := es })) ∧
  (∀ (s : State) (p : Port) (es : List Event), s.events = .serve p :: es → s.pending p = [] →
    step s = .next { s with events := es }) ∧
  (∀ s : State, s.events = [] → step s = .next s)

/-- Reset puts every element at the value of R251, whatever the state before, empties both ports, and makes no
response and no Board call (R250, R251). -/
def Obligations.ResetRestoresEveryElement : Prop :=
  ∀ (s : State) (es : List Event), s.events = .reset :: es →
    ∃ t, step s = .next t ∧
      (∀ c, (t.chan c).fs = posZero ∧ (t.chan c).flo = posZero ∧ (t.chan c).fhi = posZero ∧ (t.chan c).kind = 0#2 ∧
        (t.chan c).order = 0#16 ∧ (t.chan c).capcfg = 0#16 ∧ (t.chan c).finited = false ∧
        (t.chan c).winited = false ∧ (t.chan c).nst = 0#16 ∧ (t.chan c).cap = 0#16) ∧
      (∀ c k, (t.stage c k).coef = ⟨posZero, posZero, posZero, posZero, posZero⟩ ∧
        coefElem (t.stage c k).coef 3 = one ∧ (t.stage c k).w1 = posZero ∧ (t.stage c k).w2 = posZero) ∧
      (∀ c w i, t.win c w i = posZero) ∧
      (∀ a, (t.act a).vlo = posZero ∧ (t.act a).vhi = posZero ∧ (t.act a).olo = posZero ∧ (t.act a).ohi = posZero ∧
        (t.act a).step = posInf ∧ (t.act a).last = posZero) ∧
      t.params = s.params ∧ t.portS = [] ∧ t.portD = [] ∧ t.responses = s.responses ∧
      t.boardReads = s.boardReads ∧ t.boardWrites = s.boardWrites

/-- What an instance of any legal size answers right after reset, on port S, as R253 derives it; the answers of RLIM
and of the errors leave nothing changed but the response. -/
def Obligations.AfterResetAnswers : Prop :=
  ∀ (p : Params) (c : BitVec 8) (x y : Word) (xs : List Word) (w : WinSel), c.toNat < p.nch → c.toNat < p.nact →
    exec (.filt c x) (State.resetOf p) = .next (raise 0x20#8 .notInitialised (State.resetOf p)) ∧
    exec (.filtb c xs) (State.resetOf p) = .next (raise 0x21#8 .notInitialised (State.resetOf p)) ∧
    exec (.tick c) (State.resetOf p) = .next (raise 0x50#8 .notInitialised (State.resetOf p)) ∧
    exec (.push c x y) (State.resetOf p) = .next (raise 0x30#8 .notInitialised (State.resetOf p)) ∧
    exec (.snap c w) (State.resetOf p) = .next (raise 0x31#8 .notInitialised (State.resetOf p)) ∧
    exec (.analyze c w) (State.resetOf p) = .next (raise 0x38#8 .notInitialised (State.resetOf p)) ∧
    exec (.map c x) (State.resetOf p) = .next (raise 0x40#8 .degenerateRange (State.resetOf p)) ∧
    exec (.drive c x) (State.resetOf p) = .next (raise 0x43#8 .degenerateRange (State.resetOf p)) ∧
    exec (.finit c) (State.resetOf p) = .next (raise 0x10#8 .invalidConfig (State.resetOf p)) ∧
    exec (.winit c) (State.resetOf p) = .next (raise 0x11#8 .invalidConfig (State.resetOf p)) ∧
    exec (.rlim c x) (State.resetOf p) = .next (respondOk .rlim false [x] (State.resetOf p))

/-! ## Register access and construction -/

/-- WRREG of a staging register with a value that fits it: the register reads back the value, every other register and
everything else is as before, and the answer is OK with no data (R110). -/
def Obligations.WrregWritesOneStagingRegister : Prop :=
  ∀ (ch reg : BitVec 8) (d : Word) (r : Reg) (s : State),
    s.active = .s → Reg.ofNumber reg = some r → r.readOnly = false →
    (r.cls = .sensor → ch.toNat < s.params.nch) → (r.cls = .actuator → ch.toNat < s.params.nact) →
    (r = .kind → d.toNat < 4) → (r = .order ∨ r = .capcfg → d.toNat < 65536) →
      ∃ t, exec (.wrreg ch reg 0#8 d) s = .next t ∧
        t = { s with chans := t.chans, acts := t.acts, responses := t.responses } ∧
        t.responses = s.responses ++ [⟨.s, 0x01000000#32, []⟩] ∧
        readReg r ch 0#8 t = d ∧
        ∀ (r' : Reg) (ch' idx' : BitVec 8), r' ≠ r ∨ ch' ≠ ch → readReg r' ch' idx' t = readReg r' ch' idx' s

/-- RDREG of every register number: the value answered, and nothing else changes (R111; R36, R41, R42). -/
def Obligations.RdregReturnsTheRegister : Prop :=
  ∀ (ch : BitVec 8) (s : State),
    let ok := fun v : Word => Host.Outcome.next (φ := Fault) (ρ := Refusal)
      { s with responses := s.responses ++ [⟨s.active, 0x02000001#32, [v]⟩] }
    (ch.toNat < s.params.nch →
      exec (.rdreg ch 0x00#8 0#8) s = ok (s.chan ch.toNat).fs ∧
      exec (.rdreg ch 0x01#8 0#8) s = ok ((s.chan ch.toNat).kind.setWidth 64) ∧
      exec (.rdreg ch 0x02#8 0#8) s = ok (s.chan ch.toNat).flo ∧
      exec (.rdreg ch 0x03#8 0#8) s = ok (s.chan ch.toNat).fhi ∧
      exec (.rdreg ch 0x04#8 0#8) s = ok ((s.chan ch.toNat).order.setWidth 64) ∧
      exec (.rdreg ch 0x05#8 0#8) s = ok ((s.chan ch.toNat).capcfg.setWidth 64) ∧
      exec (.rdreg ch 0x08#8 0#8) s =
        ok (BitVec.ofNat 64 ((if (s.chan ch.toNat).winited then 2 else 0) + (if (s.chan ch.toNat).finited then 1 else 0))) ∧
      exec (.rdreg ch 0x09#8 0#8) s = ok ((s.chan ch.toNat).nst.setWidth 64) ∧
      exec (.rdreg ch 0x0A#8 0#8) s = ok ((s.chan ch.toNat).cap.setWidth 64) ∧
      ∀ k : BitVec 5, k.toNat < s.params.nsmax →
        exec (.rdreg ch 0x10#8 (k ++ 0#3)) s = ok (s.stage ch.toNat k.toNat).coef.b0 ∧
        exec (.rdreg ch 0x10#8 (k ++ 1#3)) s = ok (s.stage ch.toNat k.toNat).coef.b1 ∧
        exec (.rdreg ch 0x10#8 (k ++ 2#3)) s = ok (s.stage ch.toNat k.toNat).coef.b2 ∧
        exec (.rdreg ch 0x10#8 (k ++ 3#3)) s = ok 0x3FF0000000000000#64 ∧
        exec (.rdreg ch 0x10#8 (k ++ 4#3)) s = ok (s.stage ch.toNat k.toNat).coef.a1 ∧
        exec (.rdreg ch 0x10#8 (k ++ 5#3)) s = ok (s.stage ch.toNat k.toNat).coef.a2 ∧
        exec (.rdreg ch 0x11#8 (k ++ 0#3)) s = ok (s.stage ch.toNat k.toNat).w1 ∧
        exec (.rdreg ch 0x11#8 (k ++ 1#3)) s = ok (s.stage ch.toNat k.toNat).w2) ∧
    (ch.toNat < s.params.nact →
      exec (.rdreg ch 0x20#8 0#8) s = ok (s.act ch.toNat).vlo ∧
      exec (.rdreg ch 0x21#8 0#8) s = ok (s.act ch.toNat).vhi ∧
      exec (.rdreg ch 0x22#8 0#8) s = ok (s.act ch.toNat).olo ∧
      exec (.rdreg ch 0x23#8 0#8) s = ok (s.act ch.toNat).ohi ∧
      exec (.rdreg ch 0x24#8 0#8) s = ok (s.act ch.toNat).step ∧
      exec (.rdreg ch 0x28#8 0#8) s = ok (s.act ch.toNat).last) ∧
    (exec (.rdreg 0#8 0x30#8 0#8) s = ok (BitVec.ofNat 64 s.params.nch) ∧
      exec (.rdreg 0#8 0x30#8 1#8) s = ok (BitVec.ofNat 64 s.params.nact) ∧
      exec (.rdreg 0#8 0x30#8 2#8) s = ok (BitVec.ofNat 64 s.params.nsmax) ∧
      exec (.rdreg 0#8 0x30#8 3#8) s = ok (BitVec.ofNat 64 s.params.capmax) ∧
      exec (.rdreg 0#8 0x30#8 4#8) s = ok (if s.params.guardNonfinite then 1#64 else 0#64))

/-- FINIT on legal staging registers: NST is ORDER div 2, the stages below it hold DESIGN's sections for the
normalised cutoffs, the stages from it to NSMAX hold zeros, every delay register is +0.0, FINITED is set, and nothing
else changes. `q` is any word: no operation here makes a NaN (R112, R116, R117). -/
def Obligations.FinitConstructsTheCascade : Prop :=
  ∀ (c : BitVec 8) (q : Num64) (kind : FilterKind) (s : State) (r : ChanRegs) (secs : List Coefs),
    r = s.chan c.toNat → s.params.nsmax ≤ 32 →
    s.active = .s → c.toNat < s.params.nch → Arith.finite r.fs = true → Arith.gt r.fs posZero = true →
    kindOf r.kind = some kind → r.order.toNat % 2 = 0 → 2 ≤ r.order.toNat → r.order.toNat / 2 ≤ s.params.nsmax →
    Arith.gt r.flo posZero = true → Arith.lt r.flo (Arith.div q r.fs two) = true →
    (kind ≠ .lowpass → Arith.gt r.fhi posZero = true ∧ Arith.lt r.fhi (Arith.div q r.fs two) = true ∧
      Arith.lt r.flo r.fhi = true) →
    secs = designOf s.params kind (Arith.div q r.flo (Arith.div q r.fs two))
      (if kind = .lowpass then none else some (Arith.div q r.fhi (Arith.div q r.fs two))) r.order.toNat →
    secs.length = r.order.toNat / 2 →
      ∃ t, exec (.finit c) s = .next t ∧
        t = { s with chans := t.chans, stages := t.stages, responses := t.responses } ∧
        t.responses = s.responses ++ [⟨.s, 0x10000000#32, []⟩] ∧
        t.chan c.toNat = { r with nst := BitVec.ofNat 16 (r.order.toNat / 2), finited := true } ∧
        (∀ c', c' ≠ c.toNat → t.chan c' = s.chan c') ∧
        (∀ k, k < r.order.toNat / 2 → some (t.stage c.toNat k).coef = secs[k]?) ∧
        (∀ k, r.order.toNat / 2 ≤ k → k < s.params.nsmax →
          (t.stage c.toNat k).coef = ⟨posZero, posZero, posZero, posZero, posZero⟩) ∧
        (∀ k, k < s.params.nsmax → (t.stage c.toNat k).w1 = posZero ∧ (t.stage c.toNat k).w2 = posZero) ∧
        (∀ c' k, k < 65536 → c' ≠ c.toNat ∨ s.params.nsmax ≤ k → t.stage c' k = s.stage c' k)

/-- A FINIT whose checks pass does not run where the listed value of DESIGN has another number of sections than
ORDER div 2 (R116, DESIGN-LEN): the model refuses, it does not pad or truncate. -/
def Obligations.FinitRefusesABadDesign : Prop :=
  ∀ (c : BitVec 8) (s : State), firstError (finitChecks c s) = none →
    (sectionsFor c s).length ≠ (s.chan c.toNat).order.toNat / 2 → exec (.finit c) s = .refused .designLength

/-- Processing a sample immediately after a FINIT does not depend on the state the cascade was in before: two channels
with the same staging registers, whatever their old coefficients and delay registers, answer alike (R117). -/
def Obligations.ReinitialisedCascadeIsFresh : Prop :=
  ∀ (c : BitVec 8) (x : Word) (s₁ s₂ t₁ t₂ : State),
    s₁.params = s₂.params → s₁.params.nsmax ≤ 32 → s₁.active = s₂.active → s₁.nanDraws = s₂.nanDraws →
    (s₁.chan c.toNat).fs = (s₂.chan c.toNat).fs → (s₁.chan c.toNat).kind = (s₂.chan c.toNat).kind →
    (s₁.chan c.toNat).flo = (s₂.chan c.toNat).flo → (s₁.chan c.toNat).fhi = (s₂.chan c.toNat).fhi →
    (s₁.chan c.toNat).order = (s₂.chan c.toNat).order →
    exec (.finit c) s₁ = .next t₁ → t₁.responses = s₁.responses ++ [⟨.s, 0x10000000#32, []⟩] →
    exec (.finit c) s₂ = .next t₂ → t₂.responses = s₂.responses ++ [⟨.s, 0x10000000#32, []⟩] →
      ∃ u₁ u₂ r, exec (.filt c x) t₁ = .next u₁ ∧ exec (.filt c x) t₂ = .next u₂ ∧
        u₁.responses = t₁.responses ++ [r] ∧ u₂.responses = t₂.responses ++ [r]

/-- WINIT with a capacity from 1 to CAPMAX: CAP takes it, WINITED is set, both windows are +0.0 throughout, and nothing
else changes, no other address of window memory among it (R120). -/
def Obligations.WinitZeroFillsBothWindows : Prop :=
  ∀ (c : BitVec 8) (s : State), s.active = .s → c.toNat < s.params.nch →
    1 ≤ (s.chan c.toNat).capcfg.toNat → (s.chan c.toNat).capcfg.toNat ≤ s.params.capmax →
      ∃ t, exec (.winit c) s = .next t ∧
        t = { s with chans := t.chans, mem := t.mem, responses := t.responses } ∧
        t.responses = s.responses ++ [⟨.s, 0x11000000#32, []⟩] ∧
        t.chan c.toNat = { s.chan c.toNat with cap := (s.chan c.toNat).capcfg, winited := true } ∧
        (∀ c', c' ≠ c.toNat → t.chan c' = s.chan c') ∧
        (∀ w i, i < (s.chan c.toNat).capcfg.toNat → t.win c.toNat w i = posZero) ∧
        (∀ a, (∀ w i, i < (s.chan c.toNat).capcfg.toNat → a ≠ winAddr c.toNat w i) →
          Memory.read t.mem a = Memory.read s.mem a)

/-! ## Filter -/

/-- The nine operations of one stage, grouped left to right, on the old delay registers; `n` numbers the NaN draws;
nothing but the stage's two delay registers is written (R140). The count of draws is the model's (log 3). -/
def Obligations.StageIsDirectForm : Prop :=
  ∀ (c k : Nat) (x : Num64) (s : State),
    let r := s.stage c k
    let q := fun j => Arith.drawNaN (s.nanDraws + j)
    let inp := Arith.sub (q 3) (Arith.sub (q 1) x (Arith.mul (q 0) r.coef.a1 r.w1)) (Arith.mul (q 2) r.coef.a2 r.w2)
    let out := Arith.add (q 8)
      (Arith.add (q 6) (Arith.mul (q 4) r.coef.b0 inp) (Arith.mul (q 5) r.coef.b1 r.w1)) (Arith.mul (q 7) r.coef.b2 r.w2)
    (biquad c k x s).1 = out ∧ (biquad c k x s).2.stage c k = { r with w1 := inp, w2 := r.w1 } ∧
    (biquad c k x s).2 = { s with stages := (biquad c k x s).2.stages, nanDraws := s.nanDraws + 9 } ∧
    ∀ c' k', k < 65536 → k' < 65536 → c' ≠ c ∨ k' ≠ k → (biquad c k x s).2.stage c' k' = s.stage c' k'

/-- FILT on a constructed cascade: the sample goes through the NST stages in order, each stage's output the next
stage's input; the answer is the last output; of the machine's state only those stages' delay registers change
(R141, R143). The count of NaN draws and the numbers of the draws are the model's (log 3). -/
def Obligations.FiltRunsTheStagesInOrder : Prop :=
  ∀ (c : BitVec 8) (x : Word) (s : State), s.active = .s → c.toNat < s.params.nch →
    (s.chan c.toNat).finited = true → (s.params.guardNonfinite = true → Arith.finite x = true) →
      ∃ (t : State) (v : Nat → Num64), exec (.filt c x) s = .next t ∧
        t = { s with
              stages := t.stages, responses := t.responses,
              nanDraws := s.nanDraws + 9 * (s.chan c.toNat).nst.toNat } ∧
        v 0 = x ∧ t.responses = s.responses ++ [⟨.s, 0x20000001#32, [v (s.chan c.toNat).nst.toNat]⟩] ∧
        (∀ k, k < (s.chan c.toNat).nst.toNat →
          (v (k + 1), t.stage c.toNat k) =
            biquadStep (fun j => Arith.drawNaN (s.nanDraws + 9 * k + j)) (s.stage c.toNat k) (v k)) ∧
        (∀ k, (t.stage c.toNat k).coef = (s.stage c.toNat k).coef) ∧
        (∀ c' k, k < 65536 → c' ≠ c.toNat ∨ (s.chan c.toNat).nst.toNat ≤ k → t.stage c' k = s.stage c' k)

/-- FILTB answers what the FILTs of its samples answer, in input order, and leaves the state they leave (R144). -/
def Obligations.FiltbIsTheFiltsInOrder : Prop :=
  ∀ (c : BitVec 8) (xs : List Word) (s : State), s.active = .s → c.toNat < s.params.nch →
    (s.chan c.toNat).finited = true → (s.params.guardNonfinite = true → ∀ x ∈ xs, Arith.finite x = true) →
      ∃ (t u : State) (ys : List Word), exec (.filtb c xs) s = .next t ∧
        execAll (xs.map fun x => Instr.filt c x) s = .next u ∧
        ys.length = xs.length ∧
        u.responses = s.responses ++ ys.map (fun y => ⟨.s, 0x20000001#32, [y]⟩) ∧
        t = { u with
              responses := s.responses ++ [⟨.s, 0x21#8 ++ 0#8 ++ BitVec.ofNat 16 xs.length, ys⟩] }

/-- Zero is a fixed point: with finite coefficients and delay registers that are zeros, a zero sample gives a zero and
leaves every delay register of the cascade a zero, either sign of zero counting as zero (R145). -/
def Obligations.ZeroIsAFixedPointOfTheFilter : Prop :=
  ∀ (c : BitVec 8) (x : Word) (s : State), s.active = .s → c.toNat < s.params.nch →
    (s.chan c.toNat).finited = true → Arith.isZero x = true →
    (∀ k, k < (s.chan c.toNat).nst.toNat →
      Arith.isZero (s.stage c.toNat k).w1 = true ∧ Arith.isZero (s.stage c.toNat k).w2 = true ∧
      Arith.finite (s.stage c.toNat k).coef.b0 = true ∧ Arith.finite (s.stage c.toNat k).coef.b1 = true ∧
      Arith.finite (s.stage c.toNat k).coef.b2 = true ∧ Arith.finite (s.stage c.toNat k).coef.a1 = true ∧
      Arith.finite (s.stage c.toNat k).coef.a2 = true) →
      ∃ t y, exec (.filt c x) s = .next t ∧ t.responses = s.responses ++ [⟨.s, 0x20000001#32, [y]⟩] ∧
        Arith.isZero y = true ∧
        ∀ k, k < (s.chan c.toNat).nst.toNat →
          Arith.isZero (t.stage c.toNat k).w1 = true ∧ Arith.isZero (t.stage c.toNat k).w2 = true

/-! ## Windows and spectrum -/

/-- PUSH: each window becomes the window without its oldest element, followed by its sample, both in the one step; no
other address of window memory and nothing else changes (R160, R161). The capacity of a constructed pair is at least 1,
which holds in every state of the invariant. -/
def Obligations.PushShiftsBothWindows : Prop :=
  ∀ (c : BitVec 8) (xr xf : Word) (s : State), s.active = .s → c.toNat < s.params.nch →
    (s.chan c.toNat).winited = true → 1 ≤ (s.chan c.toNat).cap.toNat →
      ∃ t, exec (.push c xr xf) s = .next t ∧
        t = { s with mem := t.mem, responses := t.responses } ∧
        t.responses = s.responses ++ [⟨.s, 0x30000000#32, []⟩] ∧
        (∀ w i, i + 1 < (s.chan c.toNat).cap.toNat → t.win c.toNat w i = s.win c.toNat w (i + 1)) ∧
        t.win c.toNat .raw ((s.chan c.toNat).cap.toNat - 1) = xr ∧
        t.win c.toNat .filt ((s.chan c.toNat).cap.toNat - 1) = xf ∧
        (∀ a, (∀ w i, i < (s.chan c.toNat).cap.toNat → a ≠ winAddr c.toNat w i) →
          Memory.read t.mem a = Memory.read s.mem a)

/-- WINIT and then any number of pushes leaves the last `capacity` values, oldest first, with zeros where fewer were
pushed (R162). -/
def Obligations.WindowHoldsTheMostRecent : Prop :=
  ∀ (c : BitVec 8) (vs : List (Word × Word)) (s : State), s.active = .s → c.toNat < s.params.nch →
    1 ≤ (s.chan c.toNat).capcfg.toNat → (s.chan c.toNat).capcfg.toNat ≤ s.params.capmax →
      ∃ t, execAll (.winit c :: vs.map fun v => Instr.push c v.1 v.2) s = .next t ∧
        windowOf c .raw t =
          (List.replicate (s.chan c.toNat).capcfg.toNat posZero ++ vs.map Prod.fst).drop vs.length ∧
        windowOf c .filt t =
          (List.replicate (s.chan c.toNat).capcfg.toNat posZero ++ vs.map Prod.snd).drop vs.length

/-- SNAP on either port: the CAP elements of the selected window, oldest first, and nothing else changes (R163). -/
def Obligations.SnapReturnsTheWholeWindow : Prop :=
  ∀ (c : BitVec 8) (w : WinSel) (s : State), c.toNat < s.params.nch → (s.chan c.toNat).winited = true →
    ∃ ds : List Word, ds.length = (s.chan c.toNat).cap.toNat ∧
      (∀ i, i < (s.chan c.toNat).cap.toNat → ds[i]? = some (s.win c.toNat w i)) ∧
      exec (.snap c w) s =
        .next { s with responses := s.responses ++ [⟨s.active, 0x31#8 ++ 0#8 ++ (s.chan c.toNat).cap, ds⟩] }

/-- ANALYZE on either port: K = (CAP - 1) div 2 points in increasing k, the frequency (k *. fs) /. CAP with the live FS,
the magnitude DFTMAG of the window; nothing changes but the response and the model's count of free magnitudes. `q` is any
word: no operation on the frequencies makes a NaN (R175, R176, R177). The count and the number of a magnitude's draw are
the model's (log 6). -/
def Obligations.AnalyzeReturnsTheBins : Prop :=
  ∀ (c : BitVec 8) (w : WinSel) (q : Num64) (s : State), c.toNat < s.params.nch →
    (s.chan c.toNat).winited = true → 1 ≤ (s.chan c.toNat).cap.toNat →
    Arith.finite (s.chan c.toNat).fs = true → Arith.gt (s.chan c.toNat).fs posZero = true →
      ∃ (t : State) (ds : List Word), exec (.analyze c w) s = .next t ∧
        t = { s with responses := t.responses, magDraws := t.magDraws } ∧
        t.responses = s.responses ++ [⟨s.active, 0x38#8 ++ 0#8 ++ BitVec.ofNat 16 ds.length, ds⟩] ∧
        ds.length = 2 * (((s.chan c.toNat).cap.toNat - 1) / 2) ∧
        ∀ k, k < ((s.chan c.toNat).cap.toNat - 1) / 2 →
          ds[2 * k]? = some (Arith.div q (Arith.mul q (Arith.numi (k + 1)) (s.chan c.toNat).fs)
            (Arith.numi (s.chan c.toNat).cap.toNat)) ∧
          ds[2 * k + 1]? = some (dftMag (windowOf c w s) (k + 1) (s.magDraws + k))

/-- DFT-ZERO and DFT-NONNEG: an all-zero window has magnitude zero in every bin, and a window of finite samples has a
magnitude that is neither negative nor a NaN (R180). -/
def Obligations.MagnitudesOfFiniteWindows : Prop :=
  ∀ (x : List Num64) (k d : Nat),
    (x.all Arith.isZero = true → Arith.isZero (dftMag x k d) = true) ∧
    (x.all Arith.finite = true → Arith.isNaN (dftMag x k d) = false ∧ Arith.lt (dftMag x k d) posZero = false)

/-- ANALYZE depends on the parameters, WINITED, CAP, FS and a finite selected window alone: two states that agree on
these answer with the same words on whatever port; and two ANALYZE commands with any commands between them but PUSH,
TICK, WINIT and WRREG of FS answer with the same words (R181, DFT-FUN of R180). A free magnitude of a window that is not
finite is drawn anew (R184; log 6). -/
def Obligations.AnalyzeIsIdempotent : Prop :=
  (∀ (c : BitVec 8) (w : WinSel) (s₁ s₂ : State), s₁.params = s₂.params →
    (s₁.chan c.toNat).winited = (s₂.chan c.toNat).winited → (s₁.chan c.toNat).cap = (s₂.chan c.toNat).cap →
    (s₁.chan c.toNat).fs = (s₂.chan c.toNat).fs →
    (∀ i, i < (s₁.chan c.toNat).cap.toNat →
      s₁.win c.toNat w i = s₂.win c.toNat w i ∧ Arith.finite (s₁.win c.toNat w i) = true) →
      ∃ (t₁ t₂ : State) (h : BitVec 32) (ds : List Word),
        exec (.analyze c w) s₁ = .next t₁ ∧ t₁.responses = s₁.responses ++ [⟨s₁.active, h, ds⟩] ∧
        exec (.analyze c w) s₂ = .next t₂ ∧ t₂.responses = s₂.responses ++ [⟨s₂.active, h, ds⟩]) ∧
  (∀ (c : BitVec 8) (w : WinSel) (is : List Instr) (s t u : State),
    (∀ i, i < (s.chan c.toNat).cap.toNat → Arith.finite (s.win c.toNat w i) = true) →
    (∀ i ∈ is, i.mnemonic ∉ [.push, .tick, .winit] ∧ ∀ ch idx d, i ≠ .wrreg ch 0x00#8 idx d) →
    exec (.analyze c w) s = .next t → execAll is t = .next u →
      ∃ (v : State) (r : Response), exec (.analyze c w) u = .next v ∧ t.responses = s.responses ++ [r] ∧
        v.responses = u.responses ++ [r])

/-! ## Actuator and hot path -/

/-- MAP: a collapsed value range (the IEEE equality) is DegenerateRange, any other the affine rescale in the document's
parentheses, not clamped, which is a NaN where VLO or VHI is one; nothing is written but the model's count of NaN draws
(R191). The count and the numbers of the draws are the model's (log 3). -/
def Obligations.MapRescales : Prop :=
  ∀ (a : BitVec 8) (v : Word) (s : State), s.active = .s → a.toNat < s.params.nact →
    let q := fun j => Arith.drawNaN (s.nanDraws + j)
    let r := s.act a.toNat
    let m := Arith.add (q 5)
      (Arith.mul (q 4) (Arith.div (q 2) (Arith.sub (q 0) v r.vlo) (Arith.sub (q 1) r.vhi r.vlo)) (Arith.sub (q 3) r.ohi r.olo))
      r.olo
    exec (.map a v) s = .next
      (if Arith.eq r.vhi r.vlo = true then raise 0x40#8 .degenerateRange s
      else { s with nanDraws := s.nanDraws + 6, responses := s.responses ++ [⟨.s, 0x40000001#32, [m]⟩] }) ∧
    (Arith.isNaN r.vlo = true ∨ Arith.isNaN r.vhi = true → Arith.eq r.vhi r.vlo = false ∧ Arith.isNaN m = true)

/-- The two examples of the document: `map(0.5, (0,1), (0,100))` is 50, and the identity range returns every value that
is not a NaN, up to `==` (R193). -/
def Obligations.MapIdentityRange : Prop :=
  ∀ (q : Nat → Num64),
    (∀ last step, amap q ⟨posZero, one, posZero, 0x4059000000000000#64, step, last⟩ 0x3FE0000000000000#64 =
      0x4049000000000000#64) ∧
    (∀ (x : Num64) last step, Arith.isNaN x = false →
      Arith.eq (amap q ⟨posZero, one, posZero, one, step, last⟩ x) x = true)

/-- RLIM: with d = new -. last, the result is last +. (sg *. step) where |d| > step, sg being +1.0 or -1.0 as d > 0.0 or
not, else the operand bit for bit; nothing is written, LAST among it. `q` is any NaN: none is ever answered here (R195). -/
def Obligations.RlimLimitsTheStep : Prop :=
  ∀ (a : BitVec 8) (v : Word) (s : State), s.active = .s → a.toNat < s.params.nact →
    Arith.gt (s.act a.toNat).step posZero = true →
      ∃ r, exec (.rlim a v) s = .next { s with responses := s.responses ++ [⟨.s, 0x41000001#32, [r]⟩] } ∧
        ∀ q : Num64, Arith.isNaN q = true →
          let d := Arith.sub q v (s.act a.toNat).last
          let sg := if Arith.gt d posZero = true then one else negOne
          (Arith.gt (Arith.absf d) (s.act a.toNat).step = false → r = v) ∧
          (Arith.gt (Arith.absf d) (s.act a.toNat).step = true →
            r = Arith.add q (s.act a.toNat).last (Arith.mul q sg (s.act a.toNat).step))

/-- Corners of the limiter: an unlimited step passes every operand, and a NaN operand or a NaN last value passes the
operand, each bit for bit (R196 (a), (b), (c)). -/
def Obligations.LimiterPassesThrough : Prop :=
  ∀ (n : Nat) (new last st : Num64),
    (st = posInf → rateLimit (nansFrom n) new last st = new) ∧
    (Arith.isNaN new = true → rateLimit (nansFrom n) new last st = new) ∧
    (Arith.isNaN last = true → rateLimit (nansFrom n) new last st = new)

/-- ACTWR: exactly one BoardWrite of the pair; F is the acknowledgement, the Board's next listed one or a free one; LAST
takes the value where it is true and keeps its own where it is false; nothing else changes. An actuator that does not
exist is OutOfRange, port D IllegalCommand (R198). That the coming acknowledgements are listed in State is the
model's (log 8). -/
def Obligations.ActwrWritesAndRecords : Prop :=
  ∀ (a : BitVec 8) (v : Word) (s : State),
    (s.active = .d → exec (.actwr a v) s = .next (raise 0x42#8 .illegalCommand s)) ∧
    (s.active = .s → s.params.nact ≤ a.toNat → exec (.actwr a v) s = .next (raise 0x42#8 .outOfRange s)) ∧
    (s.active = .s → a.toNat < s.params.nact →
      ∃ (t : State) (ack : Bool), exec (.actwr a v) s = .next t ∧
        (∀ k ks, s.boardAcks = k :: ks → ack = k) ∧
        t = { s with
              acts := t.acts, boardAcks := s.boardAcks.tail, boardWrites := s.boardWrites ++ [⟨a, v, ack⟩],
              responses := s.responses ++ [⟨.s, if ack then 0x42800000#32 else 0x42000000#32, []⟩] } ∧
        (ack = true → t.act a.toNat = { s.act a.toNat with last := v }) ∧
        (ack = false → t.act a.toNat = s.act a.toNat) ∧
        ∀ a', a' ≠ a.toNat → t.act a' = s.act a')

/-- DRIVE has the effect of MAP, then RLIM of the mapped value, then ACTWR of the limited one, with one response of its
own in place of their three (R214). -/
def Obligations.DriveIsMapLimitWrite : Prop :=
  ∀ (a : BitVec 8) (v : Word) (s : State), s.active = .s → a.toNat < s.params.nact →
    Arith.gt (s.act a.toNat).step posZero = true → Arith.eq (s.act a.toNat).vhi (s.act a.toNat).vlo = false →
      ∃ (t u : State) (m r : Num64) (ack : Bool), exec (.drive a v) s = .next t ∧
        execAll [.map a v, .rlim a m, .actwr a r] s = .next u ∧
        u.responses = s.responses ++ [⟨.s, 0x40000001#32, [m]⟩, ⟨.s, 0x41000001#32, [r]⟩,
          ⟨.s, if ack then 0x42800000#32 else 0x42000000#32, []⟩] ∧
        t = { u with
              responses := s.responses ++ [⟨.s, if ack then 0x43800001#32 else 0x43000001#32, [r]⟩] }

/-- The limiter and the actuator write of one channel read no register of another: two states that agree on actuator
`a` and on the environment answer RLIM and DRIVE alike and leave actuator `a` alike (R197). -/
def Obligations.ActuatorsAreIndependent : Prop :=
  ∀ (a : BitVec 8) (v : Word) (i : Instr) (s₁ s₂ t₁ t₂ : State), (i = .rlim a v ∨ i = .drive a v) →
    s₁.act a.toNat = s₂.act a.toNat → s₁.active = s₂.active → s₁.params.nact = s₂.params.nact →
    s₁.nanDraws = s₂.nanDraws → s₁.boardAcks = s₂.boardAcks → s₁.boardWrites = s₂.boardWrites →
    exec i s₁ = .next t₁ → exec i s₂ = .next t₂ →
      t₁.act a.toNat = t₂.act a.toNat ∧ t₁.boardWrites = t₂.boardWrites ∧
      ∃ r, t₁.responses = s₁.responses ++ [r] ∧ t₂.responses = s₂.responses ++ [r]

/-- TICK on a present sample, listed or free: one BoardRead, then the effect of FILT of the sample and, on a channel with
windows, PUSH of the sample and its output, with one response of its own that carries both (R210). That coming answers are
listed in State, and free where none is, is the model's (log 7). -/
def Obligations.TickFiltersAndPushesAPresentSample : Prop :=
  ∀ (c : BitVec 8) (x : Num64) (s : State), s.active = .s → c.toNat < s.params.nch →
    (s.chan c.toNat).finited = true → (boardRead c s).1 = some x →
    (s.params.guardNonfinite = true → Arith.finite x = true) →
      ∃ (t u : State) (y : Num64), exec (.tick c) s = .next t ∧
        execAll (if (s.chan c.toNat).winited then [.filt c x, .push c x y] else [.filt c x])
          { s with boardAnswers := s.boardAnswers.tail, boardReads := s.boardReads ++ [⟨c, some x⟩] } = .next u ∧
        u.responses = s.responses ++ (⟨.s, 0x20000001#32, [y]⟩ ::
          if (s.chan c.toNat).winited then [⟨.s, 0x30000000#32, []⟩] else []) ∧
        t = { u with responses := s.responses ++ [⟨.s, 0x50800002#32, [x, y]⟩] }

/-- TICK on an absent sample, listed or free: one BoardRead, an OK response with F = 0 and no data, and no register,
window element or Board write (R211). The list of coming answers is the model's (log 7). -/
def Obligations.TickSkipsAnAbsentSample : Prop :=
  ∀ (c : BitVec 8) (s : State), s.active = .s → c.toNat < s.params.nch → (s.chan c.toNat).finited = true →
    (boardRead c s).1 = none →
      exec (.tick c) s = .next
        { s with
          boardAnswers := s.boardAnswers.tail, boardReads := s.boardReads ++ [⟨c, none⟩],
          responses := s.responses ++ [⟨.s, 0x50000000#32, []⟩] }

/-- Whatever the Board answers, listed or free, a TICK that passes its first two checks goes on and makes exactly one
BoardRead, which takes the answer off the Board's list whatever becomes of it; no other command makes any (R212).
That the coming answers are listed in State is the model's (log 7). -/
def Obligations.TickReadsTheBoardOnce : Prop :=
  (∀ (c : BitVec 8) (s : State), s.active = .s → c.toNat < s.params.nch → (s.chan c.toNat).finited = true →
    ∃ t ans, exec (.tick c) s = .next t ∧ t.boardReads = s.boardReads ++ [⟨c, ans⟩] ∧
      t.boardAnswers = s.boardAnswers.tail ∧ (∀ b bs, s.boardAnswers = b :: bs → ans = b)) ∧
  (∀ (i : Instr) (s t : State), exec i s = .next t → i.mnemonic ≠ .tick →
    t.boardReads = s.boardReads ∧ t.boardAnswers = s.boardAnswers)

/-! ## Errors -/

/-- InvalidFilterOrder: FINIT on an odd order or order 0, whatever the cutoffs and the stage count, and nothing else
answers it (R221). -/
def Obligations.FinitRefusesOddAndZeroOrders : Prop :=
  (∀ (c : BitVec 8) (s : State), s.active = .s → c.toNat < s.params.nch →
    Arith.finite (s.chan c.toNat).fs = true → Arith.gt (s.chan c.toNat).fs posZero = true →
    (s.chan c.toNat).kind ≠ 3#2 →
    ((s.chan c.toNat).order.toNat % 2 = 1 ∨ (s.chan c.toNat).order = 0#16) →
      exec (.finit c) s = .next (raise 0x10#8 .invalidFilterOrder s)) ∧
  (∀ (i : Instr) (s t : State) (r : Response), exec i s = .next t → t.responses = s.responses ++ [r] →
    statusField r.header = 1#4 →
      ∃ c, i = .finit c ∧ ((s.chan c.toNat).order.toNat % 2 = 1 ∨ (s.chan c.toNat).order = 0#16))

/-- InvalidCutoff: FINIT where a cutoff in use is a NaN, at most 0 or at least the Nyquist frequency, or, for a band
filter, where the low one is not below the high one; a lowpass uses FLO alone; nothing else answers it (R222). -/
def Obligations.FinitRefusesBadCutoffs : Prop :=
  ∀ q : Num64,
    let bad := fun (r : ChanRegs) f => Arith.isNaN f || Arith.le f posZero || Arith.le (Arith.div q r.fs two) f
    let inUse := fun r : ChanRegs =>
      bad r r.flo = true ∨ r.kind ≠ 0#2 ∧ (bad r r.fhi = true ∨ Arith.le r.fhi r.flo = true)
    (∀ (c : BitVec 8) (s : State) (r : ChanRegs), r = s.chan c.toNat → s.active = .s → c.toNat < s.params.nch →
      Arith.finite r.fs = true → Arith.gt r.fs posZero = true → r.kind ≠ 3#2 →
      r.order.toNat % 2 = 0 → 2 ≤ r.order.toNat → r.order.toNat / 2 ≤ s.params.nsmax →
      inUse r → exec (.finit c) s = .next (raise 0x10#8 .invalidCutoff s)) ∧
    (∀ (i : Instr) (s t : State) (r : Response), exec i s = .next t → t.responses = s.responses ++ [r] →
      statusField r.header = 2#4 → ∃ c, i = .finit c ∧ inUse (s.chan c.toNat))

/-- DegenerateRange: MAP and DRIVE where VHI == VLO, the two zeros counting as equal; nothing is written, and nothing
else answers it (R223). -/
def Obligations.DegenerateRangeIsReported : Prop :=
  (∀ (a : BitVec 8) (v : Word) (s : State), s.active = .s → a.toNat < s.params.nact →
    Arith.eq (s.act a.toNat).vhi (s.act a.toNat).vlo = true →
      exec (.map a v) s = .next (raise 0x40#8 .degenerateRange s) ∧
      (Arith.gt (s.act a.toNat).step posZero = true →
        exec (.drive a v) s = .next (raise 0x43#8 .degenerateRange s))) ∧
  (∀ (i : Instr) (s t : State) (r : Response), exec i s = .next t → t.responses = s.responses ++ [r] →
    statusField r.header = 3#4 →
      ∃ a v, (i = .map a v ∨ i = .drive a v) ∧ Arith.eq (s.act a.toNat).vhi (s.act a.toNat).vlo = true)

/-- NonFiniteSample: with the guard on, FILT, FILTB and TICK refuse an infinity or a NaN before any register changes; a
TICK has then read the Board, be the answer listed or free. Nothing else answers it, and nothing does with the guard off (R224). -/
def Obligations.GuardRefusesNonFiniteSamples : Prop :=
  (∀ (c : BitVec 8) (x : Num64) (xs : List Word) (s : State), s.active = .s → c.toNat < s.params.nch →
    (s.chan c.toNat).finited = true → s.params.guardNonfinite = true → Arith.finite x = false →
      exec (.filt c x) s = .next (raise 0x20#8 .nonFiniteSample s) ∧
      (x ∈ xs → exec (.filtb c xs) s = .next (raise 0x21#8 .nonFiniteSample s)) ∧
      ((boardRead c s).1 = some x →
        exec (.tick c) s = .next (raise 0x50#8 .nonFiniteSample (boardRead c s).2))) ∧
  (∀ (i : Instr) (s t : State) (r : Response), exec i s = .next t → t.responses = s.responses ++ [r] →
    statusField r.header = 4#4 →
      s.params.guardNonfinite = true ∧
      ∃ c x, Arith.finite x = false ∧
        (i = .filt c x ∨ (∃ xs, x ∈ xs ∧ i = .filtb c xs) ∨
          i = .tick c ∧ t.boardReads = s.boardReads ++ [⟨c, some x⟩]))

/-- InvalidConfig: FINIT and ANALYZE on a sampling rate that is not finite or not greater than zero, FINIT on KIND 3,
WINIT on capacity 0, RLIM and DRIVE on a step that is not greater than zero; nothing is written (R225). -/
def Obligations.InvalidConfigIsReported : Prop :=
  (∀ (c : BitVec 8) (w : WinSel) (s : State), c.toNat < s.params.nch →
    (Arith.finite (s.chan c.toNat).fs = false ∨ Arith.gt (s.chan c.toNat).fs posZero = false) →
      (s.active = .s → exec (.finit c) s = .next (raise 0x10#8 .invalidConfig s)) ∧
      ((s.chan c.toNat).winited = true → exec (.analyze c w) s = .next (raise 0x38#8 .invalidConfig s))) ∧
  (∀ (c : BitVec 8) (s : State), s.active = .s → c.toNat < s.params.nch → (s.chan c.toNat).kind = 3#2 →
      exec (.finit c) s = .next (raise 0x10#8 .invalidConfig s)) ∧
  (∀ (c : BitVec 8) (s : State), s.active = .s → c.toNat < s.params.nch → (s.chan c.toNat).capcfg = 0#16 →
      exec (.winit c) s = .next (raise 0x11#8 .invalidConfig s)) ∧
  (∀ (a : BitVec 8) (v : Word) (s : State), s.active = .s → a.toNat < s.params.nact →
    Arith.gt (s.act a.toNat).step posZero = false →
      exec (.rlim a v) s = .next (raise 0x41#8 .invalidConfig s) ∧
      exec (.drive a v) s = .next (raise 0x43#8 .invalidConfig s))

/-- NotInitialised: FILT, FILTB and TICK on a channel without a cascade, PUSH, SNAP and ANALYZE on one without windows;
nothing is written and a TICK does not read the Board (R227). -/
def Obligations.UseBeforeConstructionIsReported : Prop :=
  ∀ (c : BitVec 8) (s : State), c.toNat < s.params.nch →
    (s.active = .s → (s.chan c.toNat).finited = false →
      (∀ x, exec (.filt c x) s = .next (raise 0x20#8 .notInitialised s)) ∧
      (∀ xs, exec (.filtb c xs) s = .next (raise 0x21#8 .notInitialised s)) ∧
      exec (.tick c) s = .next (raise 0x50#8 .notInitialised s)) ∧
    ((s.chan c.toNat).winited = false →
      (s.active = .s → ∀ x y, exec (.push c x y) s = .next (raise 0x30#8 .notInitialised s)) ∧
      (∀ w, exec (.snap c w) s = .next (raise 0x31#8 .notInitialised s)) ∧
      (∀ w, exec (.analyze c w) s = .next (raise 0x38#8 .notInitialised s)))

/-- OutOfRange of every command that names a channel that does not exist: on a port that accepts it, a sensor command on
CH ≥ NCH and an actuator command on CH ≥ NACT, whatever else is wrong with it; a RDREG of any register of such a channel,
and a WRREG of any register that is not read-only, a reserved number among both (R228, R232). -/
def Obligations.ChannelOutOfRangeIsReported : Prop :=
  ∀ (c : BitVec 8) (s : State),
    (s.params.nch ≤ c.toNat →
      (s.active = .s →
        exec (.finit c) s = .next (raise 0x10#8 .outOfRange s) ∧
        exec (.winit c) s = .next (raise 0x11#8 .outOfRange s) ∧
        (∀ x, exec (.filt c x) s = .next (raise 0x20#8 .outOfRange s)) ∧
        (∀ xs, exec (.filtb c xs) s = .next (raise 0x21#8 .outOfRange s)) ∧
        (∀ x y, exec (.push c x y) s = .next (raise 0x30#8 .outOfRange s)) ∧
        exec (.tick c) s = .next (raise 0x50#8 .outOfRange s)) ∧
      (∀ w, exec (.snap c w) s = .next (raise 0x31#8 .outOfRange s)) ∧
      (∀ w, exec (.analyze c w) s = .next (raise 0x38#8 .outOfRange s))) ∧
    (s.params.nact ≤ c.toNat → s.active = .s →
      ∀ v, exec (.map c v) s = .next (raise 0x40#8 .outOfRange s) ∧
        exec (.rlim c v) s = .next (raise 0x41#8 .outOfRange s) ∧
        exec (.actwr c v) s = .next (raise 0x42#8 .outOfRange s) ∧
        exec (.drive c v) s = .next (raise 0x43#8 .outOfRange s)) ∧
    (∀ (reg idx : BitVec 8) (d : Word),
      (∀ r, Reg.ofNumber reg = some r → r.cls = .sensor ∧ s.params.nch ≤ c.toNat ∨
        r.cls = .actuator ∧ s.params.nact ≤ c.toNat ∨ r.cls = .global ∧ c ≠ 0#8) →
      exec (.rdreg c reg idx) s = .next (raise 0x02#8 .outOfRange s) ∧
      (s.active = .s → (∀ r, Reg.ofNumber reg = some r → r.readOnly = false) →
        exec (.wrreg c reg idx d) s = .next (raise 0x01#8 .outOfRange s)))

/-- The errors of register access: a reserved REG is OutOfRange before anything else, a WRREG to a known read-only
register is IllegalCommand, and then CH, IDX and, for a write, the width of an integer value are OutOfRange (R110,
R111, C12). -/
def Obligations.RegisterAccessErrors : Prop :=
  ∀ (ch reg idx : BitVec 8) (d : Word) (s : State),
    (Reg.ofNumber reg = none →
      exec (.rdreg ch reg idx) s = .next (raise 0x02#8 .outOfRange s) ∧
      (s.active = .s → exec (.wrreg ch reg idx d) s = .next (raise 0x01#8 .outOfRange s))) ∧
    (∀ r, Reg.ofNumber reg = some r →
      (s.active = .s → r.readOnly = true → exec (.wrreg ch reg idx d) s = .next (raise 0x01#8 .illegalCommand s)) ∧
      ((r.cls = .sensor ∧ s.params.nch ≤ ch.toNat ∨ r.cls = .actuator ∧ s.params.nact ≤ ch.toNat ∨
          r.cls = .global ∧ ch ≠ 0#8) →
        exec (.rdreg ch reg idx) s = .next (raise 0x02#8 .outOfRange s) ∧
        (s.active = .s → r.readOnly = false → exec (.wrreg ch reg idx d) s = .next (raise 0x01#8 .outOfRange s))) ∧
      (s.active = .s → r.readOnly = false →
        (idx ≠ 0#8 ∨ r = .kind ∧ 4 ≤ d.toNat ∨ (r = .order ∨ r = .capcfg) ∧ 65536 ≤ d.toNat) →
        exec (.wrreg ch reg idx d) s = .next (raise 0x01#8 .outOfRange s)) ∧
      ((r = .coef ∧ (s.params.nsmax ≤ idxStage idx ∨ 5 < idxElem idx) ∨
          r = .w ∧ (s.params.nsmax ≤ idxStage idx ∨ 1 < idxElem idx) ∨ r = .param ∧ 4 < idx.toNat ∨
          r ≠ .coef ∧ r ≠ .w ∧ r ≠ .param ∧ idx ≠ 0#8) →
        exec (.rdreg ch reg idx) s = .next (raise 0x02#8 .outOfRange s)))

/-- What FINIT and WINIT cannot hold: an even order of more than NSMAX stages, a capacity beyond CAPMAX (R228, R114,
R120). -/
def Obligations.TooLargeConstructionIsReported : Prop :=
  ∀ (c : BitVec 8) (s : State), s.active = .s → c.toNat < s.params.nch →
    (Arith.finite (s.chan c.toNat).fs = true → Arith.gt (s.chan c.toNat).fs posZero = true →
      (s.chan c.toNat).kind ≠ 3#2 → (s.chan c.toNat).order.toNat % 2 = 0 → 2 ≤ (s.chan c.toNat).order.toNat →
      s.params.nsmax < (s.chan c.toNat).order.toNat / 2 → exec (.finit c) s = .next (raise 0x10#8 .outOfRange s)) ∧
    ((s.chan c.toNat).capcfg ≠ 0#16 → s.params.capmax < (s.chan c.toNat).capcfg.toNat →
      exec (.winit c) s = .next (raise 0x11#8 .outOfRange s))

/-- Port D answers IllegalCommand to every command but RDREG, SNAP and ANALYZE, before any check of the command's own,
and changes nothing (R236, R232). -/
def Obligations.PortDRefusesWriteCommands : Prop :=
  ∀ (i : Instr) (s : State), s.active = .d → readClass i = false →
    exec i s = .next (raise i.mnemonic.opcode .illegalCommand s)

/-- An error changes nothing: a command that answers a status other than OK has F = 0, CNT = 0, no data word, and
leaves the whole state as it was; only a TICK that answers NonFiniteSample has consumed one answer of the Board
(R226). -/
def Obligations.ErrorsChangeNothing : Prop :=
  ∀ (i : Instr) (s t : State) (r : Response), exec i s = .next t → t.responses = s.responses ++ [r] →
    statusField r.header ≠ 0#4 →
      flagField r.header = false ∧ cntField r.header = 0#16 ∧ r.data = [] ∧
      (t = { s with responses := t.responses } ∨
        ((∃ c, i = .tick c) ∧ statusField r.header = 4#4 ∧
          ∃ a, t = { s with
                     boardAnswers := s.boardAnswers.tail, boardReads := s.boardReads ++ [a],
                     responses := t.responses }))

/-- Every command that steps gives exactly one response, on the port that executes it, with its OP echoed and a status
the table of 60_exceptions.md section 1 allows it (R90, R91 and that table). -/
def Obligations.OneResponsePerCommand : Prop :=
  ∀ (i : Instr) (s t : State), exec i s = .next t →
    ∃ (f : Bool) (st : Status) (ds : List Word), st ∈ mayAnswer i ∧
      t.responses = s.responses ++ [⟨s.active, responseHeader i.mnemonic.opcode f st ds.length, ds⟩]

/-! ## Whole-machine rules -/

/-- The invariant holds right after reset, for every instance of legal size. -/
def Obligations.ResetHasTheInvariant : Prop :=
  ∀ p : Params, p.Legal → (State.resetOf p).Inv

/-- Every step keeps the invariant: canonical register files and window memory, NST ≤ NSMAX, CAP ≤ CAPMAX, a channel
constructed exactly where its stage count or capacity is not zero, and nothing in channels that do not exist, in stages
from NSMAX on or in window elements from CAPMAX on; and it leaves the parameters as they are, reset among the steps (R36
to R38, R41, R44). -/
def Obligations.EveryStepKeepsTheInvariant : Prop :=
  ∀ s t : State, s.Inv → step s = .next t → t.Inv ∧ t.params = s.params

/-- Every step keeps the responses well formed: bits 22:20 zero, status 0 to 8, CNT the number of data words, and
neither flag nor data with an error (R90, R91). -/
def Obligations.EveryStepKeepsResponsesWellFormed : Prop :=
  ∀ s t : State, (∀ r ∈ s.responses, r.WellFormed) → step s = .next t → ∀ r ∈ t.responses, r.WellFormed

/-- The hardware does not stop: where the listed values of DESIGN have the right number of sections, every step answers
a next state (R234, R265). -/
def Obligations.TheMachineNeverStops : Prop :=
  ∀ s : State, DesignLen s.params → Safe s

/-- Port D writes nothing: whatever a command on port D is, only the response and the model's count of free magnitudes
change (R67). -/
def Obligations.PortDWritesNothing : Prop :=
  ∀ (i : Instr) (s t : State), s.active = .d → exec i s = .next t →
    t = { s with responses := t.responses, magDraws := t.magDraws }

/-- Commands pending on port D never hold up port S: the step that serves port S is the same whatever waits on port D
(R68). -/
def Obligations.PortDNeverDelaysPortS : Prop :=
  ∀ (s t : State) (es : List Event) (q : List Frame), s.events = .serve .s :: es → step s = .next t →
    step { s with portD := q } = .next { t with portD := q }

/-- A command changes no register, stage or window of a channel it does not name: a sensor channel is changed only by a
sensor command (WRREG of a sensor register among them) of its own number, an actuator only by an actuator command of its
own number (R22). -/
def Obligations.OtherChannelsAreUntouched : Prop :=
  ∀ (i : Instr) (s t : State), s.Inv → exec i s = .next t →
    (∀ c, c ≠ channelOf i ∨ commandClass i ≠ .sensor →
      t.chan c = s.chan c ∧ (∀ k, k < 65536 → t.stage c k = s.stage c k) ∧
      (∀ w j, j < 65536 → t.win c w j = s.win c w j)) ∧
    (∀ a, a ≠ channelOf i ∨ commandClass i ≠ .actuator → t.act a = s.act a)

/-- Who writes what: delay registers FILT, FILTB, TICK and FINIT; coefficients, NST and FINITED FINIT alone; CAP and
WINITED WINIT alone; LAST ACTWR and DRIVE alone; the staging registers WRREG alone; the windows WINIT, PUSH and TICK
(R23, R25, R36, R37, R38, R42, R44). -/
def Obligations.WritersOfEachRegister : Prop :=
  ∀ (i : Instr) (s t : State), exec i s = .next t →
    (∀ c k, ((t.stage c k).w1 ≠ (s.stage c k).w1 ∨ (t.stage c k).w2 ≠ (s.stage c k).w2) →
      i.mnemonic ∈ [.filt, .filtb, .tick, .finit]) ∧
    (∀ c k, (t.stage c k).coef ≠ (s.stage c k).coef → i.mnemonic = .finit) ∧
    (∀ c, ((t.chan c).nst ≠ (s.chan c).nst ∨ (t.chan c).finited ≠ (s.chan c).finited) → i.mnemonic = .finit) ∧
    (∀ c, ((t.chan c).cap ≠ (s.chan c).cap ∨ (t.chan c).winited ≠ (s.chan c).winited) → i.mnemonic = .winit) ∧
    (∀ a, (t.act a).last ≠ (s.act a).last → i.mnemonic ∈ [.actwr, .drive]) ∧
    (∀ c, ((t.chan c).fs ≠ (s.chan c).fs ∨ (t.chan c).kind ≠ (s.chan c).kind ∨ (t.chan c).flo ≠ (s.chan c).flo ∨
      (t.chan c).fhi ≠ (s.chan c).fhi ∨ (t.chan c).order ≠ (s.chan c).order ∨
      (t.chan c).capcfg ≠ (s.chan c).capcfg) → i.mnemonic = .wrreg) ∧
    (∀ a, ((t.act a).vlo ≠ (s.act a).vlo ∨ (t.act a).vhi ≠ (s.act a).vhi ∨ (t.act a).olo ≠ (s.act a).olo ∨
      (t.act a).ohi ≠ (s.act a).ohi ∨ (t.act a).step ≠ (s.act a).step) → i.mnemonic = .wrreg) ∧
    (∀ c w j, t.win c w j ≠ s.win c w j → i.mnemonic ∈ [.winit, .push, .tick]) ∧
    (∀ c, (s.chan c).finited = true → (t.chan c).finited = true) ∧
    (∀ c, (s.chan c).winited = true → (t.chan c).winited = true)

/-- The Board is called by TICK, ACTWR and DRIVE alone: no other command reads it or writes it, and an ACTWR or DRIVE
that answers OK has made exactly one BoardWrite on the actuator it names, whose acknowledgement is its F (R199). The
lists of coming answers and acknowledgements are the model's (logs 7, 8). -/
def Obligations.CallersOfTheBoard : Prop :=
  ∀ (i : Instr) (s t : State), exec i s = .next t →
    (t.boardReads ≠ s.boardReads ∨ t.boardAnswers ≠ s.boardAnswers → i.mnemonic = .tick) ∧
    (t.boardWrites ≠ s.boardWrites ∨ t.boardAcks ≠ s.boardAcks → i.mnemonic ∈ [.actwr, .drive]) ∧
    (∀ r, i.mnemonic ∈ [.actwr, .drive] → t.responses = s.responses ++ [r] → statusField r.header = 0#4 →
      ∃ w, t.boardWrites = s.boardWrites ++ [w] ∧ w.act.toNat = channelOf i ∧ flagField r.header = w.ack)

/-! ## Numbers -/

/-- Rounding is to nearest, ties to even, once per operation. Of `roundTo`: no finite number is nearer to the exact value
than the one answered, and where another is as near the one answered has an even significand. Of the operations: on finite
operands the exact sum, difference, product or quotient is so rounded, an overflow is an infinity of the right sign, and a
zero has the sign IEEE 754 gives it; on infinities, and where a number is divided by zero, the limit is exact. `numi` is
exact below 2^53 (R10, R146; log 2). -/
def Obligations.RoundingIsToNearestEven : Prop :=
  (∀ (sgn : Bool) (num den : Nat) (y : Num64), 0 < den →
    Arith.finite (Arith.roundTo sgn num den) = true → Arith.finite y = true →
      let err := fun a : Num64 => ((num : ℤ) - (den : ℤ) * (Arith.units a : ℤ)).natAbs
      err (Arith.roundTo sgn num den) ≤ err y ∧
      (err (Arith.roundTo sgn num den) = err y → Arith.units y ≠ Arith.units (Arith.roundTo sgn num den) →
        Arith.magBits (Arith.roundTo sgn num den) % 2 = 0)) ∧
  (∀ q a b : Num64, Arith.finite a = true → Arith.finite b = true →
    let sum := Arith.value a + Arith.value b
    let diff := Arith.value a - Arith.value b
    let sgn := Arith.signBit a != Arith.signBit b
    Rounded sum (if sum = 0 then Arith.signBit a && Arith.signBit b else decide (sum < 0)) (Arith.add q a b) ∧
    Rounded diff (if diff = 0 then Arith.signBit a && !Arith.signBit b else decide (diff < 0)) (Arith.sub q a b) ∧
    Rounded (Arith.value a * Arith.value b / 2 ^ 1074) sgn (Arith.mul q a b) ∧
    (Arith.isZero b = false → Rounded (Arith.value a * 2 ^ 1074 / Arith.value b) sgn (Arith.div q a b)) ∧
    (Arith.isZero a = false → Arith.isZero b = true → Arith.div q a b = Arith.pack sgn Arith.infMag)) ∧
  (∀ q a b : Num64, Arith.isInf a = true → Arith.isNaN b = false →
    let sgn := Arith.signBit a != Arith.signBit b
    (Arith.finite b = true →
      Arith.add q a b = a ∧ Arith.add q b a = a ∧ Arith.sub q a b = a ∧ Arith.sub q b a = Arith.neg a ∧
      Arith.div q a b = Arith.pack sgn Arith.infMag ∧ Arith.div q b a = Arith.pack sgn 0) ∧
    (Arith.isInf b = true → (sgn = false → Arith.add q a b = a) ∧ (sgn = true → Arith.sub q a b = a)) ∧
    (Arith.isZero b = false →
      Arith.mul q a b = Arith.pack sgn Arith.infMag ∧ Arith.mul q b a = Arith.pack sgn Arith.infMag)) ∧
  (∀ n : Nat, n < 2 ^ 53 → Arith.finite (Arith.numi n) = true ∧ Arith.value (Arith.numi n) = n * 2 ^ 1074)

/-- A NaN operand or an invalid operation gives some quiet NaN, and no other operands give one: an operation answers a
NaN exactly there (R146, U1). -/
def Obligations.NanResultsAreQuiet : Prop :=
  ∀ (n : Nat) (a b : Num64),
    let q := Arith.drawNaN n
    let nan := Arith.isNaN a || Arith.isNaN b
    Arith.isQuietNaN q = true ∧
    (Arith.isNaN (Arith.add q a b) =
      (nan || (Arith.isInf a && Arith.isInf b && (Arith.signBit a != Arith.signBit b)))) ∧
    (Arith.isNaN (Arith.mul q a b) =
      (nan || (Arith.isInf a && Arith.isZero b) || (Arith.isZero a && Arith.isInf b))) ∧
    (Arith.isNaN (Arith.div q a b) =
      (nan || (Arith.isInf a && Arith.isInf b) || (Arith.isZero a && Arith.isZero b))) ∧
    (Arith.isNaN (Arith.add q a b) = true → Arith.add q a b = q) ∧
    (Arith.isNaN (Arith.mul q a b) = true → Arith.mul q a b = q) ∧
    (Arith.isNaN (Arith.div q a b) = true → Arith.div q a b = q)

/-- The comparisons: false with a NaN; without one exactly one of <, ==, > holds; the two zeros are equal (R10). -/
def Obligations.ComparisonsOrderTheNumbers : Prop :=
  ∀ a b : Num64,
    (Arith.isNaN a = true ∨ Arith.isNaN b = true →
      Arith.lt a b = false ∧ Arith.eq a b = false ∧ Arith.gt a b = false ∧ Arith.le a b = false) ∧
    (Arith.isNaN a = false → Arith.isNaN b = false →
      (Arith.lt a b = true ∧ Arith.eq a b = false ∧ Arith.gt a b = false) ∨
      (Arith.lt a b = false ∧ Arith.eq a b = true ∧ Arith.gt a b = false) ∨
      (Arith.lt a b = false ∧ Arith.eq a b = false ∧ Arith.gt a b = true)) ∧
    Arith.eq posZero negZero = true ∧
    (Arith.finite a = true → Arith.finite b = true → (Arith.lt a b = true ↔ Arith.value a < Arith.value b))
end

