-- ==== Sys2Proof/Laws/Arith.lean ====
section
/-! SUPPORT. Signs, magnitudes, comparisons, and the rounding of a number that needs none. -/

namespace Sys2Proof.Laws

open Sys2Proof.Machine Sys2Proof.Machine.Arith

variable (q a b : Num64)

theorem magBits_lt : magBits a < 2 ^ 63 := Nat.mod_lt _ (by norm_num)

/-- A number is its sign bit and the bits below. -/
theorem toNat_eq : a.toNat = (if signBit a then 2 ^ 63 else 0) + magBits a := by
  have h := a.isLt
  unfold signBit magBits
  rw [BitVec.msb_eq_decide]
  by_cases hs : 2 ^ 63 ≤ a.toNat
  · rw [if_pos (by simpa using hs)]; omega
  · rw [if_neg (by simpa using hs)]; omega

/-- A packed number read back. -/
@[simp] theorem magBits_pack (sgn : Bool) (m : Nat) (h : m < 2 ^ 63) : magBits (pack sgn m) = m := by
  unfold magBits pack
  cases sgn <;> simp <;> omega

@[simp] theorem signBit_pack (sgn : Bool) (m : Nat) (h : m < 2 ^ 63) : signBit (pack sgn m) = sgn := by
  unfold signBit pack
  rw [BitVec.msb_eq_decide]
  cases sgn <;> simp <;> omega

/-- Packing a number's own sign and magnitude gives it back. -/
theorem pack_self : pack (signBit a) (magBits a) = a := by
  apply BitVec.eq_of_toNat_eq
  have h := toNat_eq a
  have hl := a.isLt
  unfold pack
  cases hs : signBit a <;> simp [hs] at h ⊢ <;> omega

theorem fracField_eq : fracField a = magBits a % 2 ^ 52 := by
  unfold fracField magBits
  omega

theorem expField_lt : expField a < 2 ^ 11 := by
  have := magBits_lt a
  unfold expField
  omega

/-- Exponent and fraction make up the magnitude. -/
theorem magBits_eq : magBits a = expField a * 2 ^ 52 + fracField a := by
  rw [fracField_eq]
  unfold expField
  omega

theorem fracField_lt : fracField a < 2 ^ 52 := Nat.mod_lt _ (by norm_num)

theorem log2_significand (m k : Nat) (hl : 2 ^ 52 ≤ m) (hu : m < 2 ^ 53) : (m * 2 ^ k).log2 = 52 + k := by
  have h1 : 2 ^ (52 + k) ≤ m * 2 ^ k := by
    rw [pow_add]; exact Nat.mul_le_mul_right _ hl
  have h2 : m * 2 ^ k < 2 ^ (52 + k + 1) := by
    rw [show 52 + k + 1 = 53 + k by omega, pow_add]
    exact Nat.mul_lt_mul_of_pos_right hu (by positivity)
  exact (Nat.log2_eq_iff (by have : 0 < 2 ^ (52 + k) := by positivity
                             omega)).mpr ⟨h1, h2⟩

/-- A quotient that is a 53-bit number of steps 2^k needs no rounding. -/
theorem roundMag_exact (m k den : Nat) (hd : 0 < den) (hu : m < 2 ^ 53) (hk : k = 0 ∨ 2 ^ 52 ≤ m)
    (hb : k * 2 ^ 52 + m ≤ infMag) : roundMag (m * (den * 2 ^ k)) den = k * 2 ^ 52 + m := by
  have hdk : 0 < den * 2 ^ k := by positivity
  have hq : m * (den * 2 ^ k) / den = m * 2 ^ k := by
    rw [show m * (den * 2 ^ k) = den * (m * 2 ^ k) by ring, Nat.mul_div_cancel_left _ hd]
  have hl : (m * 2 ^ k).log2 - 52 = k := by
    rcases hk with rfl | hk
    · by_cases hz : m = 0
      · simp [hz]
      · have : (m * 2 ^ 0).log2 < 53 := (Nat.log2_lt (by simpa using hz)).mpr (by simpa using hu)
        omega
    · rw [log2_significand m k hk hu]; omega
  unfold roundMag
  simp only [hq, hl, Nat.mul_div_cancel _ hdk, Nat.mul_mod_left, mul_zero, Nat.not_lt_zero, decide_false,
    Bool.false_or]
  rw [decide_eq_false (by omega : ¬0 = den * 2 ^ k)]
  simpa using hb

/-- A finite number's units are a 53-bit number of steps. -/
theorem units_eq (h : finite a = true) : ∃ m k, units a = m * 2 ^ k ∧ m < 2 ^ 53 ∧ (k = 0 ∨ 2 ^ 52 ≤ m) ∧
    magBits a = k * 2 ^ 52 + m ∧ magBits a < infMag := by
  have hfin : magBits a < infMag := by simpa [finite] using h
  have hm := magBits_eq a
  have hf := fracField_lt a
  by_cases he : expField a = 0
  · refine ⟨fracField a, 0, ?_, by omega, .inl rfl, ?_, hfin⟩
    · unfold units
      rw [if_pos he, pow_zero, mul_one]
    · rw [hm, he]
  · refine ⟨2 ^ 52 + fracField a, expField a - 1, ?_, by omega, .inr (by omega), ?_, hfin⟩
    · unfold units
      rw [if_neg he]
    · rw [hm]
      omega

/-- Rounding a finite number, over any denominator, gives it back. -/
theorem roundMag_units (den : Nat) (hd : 0 < den) (h : finite a = true) :
    roundMag (units a * den) den = magBits a := by
  obtain ⟨m, k, hu, hm, hk, hmag, hfin⟩ := units_eq a h
  rw [hu, show m * 2 ^ k * den = m * (den * 2 ^ k) by ring, roundMag_exact m k den hd hm hk (by omega), hmag]

/-- Zero is what has no units. -/
theorem units_eq_zero (h : finite a = true) : units a = 0 ↔ isZero a = true := by
  obtain ⟨m, k, hu, -, hk, hmag, -⟩ := units_eq a h
  have hp : 0 < 2 ^ k := by positivity
  simp only [isZero, decide_eq_true_eq, hu, hmag, Nat.mul_eq_zero]
  omega

/-- A comparison with a NaN is false. -/
theorem lt_nan_left (h : isNaN a = true) : lt a b = false := by simp [lt, h]

theorem lt_nan_right (h : isNaN b = true) : lt a b = false := by simp [lt, h]

theorem eq_nan_left (h : isNaN a = true) : Arith.eq a b = false := by simp [Arith.eq, h]

theorem eq_nan_right (h : isNaN b = true) : Arith.eq a b = false := by simp [Arith.eq, h]

theorem add_nan (h : isNaN a = true ∨ isNaN b = true) : add q a b = q := by
  unfold add
  rw [if_pos (by simpa using h)]

theorem mul_nan (h : isNaN a = true ∨ isNaN b = true) : mul q a b = q := by
  unfold mul
  rw [if_pos (by simpa using h)]

theorem div_nan (h : isNaN a = true ∨ isNaN b = true) : div q a b = q := by
  unfold div
  rw [if_pos (by simpa using h)]

/-- Where an operation answers a number, with some NaN to answer, it answers that number whatever word it was given to
answer for a NaN; and its operands are numbers. -/
theorem add_congr (q₀ : Num64) (hq : isNaN q₀ = true) (h : isNaN (add q₀ a b) = false) :
    add q a b = add q₀ a b ∧ isNaN a = false ∧ isNaN b = false := by
  unfold add at h ⊢
  split_ifs at h ⊢ <;> simp_all

theorem mul_congr (q₀ : Num64) (hq : isNaN q₀ = true) (h : isNaN (mul q₀ a b) = false) :
    mul q a b = mul q₀ a b ∧ isNaN a = false ∧ isNaN b = false := by
  unfold mul at h ⊢
  dsimp only at h ⊢
  generalize 2 ^ 1074 = d at h ⊢
  split_ifs at h ⊢ <;> simp_all

@[simp] theorem isNaN_neg : isNaN (neg a) = isNaN a := by
  have h : magBits (neg a) = magBits a := by
    unfold magBits neg
    rw [BitVec.toNat_xor]
    have : ∀ k : Nat, (a.toNat ^^^ k) % 2 ^ 63 = a.toNat % 2 ^ 63 ^^^ k % 2 ^ 63 := fun k => Nat.xor_mod_two_pow
    simpa using this 9223372036854775808
  unfold isNaN
  rw [h]

theorem sub_congr (q₀ : Num64) (hq : isNaN q₀ = true) (h : isNaN (sub q₀ a b) = false) :
    sub q a b = sub q₀ a b ∧ isNaN a = false ∧ isNaN b = false := by
  have := add_congr q a (neg b) q₀ hq h
  rwa [isNaN_neg] at this

end Sys2Proof.Laws
end

