-- ==== Sys2Proof/Laws/Sparse.lean ====
section
/-! SUPPORT. Read after write, and the canonical form, for register files and window memory. -/

namespace Sys2Proof.Laws

open Sys2Proof.Machine

section File

variable {α : Type} (d : α) (m : List (Nat × α)) (k j : Nat) (v : α)

@[simp] theorem read_nil : Sparse.read d [] k = d := rfl

theorem read_erase_same : Sparse.read d (Sparse.erase m k) k = d := by
  induction m with
  | nil => rfl
  | cons e m ih =>
    by_cases h : e.1 = k
    · simpa [Sparse.erase, h] using ih
    · simpa [Sparse.erase, h, Sparse.read] using ih

theorem read_erase_other (h : j ≠ k) : Sparse.read d (Sparse.erase m k) j = Sparse.read d m j := by
  induction m with
  | nil => rfl
  | cons e m ih =>
    by_cases he : e.1 = k
    · have : e.1 ≠ j := fun hj => h (hj ▸ he)
      simpa [Sparse.erase, he, Sparse.read, this, Ne.symm h] using ih
    · by_cases hj : e.1 = j
      · simp [Sparse.erase, Sparse.read, hj, h]
      · simpa [Sparse.erase, he, Sparse.read, hj] using ih

theorem read_insert_same (h : ∀ e ∈ m, e.1 ≠ k) : Sparse.read d (Sparse.insert k v m) k = v := by
  induction m with
  | nil => simp [Sparse.insert, Sparse.read]
  | cons e m ih =>
    have he : e.1 ≠ k := h e (by simp)
    have hm := ih fun e' h' => h e' (by simp [h'])
    obtain ⟨i, w⟩ := e
    by_cases hk : k < i
    · simp [Sparse.insert, hk, Sparse.read]
    · simpa [Sparse.insert, hk, Sparse.read, he] using hm

theorem read_insert_other (h : j ≠ k) : Sparse.read d (Sparse.insert k v m) j = Sparse.read d m j := by
  induction m with
  | nil => simp [Sparse.insert, Sparse.read, Ne.symm h]
  | cons e m ih =>
    obtain ⟨i, w⟩ := e
    by_cases hk : k < i
    · simp [Sparse.insert, hk, Sparse.read, Ne.symm h]
    · simp [Sparse.insert, hk, Sparse.read, ih]

theorem mem_erase (e : Nat × α) : e ∈ Sparse.erase m k ↔ e ∈ m ∧ e.1 ≠ k := by
  simp [Sparse.erase]

/-- Read after write, same key, for every list. -/
@[simp] theorem read_write_same [DecidableEq α] : Sparse.read d (Sparse.write d m k v) k = v := by
  unfold Sparse.write
  split
  · next h => rw [read_erase_same, h]
  · exact read_insert_same _ _ _ _ fun e he => ((mem_erase m k e).mp he).2

/-- Read after write, other key, for every list. -/
theorem read_write_other [DecidableEq α] (h : j ≠ k) : Sparse.read d (Sparse.write d m k v) j = Sparse.read d m j := by
  unfold Sparse.write
  split
  · exact read_erase_other _ _ _ _ h
  · rw [read_insert_other _ _ _ _ _ h, read_erase_other _ _ _ _ h]

theorem read_write [DecidableEq α] : Sparse.read d (Sparse.write d m k v) j = if j = k then v else Sparse.read d m j := by
  by_cases h : j = k
  · subst h; simp
  · simp [h, read_write_other d m k j v h]

theorem mem_insert (e : Nat × α) : e ∈ Sparse.insert k v m ↔ e = (k, v) ∨ e ∈ m := by
  induction m with
  | nil => simp [Sparse.insert]
  | cons a m ih =>
    obtain ⟨i, w⟩ := a
    by_cases hk : k < i
    · simp [Sparse.insert, hk]
    · simp [Sparse.insert, hk, ih, or_left_comm]

theorem erase_wf (h : Sparse.wf d m) : Sparse.wf d (Sparse.erase m k) :=
  ⟨h.1.filter _, fun e he => h.2 e ((mem_erase m k e).mp he).1⟩

theorem insert_wf (h : Sparse.wf d m) (hk : ∀ e ∈ m, e.1 ≠ k) (hv : v ≠ d) : Sparse.wf d (Sparse.insert k v m) := by
  refine ⟨?_, fun e he => ?_⟩
  · have hp := h.1
    clear h
    induction m with
    | nil => simp [Sparse.insert]
    | cons a m ih =>
      obtain ⟨i, w⟩ := a
      have hi : i ≠ k := hk (i, w) (by simp)
      rw [List.pairwise_cons] at hp
      by_cases hlt : k < i
      · simp only [Sparse.insert, hlt, if_true, List.pairwise_cons]
        refine ⟨fun e he => ?_, hp⟩
        rcases List.mem_cons.mp he with rfl | he
        · exact hlt
        · exact lt_trans hlt (hp.1 e he)
      · simp only [Sparse.insert, hlt, if_false, List.pairwise_cons]
        refine ⟨fun e he => ?_, ih (fun e he => hk e (by simp [he])) hp.2⟩
        rcases (mem_insert m k v e).mp he with rfl | he
        · change i < k
          omega
        · exact hp.1 e he
  · rcases (mem_insert m k v e).mp he with rfl | he
    · exact hv
    · exact h.2 e he

/-- A write keeps the canonical form. -/
theorem write_wf [DecidableEq α] (h : Sparse.wf d m) : Sparse.wf d (Sparse.write d m k v) := by
  unfold Sparse.write
  split
  · exact erase_wf _ _ _ h
  · next hv => exact insert_wf _ _ _ _ (erase_wf _ _ _ h) (fun e he => ((mem_erase m k e).mp he).2) hv

end File

section Mem

variable (m : Memory) (a b n : Nat) (v : Num64) (vs : List Num64)

theorem memory_read_write : Memory.read (Memory.write m a v) b = if b = a then v else Memory.read m b :=
  read_write _ _ _ _ _

theorem memory_write_wf (h : Memory.wf m) : Memory.wf (Memory.write m a v) := write_wf _ _ _ _ h

/-- A run of writes keeps the canonical form. -/
theorem memory_writeFrom_wf (h : Memory.wf m) : Memory.wf (Memory.writeFrom m a vs) := by
  induction vs generalizing m a with
  | nil => exact h
  | cons v vs ih => exact ih _ _ (memory_write_wf _ _ _ h)

@[simp] theorem memory_readFrom_length : (Memory.readFrom m a n).length = n := by
  induction n generalizing a with
  | zero => rfl
  | succ n ih => simp [Memory.readFrom, ih]

theorem memory_readFrom_getElem? (i : Nat) (h : i < n) :
    (Memory.readFrom m a n)[i]? = some (Memory.read m (a + i)) := by
  induction n generalizing a i with
  | zero => omega
  | succ n ih =>
    cases i with
    | zero => simp [Memory.readFrom]
    | succ i => simp [Memory.readFrom, ih (a + 1) i (by omega), Nat.add_assoc, Nat.add_comm 1 i]

/-- Outside the written run every address reads as before. -/
theorem memory_read_writeFrom_outside (h : b < a ∨ a + vs.length ≤ b) :
    Memory.read (Memory.writeFrom m a vs) b = Memory.read m b := by
  induction vs generalizing m a with
  | nil => rfl
  | cons v vs ih =>
    simp only [List.length_cons] at h
    rw [Memory.writeFrom, ih _ _ (by omega), memory_read_write, if_neg (by omega)]

/-- Inside the written run an address reads its element. -/
theorem memory_read_writeFrom_inside (i : Nat) (h : i < vs.length) :
    Memory.read (Memory.writeFrom m a vs) (a + i) = vs[i] := by
  induction vs generalizing m a i with
  | nil => simp at h
  | cons v vs ih =>
    cases i with
    | zero =>
      have := memory_read_writeFrom_outside (Memory.write m a v) (a + 1) a vs (Or.inl (Nat.lt_succ_self a))
      simpa [Memory.writeFrom, memory_read_write] using this
    | succ i =>
      have := ih (Memory.write m a v) (a + 1) i (by simpa using h)
      simpa [Memory.writeFrom, Nat.add_assoc, Nat.add_comm 1 i] using this

/-- MemRead after MemWrite of the same run gives the elements written. -/
theorem memory_readFrom_writeFrom_same : Memory.readFrom (Memory.writeFrom m a vs) a vs.length = vs := by
  apply List.ext_getElem?
  intro i
  by_cases h : i < vs.length
  · rw [memory_readFrom_getElem? _ _ _ _ h, memory_read_writeFrom_inside _ _ _ _ h, List.getElem?_eq_getElem h]
  · rw [List.getElem?_eq_none (by simpa using h), List.getElem?_eq_none (by simpa using h)]

/-- MemRead sees nothing of a MemWrite to a run that does not meet its own. -/
theorem memory_readFrom_writeFrom_apart (h : b + n ≤ a ∨ a + vs.length ≤ b) :
    Memory.readFrom (Memory.writeFrom m a vs) b n = Memory.readFrom m b n := by
  apply List.ext_getElem?
  intro i
  by_cases hi : i < n
  · rw [memory_readFrom_getElem? _ _ _ _ hi, memory_readFrom_getElem? _ _ _ _ hi,
      memory_read_writeFrom_outside _ _ _ _ (by omega)]
  · rw [List.getElem?_eq_none (by simpa using hi), List.getElem?_eq_none (by simpa using hi)]

end Mem

end Sys2Proof.Laws
end

