-- ==== Sys2Proof/Laws/State.lean ====
section
/-! SUPPORT. What each named update of State leaves alone, field by field and register by register, and what it
writes. Every lemma is true by rfl; no later proof unfolds a record update. -/

namespace Sys2Proof.Laws

open Sys2Proof.Machine

variable (s : State)

@[simp] theorem setChan_params (c : Nat) (r : ChanRegs) : (setChan c r s).params = s.params := rfl
@[simp] theorem setChan_stages (c : Nat) (r : ChanRegs) : (setChan c r s).stages = s.stages := rfl
@[simp] theorem setChan_acts (c : Nat) (r : ChanRegs) : (setChan c r s).acts = s.acts := rfl
@[simp] theorem setChan_mem (c : Nat) (r : ChanRegs) : (setChan c r s).mem = s.mem := rfl
@[simp] theorem setChan_portS (c : Nat) (r : ChanRegs) : (setChan c r s).portS = s.portS := rfl
@[simp] theorem setChan_portD (c : Nat) (r : ChanRegs) : (setChan c r s).portD = s.portD := rfl
@[simp] theorem setChan_active (c : Nat) (r : ChanRegs) : (setChan c r s).active = s.active := rfl
@[simp] theorem setChan_events (c : Nat) (r : ChanRegs) : (setChan c r s).events = s.events := rfl
@[simp] theorem setChan_boardAnswers (c : Nat) (r : ChanRegs) : (setChan c r s).boardAnswers = s.boardAnswers := rfl
@[simp] theorem setChan_boardAcks (c : Nat) (r : ChanRegs) : (setChan c r s).boardAcks = s.boardAcks := rfl
@[simp] theorem setChan_boardReads (c : Nat) (r : ChanRegs) : (setChan c r s).boardReads = s.boardReads := rfl
@[simp] theorem setChan_boardWrites (c : Nat) (r : ChanRegs) : (setChan c r s).boardWrites = s.boardWrites := rfl
@[simp] theorem setChan_responses (c : Nat) (r : ChanRegs) : (setChan c r s).responses = s.responses := rfl
@[simp] theorem setChan_nanDraws (c : Nat) (r : ChanRegs) : (setChan c r s).nanDraws = s.nanDraws := rfl
@[simp] theorem setChan_magDraws (c : Nat) (r : ChanRegs) : (setChan c r s).magDraws = s.magDraws := rfl
@[simp] theorem setChan_stage (c : Nat) (r : ChanRegs) (i j : Nat) : (setChan c r s).stage i j = s.stage i j := rfl
@[simp] theorem setChan_act (c : Nat) (r : ChanRegs) (j : Nat) : (setChan c r s).act j = s.act j := rfl
@[simp] theorem setChan_win (c : Nat) (r : ChanRegs) (i : Nat) (w' : WinSel) (j : Nat) : (setChan c r s).win i w' j = s.win i w' j := rfl

@[simp] theorem setStage_params (c k : Nat) (r : StageRegs) : (setStage c k r s).params = s.params := rfl
@[simp] theorem setStage_chans (c k : Nat) (r : StageRegs) : (setStage c k r s).chans = s.chans := rfl
@[simp] theorem setStage_acts (c k : Nat) (r : StageRegs) : (setStage c k r s).acts = s.acts := rfl
@[simp] theorem setStage_mem (c k : Nat) (r : StageRegs) : (setStage c k r s).mem = s.mem := rfl
@[simp] theorem setStage_portS (c k : Nat) (r : StageRegs) : (setStage c k r s).portS = s.portS := rfl
@[simp] theorem setStage_portD (c k : Nat) (r : StageRegs) : (setStage c k r s).portD = s.portD := rfl
@[simp] theorem setStage_active (c k : Nat) (r : StageRegs) : (setStage c k r s).active = s.active := rfl
@[simp] theorem setStage_events (c k : Nat) (r : StageRegs) : (setStage c k r s).events = s.events := rfl
@[simp] theorem setStage_boardAnswers (c k : Nat) (r : StageRegs) : (setStage c k r s).boardAnswers = s.boardAnswers := rfl
@[simp] theorem setStage_boardAcks (c k : Nat) (r : StageRegs) : (setStage c k r s).boardAcks = s.boardAcks := rfl
@[simp] theorem setStage_boardReads (c k : Nat) (r : StageRegs) : (setStage c k r s).boardReads = s.boardReads := rfl
@[simp] theorem setStage_boardWrites (c k : Nat) (r : StageRegs) : (setStage c k r s).boardWrites = s.boardWrites := rfl
@[simp] theorem setStage_responses (c k : Nat) (r : StageRegs) : (setStage c k r s).responses = s.responses := rfl
@[simp] theorem setStage_nanDraws (c k : Nat) (r : StageRegs) : (setStage c k r s).nanDraws = s.nanDraws := rfl
@[simp] theorem setStage_magDraws (c k : Nat) (r : StageRegs) : (setStage c k r s).magDraws = s.magDraws := rfl
@[simp] theorem setStage_chan (c k : Nat) (r : StageRegs) (j : Nat) : (setStage c k r s).chan j = s.chan j := rfl
@[simp] theorem setStage_act (c k : Nat) (r : StageRegs) (j : Nat) : (setStage c k r s).act j = s.act j := rfl
@[simp] theorem setStage_win (c k : Nat) (r : StageRegs) (i : Nat) (w' : WinSel) (j : Nat) : (setStage c k r s).win i w' j = s.win i w' j := rfl

@[simp] theorem setAct_params (a : Nat) (r : ActRegs) : (setAct a r s).params = s.params := rfl
@[simp] theorem setAct_chans (a : Nat) (r : ActRegs) : (setAct a r s).chans = s.chans := rfl
@[simp] theorem setAct_stages (a : Nat) (r : ActRegs) : (setAct a r s).stages = s.stages := rfl
@[simp] theorem setAct_mem (a : Nat) (r : ActRegs) : (setAct a r s).mem = s.mem := rfl
@[simp] theorem setAct_portS (a : Nat) (r : ActRegs) : (setAct a r s).portS = s.portS := rfl
@[simp] theorem setAct_portD (a : Nat) (r : ActRegs) : (setAct a r s).portD = s.portD := rfl
@[simp] theorem setAct_active (a : Nat) (r : ActRegs) : (setAct a r s).active = s.active := rfl
@[simp] theorem setAct_events (a : Nat) (r : ActRegs) : (setAct a r s).events = s.events := rfl
@[simp] theorem setAct_boardAnswers (a : Nat) (r : ActRegs) : (setAct a r s).boardAnswers = s.boardAnswers := rfl
@[simp] theorem setAct_boardAcks (a : Nat) (r : ActRegs) : (setAct a r s).boardAcks = s.boardAcks := rfl
@[simp] theorem setAct_boardReads (a : Nat) (r : ActRegs) : (setAct a r s).boardReads = s.boardReads := rfl
@[simp] theorem setAct_boardWrites (a : Nat) (r : ActRegs) : (setAct a r s).boardWrites = s.boardWrites := rfl
@[simp] theorem setAct_responses (a : Nat) (r : ActRegs) : (setAct a r s).responses = s.responses := rfl
@[simp] theorem setAct_nanDraws (a : Nat) (r : ActRegs) : (setAct a r s).nanDraws = s.nanDraws := rfl
@[simp] theorem setAct_magDraws (a : Nat) (r : ActRegs) : (setAct a r s).magDraws = s.magDraws := rfl
@[simp] theorem setAct_chan (a : Nat) (r : ActRegs) (j : Nat) : (setAct a r s).chan j = s.chan j := rfl
@[simp] theorem setAct_stage (a : Nat) (r : ActRegs) (i j : Nat) : (setAct a r s).stage i j = s.stage i j := rfl
@[simp] theorem setAct_win (a : Nat) (r : ActRegs) (i : Nat) (w' : WinSel) (j : Nat) : (setAct a r s).win i w' j = s.win i w' j := rfl

@[simp] theorem memWrite_params (c : Nat) (w : WinSel) (o : Nat) (vs : List Num64) : (memWrite c w o vs s).params = s.params := rfl
@[simp] theorem memWrite_chans (c : Nat) (w : WinSel) (o : Nat) (vs : List Num64) : (memWrite c w o vs s).chans = s.chans := rfl
@[simp] theorem memWrite_stages (c : Nat) (w : WinSel) (o : Nat) (vs : List Num64) : (memWrite c w o vs s).stages = s.stages := rfl
@[simp] theorem memWrite_acts (c : Nat) (w : WinSel) (o : Nat) (vs : List Num64) : (memWrite c w o vs s).acts = s.acts := rfl
@[simp] theorem memWrite_portS (c : Nat) (w : WinSel) (o : Nat) (vs : List Num64) : (memWrite c w o vs s).portS = s.portS := rfl
@[simp] theorem memWrite_portD (c : Nat) (w : WinSel) (o : Nat) (vs : List Num64) : (memWrite c w o vs s).portD = s.portD := rfl
@[simp] theorem memWrite_active (c : Nat) (w : WinSel) (o : Nat) (vs : List Num64) : (memWrite c w o vs s).active = s.active := rfl
@[simp] theorem memWrite_events (c : Nat) (w : WinSel) (o : Nat) (vs : List Num64) : (memWrite c w o vs s).events = s.events := rfl
@[simp] theorem memWrite_boardAnswers (c : Nat) (w : WinSel) (o : Nat) (vs : List Num64) : (memWrite c w o vs s).boardAnswers = s.boardAnswers := rfl
@[simp] theorem memWrite_boardAcks (c : Nat) (w : WinSel) (o : Nat) (vs : List Num64) : (memWrite c w o vs s).boardAcks = s.boardAcks := rfl
@[simp] theorem memWrite_boardReads (c : Nat) (w : WinSel) (o : Nat) (vs : List Num64) : (memWrite c w o vs s).boardReads = s.boardReads := rfl
@[simp] theorem memWrite_boardWrites (c : Nat) (w : WinSel) (o : Nat) (vs : List Num64) : (memWrite c w o vs s).boardWrites = s.boardWrites := rfl
@[simp] theorem memWrite_responses (c : Nat) (w : WinSel) (o : Nat) (vs : List Num64) : (memWrite c w o vs s).responses = s.responses := rfl
@[simp] theorem memWrite_nanDraws (c : Nat) (w : WinSel) (o : Nat) (vs : List Num64) : (memWrite c w o vs s).nanDraws = s.nanDraws := rfl
@[simp] theorem memWrite_magDraws (c : Nat) (w : WinSel) (o : Nat) (vs : List Num64) : (memWrite c w o vs s).magDraws = s.magDraws := rfl
@[simp] theorem memWrite_chan (c : Nat) (w : WinSel) (o : Nat) (vs : List Num64) (j : Nat) : (memWrite c w o vs s).chan j = s.chan j := rfl
@[simp] theorem memWrite_stage (c : Nat) (w : WinSel) (o : Nat) (vs : List Num64) (i j : Nat) : (memWrite c w o vs s).stage i j = s.stage i j := rfl
@[simp] theorem memWrite_act (c : Nat) (w : WinSel) (o : Nat) (vs : List Num64) (j : Nat) : (memWrite c w o vs s).act j = s.act j := rfl

@[simp] theorem respondOk_params (m : Mnemonic) (f : Bool) (ds : List Word) : (respondOk m f ds s).params = s.params := rfl
@[simp] theorem respondOk_chans (m : Mnemonic) (f : Bool) (ds : List Word) : (respondOk m f ds s).chans = s.chans := rfl
@[simp] theorem respondOk_stages (m : Mnemonic) (f : Bool) (ds : List Word) : (respondOk m f ds s).stages = s.stages := rfl
@[simp] theorem respondOk_acts (m : Mnemonic) (f : Bool) (ds : List Word) : (respondOk m f ds s).acts = s.acts := rfl
@[simp] theorem respondOk_mem (m : Mnemonic) (f : Bool) (ds : List Word) : (respondOk m f ds s).mem = s.mem := rfl
@[simp] theorem respondOk_portS (m : Mnemonic) (f : Bool) (ds : List Word) : (respondOk m f ds s).portS = s.portS := rfl
@[simp] theorem respondOk_portD (m : Mnemonic) (f : Bool) (ds : List Word) : (respondOk m f ds s).portD = s.portD := rfl
@[simp] theorem respondOk_active (m : Mnemonic) (f : Bool) (ds : List Word) : (respondOk m f ds s).active = s.active := rfl
@[simp] theorem respondOk_events (m : Mnemonic) (f : Bool) (ds : List Word) : (respondOk m f ds s).events = s.events := rfl
@[simp] theorem respondOk_boardAnswers (m : Mnemonic) (f : Bool) (ds : List Word) : (respondOk m f ds s).boardAnswers = s.boardAnswers := rfl
@[simp] theorem respondOk_boardAcks (m : Mnemonic) (f : Bool) (ds : List Word) : (respondOk m f ds s).boardAcks = s.boardAcks := rfl
@[simp] theorem respondOk_boardReads (m : Mnemonic) (f : Bool) (ds : List Word) : (respondOk m f ds s).boardReads = s.boardReads := rfl
@[simp] theorem respondOk_boardWrites (m : Mnemonic) (f : Bool) (ds : List Word) : (respondOk m f ds s).boardWrites = s.boardWrites := rfl
@[simp] theorem respondOk_nanDraws (m : Mnemonic) (f : Bool) (ds : List Word) : (respondOk m f ds s).nanDraws = s.nanDraws := rfl
@[simp] theorem respondOk_magDraws (m : Mnemonic) (f : Bool) (ds : List Word) : (respondOk m f ds s).magDraws = s.magDraws := rfl
@[simp] theorem respondOk_chan (m : Mnemonic) (f : Bool) (ds : List Word) (j : Nat) : (respondOk m f ds s).chan j = s.chan j := rfl
@[simp] theorem respondOk_stage (m : Mnemonic) (f : Bool) (ds : List Word) (i j : Nat) : (respondOk m f ds s).stage i j = s.stage i j := rfl
@[simp] theorem respondOk_act (m : Mnemonic) (f : Bool) (ds : List Word) (j : Nat) : (respondOk m f ds s).act j = s.act j := rfl
@[simp] theorem respondOk_win (m : Mnemonic) (f : Bool) (ds : List Word) (i : Nat) (w' : WinSel) (j : Nat) : (respondOk m f ds s).win i w' j = s.win i w' j := rfl

@[simp] theorem raise_params (op : BitVec 8) (st : Status) : (raise op st s).params = s.params := rfl
@[simp] theorem raise_chans (op : BitVec 8) (st : Status) : (raise op st s).chans = s.chans := rfl
@[simp] theorem raise_stages (op : BitVec 8) (st : Status) : (raise op st s).stages = s.stages := rfl
@[simp] theorem raise_acts (op : BitVec 8) (st : Status) : (raise op st s).acts = s.acts := rfl
@[simp] theorem raise_mem (op : BitVec 8) (st : Status) : (raise op st s).mem = s.mem := rfl
@[simp] theorem raise_portS (op : BitVec 8) (st : Status) : (raise op st s).portS = s.portS := rfl
@[simp] theorem raise_portD (op : BitVec 8) (st : Status) : (raise op st s).portD = s.portD := rfl
@[simp] theorem raise_active (op : BitVec 8) (st : Status) : (raise op st s).active = s.active := rfl
@[simp] theorem raise_events (op : BitVec 8) (st : Status) : (raise op st s).events = s.events := rfl
@[simp] theorem raise_boardAnswers (op : BitVec 8) (st : Status) : (raise op st s).boardAnswers = s.boardAnswers := rfl
@[simp] theorem raise_boardAcks (op : BitVec 8) (st : Status) : (raise op st s).boardAcks = s.boardAcks := rfl
@[simp] theorem raise_boardReads (op : BitVec 8) (st : Status) : (raise op st s).boardReads = s.boardReads := rfl
@[simp] theorem raise_boardWrites (op : BitVec 8) (st : Status) : (raise op st s).boardWrites = s.boardWrites := rfl
@[simp] theorem raise_nanDraws (op : BitVec 8) (st : Status) : (raise op st s).nanDraws = s.nanDraws := rfl
@[simp] theorem raise_magDraws (op : BitVec 8) (st : Status) : (raise op st s).magDraws = s.magDraws := rfl
@[simp] theorem raise_chan (op : BitVec 8) (st : Status) (j : Nat) : (raise op st s).chan j = s.chan j := rfl
@[simp] theorem raise_stage (op : BitVec 8) (st : Status) (i j : Nat) : (raise op st s).stage i j = s.stage i j := rfl
@[simp] theorem raise_act (op : BitVec 8) (st : Status) (j : Nat) : (raise op st s).act j = s.act j := rfl
@[simp] theorem raise_win (op : BitVec 8) (st : Status) (i : Nat) (w' : WinSel) (j : Nat) : (raise op st s).win i w' j = s.win i w' j := rfl

@[simp] theorem drawMap_params : (drawMap s).params = s.params := rfl
@[simp] theorem drawMap_chans : (drawMap s).chans = s.chans := rfl
@[simp] theorem drawMap_stages : (drawMap s).stages = s.stages := rfl
@[simp] theorem drawMap_acts : (drawMap s).acts = s.acts := rfl
@[simp] theorem drawMap_mem : (drawMap s).mem = s.mem := rfl
@[simp] theorem drawMap_portS : (drawMap s).portS = s.portS := rfl
@[simp] theorem drawMap_portD : (drawMap s).portD = s.portD := rfl
@[simp] theorem drawMap_active : (drawMap s).active = s.active := rfl
@[simp] theorem drawMap_events : (drawMap s).events = s.events := rfl
@[simp] theorem drawMap_boardAnswers : (drawMap s).boardAnswers = s.boardAnswers := rfl
@[simp] theorem drawMap_boardAcks : (drawMap s).boardAcks = s.boardAcks := rfl
@[simp] theorem drawMap_boardReads : (drawMap s).boardReads = s.boardReads := rfl
@[simp] theorem drawMap_boardWrites : (drawMap s).boardWrites = s.boardWrites := rfl
@[simp] theorem drawMap_responses : (drawMap s).responses = s.responses := rfl
@[simp] theorem drawMap_magDraws : (drawMap s).magDraws = s.magDraws := rfl
@[simp] theorem drawMap_chan (j : Nat) : (drawMap s).chan j = s.chan j := rfl
@[simp] theorem drawMap_stage (i j : Nat) : (drawMap s).stage i j = s.stage i j := rfl
@[simp] theorem drawMap_act (j : Nat) : (drawMap s).act j = s.act j := rfl
@[simp] theorem drawMap_win (i : Nat) (w' : WinSel) (j : Nat) : (drawMap s).win i w' j = s.win i w' j := rfl

@[simp] theorem boardRead_params (c : BitVec 8) : (boardRead c s).2.params = s.params := rfl
@[simp] theorem boardRead_chans (c : BitVec 8) : (boardRead c s).2.chans = s.chans := rfl
@[simp] theorem boardRead_stages (c : BitVec 8) : (boardRead c s).2.stages = s.stages := rfl
@[simp] theorem boardRead_acts (c : BitVec 8) : (boardRead c s).2.acts = s.acts := rfl
@[simp] theorem boardRead_mem (c : BitVec 8) : (boardRead c s).2.mem = s.mem := rfl
@[simp] theorem boardRead_portS (c : BitVec 8) : (boardRead c s).2.portS = s.portS := rfl
@[simp] theorem boardRead_portD (c : BitVec 8) : (boardRead c s).2.portD = s.portD := rfl
@[simp] theorem boardRead_active (c : BitVec 8) : (boardRead c s).2.active = s.active := rfl
@[simp] theorem boardRead_events (c : BitVec 8) : (boardRead c s).2.events = s.events := rfl
@[simp] theorem boardRead_boardAcks (c : BitVec 8) : (boardRead c s).2.boardAcks = s.boardAcks := rfl
@[simp] theorem boardRead_boardWrites (c : BitVec 8) : (boardRead c s).2.boardWrites = s.boardWrites := rfl
@[simp] theorem boardRead_responses (c : BitVec 8) : (boardRead c s).2.responses = s.responses := rfl
@[simp] theorem boardRead_nanDraws (c : BitVec 8) : (boardRead c s).2.nanDraws = s.nanDraws := rfl
@[simp] theorem boardRead_magDraws (c : BitVec 8) : (boardRead c s).2.magDraws = s.magDraws := rfl
@[simp] theorem boardRead_chan (c : BitVec 8) (j : Nat) : (boardRead c s).2.chan j = s.chan j := rfl
@[simp] theorem boardRead_stage (c : BitVec 8) (i j : Nat) : (boardRead c s).2.stage i j = s.stage i j := rfl
@[simp] theorem boardRead_act (c : BitVec 8) (j : Nat) : (boardRead c s).2.act j = s.act j := rfl
@[simp] theorem boardRead_win (c : BitVec 8) (i : Nat) (w' : WinSel) (j : Nat) : (boardRead c s).2.win i w' j = s.win i w' j := rfl

@[simp] theorem boardWrite_params (a : BitVec 8) (v : Num64) : (boardWrite a v s).2.params = s.params := rfl
@[simp] theorem boardWrite_chans (a : BitVec 8) (v : Num64) : (boardWrite a v s).2.chans = s.chans := rfl
@[simp] theorem boardWrite_stages (a : BitVec 8) (v : Num64) : (boardWrite a v s).2.stages = s.stages := rfl
@[simp] theorem boardWrite_acts (a : BitVec 8) (v : Num64) : (boardWrite a v s).2.acts = s.acts := rfl
@[simp] theorem boardWrite_mem (a : BitVec 8) (v : Num64) : (boardWrite a v s).2.mem = s.mem := rfl
@[simp] theorem boardWrite_portS (a : BitVec 8) (v : Num64) : (boardWrite a v s).2.portS = s.portS := rfl
@[simp] theorem boardWrite_portD (a : BitVec 8) (v : Num64) : (boardWrite a v s).2.portD = s.portD := rfl
@[simp] theorem boardWrite_active (a : BitVec 8) (v : Num64) : (boardWrite a v s).2.active = s.active := rfl
@[simp] theorem boardWrite_events (a : BitVec 8) (v : Num64) : (boardWrite a v s).2.events = s.events := rfl
@[simp] theorem boardWrite_boardAnswers (a : BitVec 8) (v : Num64) : (boardWrite a v s).2.boardAnswers = s.boardAnswers := rfl
@[simp] theorem boardWrite_boardReads (a : BitVec 8) (v : Num64) : (boardWrite a v s).2.boardReads = s.boardReads := rfl
@[simp] theorem boardWrite_responses (a : BitVec 8) (v : Num64) : (boardWrite a v s).2.responses = s.responses := rfl
@[simp] theorem boardWrite_nanDraws (a : BitVec 8) (v : Num64) : (boardWrite a v s).2.nanDraws = s.nanDraws := rfl
@[simp] theorem boardWrite_magDraws (a : BitVec 8) (v : Num64) : (boardWrite a v s).2.magDraws = s.magDraws := rfl
@[simp] theorem boardWrite_chan (a : BitVec 8) (v : Num64) (j : Nat) : (boardWrite a v s).2.chan j = s.chan j := rfl
@[simp] theorem boardWrite_stage (a : BitVec 8) (v : Num64) (i j : Nat) : (boardWrite a v s).2.stage i j = s.stage i j := rfl
@[simp] theorem boardWrite_act (a : BitVec 8) (v : Num64) (j : Nat) : (boardWrite a v s).2.act j = s.act j := rfl
@[simp] theorem boardWrite_win (a : BitVec 8) (v : Num64) (i : Nat) (w' : WinSel) (j : Nat) : (boardWrite a v s).2.win i w' j = s.win i w' j := rfl

@[simp] theorem resetMachine_params : (resetMachine s).params = s.params := rfl
@[simp] theorem resetMachine_events : (resetMachine s).events = s.events := rfl
@[simp] theorem resetMachine_boardAnswers : (resetMachine s).boardAnswers = s.boardAnswers := rfl
@[simp] theorem resetMachine_boardAcks : (resetMachine s).boardAcks = s.boardAcks := rfl
@[simp] theorem resetMachine_boardReads : (resetMachine s).boardReads = s.boardReads := rfl
@[simp] theorem resetMachine_boardWrites : (resetMachine s).boardWrites = s.boardWrites := rfl
@[simp] theorem resetMachine_responses : (resetMachine s).responses = s.responses := rfl
@[simp] theorem resetMachine_nanDraws : (resetMachine s).nanDraws = s.nanDraws := rfl
@[simp] theorem resetMachine_magDraws : (resetMachine s).magDraws = s.magDraws := rfl

@[simp] theorem respondOk_responses (m : Mnemonic) (f : Bool) (ds : List Word) :
    (respondOk m f ds s).responses =
      s.responses ++ [⟨s.active, responseHeader m.opcode f .ok ds.length, ds⟩] := rfl

@[simp] theorem raise_responses (op : BitVec 8) (st : Status) :
    (raise op st s).responses = s.responses ++ [⟨s.active, responseHeader op false st 0, []⟩] := rfl

@[simp] theorem drawMap_nanDraws : (drawMap s).nanDraws = s.nanDraws + 6 := rfl

@[simp] theorem boardRead_reads (c : BitVec 8) :
    (boardRead c s).2.boardReads = s.boardReads ++ [⟨c, (boardRead c s).1⟩] := rfl

@[simp] theorem boardRead_boardAnswers (c : BitVec 8) :
    (boardRead c s).2.boardAnswers = s.boardAnswers.tail := rfl

@[simp] theorem boardWrite_writes (a : BitVec 8) (v : Num64) :
    (boardWrite a v s).2.boardWrites = s.boardWrites ++ [⟨a, v, (boardWrite a v s).1⟩] := rfl

@[simp] theorem boardWrite_boardAcks (a : BitVec 8) (v : Num64) :
    (boardWrite a v s).2.boardAcks = s.boardAcks.tail := rfl

@[simp] theorem memWrite_mem (c : Nat) (w : WinSel) (o : Nat) (vs : List Num64) :
    (memWrite c w o vs s).mem = Memory.writeFrom s.mem (winAddr c w o) vs := rfl

/-- What was on the port comes before what arrives. -/
theorem enqueue_pending (p : Port) (f : Frame) : (enqueue p f s).pending p = s.pending p ++ [f] := by
  cases p <;> rfl

@[simp] theorem setPending_pending (p : Port) (fs : List Frame) : (setPending p fs s).pending p = fs := by
  cases p <;> rfl

/-- The agent of a port takes the oldest frame and becomes the executing agent. -/
theorem dequeue_cons (p : Port) (f : Frame) (fs : List Frame) (h : s.pending p = f :: fs) :
    dequeue p s = some (f, { setPending p fs s with active := p }) := by
  simp [dequeue, h]

theorem dequeue_nil (p : Port) (h : s.pending p = []) : dequeue p s = none := by
  simp [dequeue, h]

end Sys2Proof.Laws
end

