-- ==== Sys2Proof/Laws/Ops.lean ====
section
/-! SUPPORT. One lemma per shared operation that says everything it can do. -/

namespace Sys2Proof.Laws

open Sys2Proof.Machine

variable (s : State)

/-! Registers: read after write. -/

@[simp] theorem chan_setChan_same (c : Nat) (r : ChanRegs) : (setChan c r s).chan c = r := by
  simp [setChan, State.chan]

theorem chan_setChan (c j : Nat) (r : ChanRegs) : (setChan c r s).chan j = if j = c then r else s.chan j :=
  read_write _ _ _ _ _

@[simp] theorem act_setAct_same (a : Nat) (r : ActRegs) : (setAct a r s).act a = r := by
  simp [setAct, State.act]

theorem act_setAct (a j : Nat) (r : ActRegs) : (setAct a r s).act j = if j = a then r else s.act j :=
  read_write _ _ _ _ _

/-- Stage numbers below 65536 of two channels never meet. -/
theorem stageKey_inj (c d j k : Nat) (hj : j < 65536) (hk : k < 65536) :
    stageKey c j = stageKey d k ↔ c = d ∧ j = k := by
  unfold stageKey
  omega

@[simp] theorem stage_setStage_same (c k : Nat) (r : StageRegs) : (setStage c k r s).stage c k = r := by
  simp [setStage, State.stage]

theorem stage_setStage (c d j k : Nat) (r : StageRegs) (hj : j < 65536) (hk : k < 65536) :
    (setStage c k r s).stage d j = if d = c ∧ j = k then r else s.stage d j := by
  unfold setStage State.stage
  simp only [read_write, stageKey_inj d c j k hj hk]

/-! Window memory. -/

/-- Window elements with indexes below 65536 of two windows never meet. -/
theorem winAddr_inj (c d : Nat) (w x : WinSel) (i j : Nat) (hi : i < 65536) (hj : j < 65536) :
    winAddr c w i = winAddr d x j ↔ c = d ∧ w = x ∧ i = j := by
  unfold winAddr
  cases w <;> cases x <;> simp only [winIndex, reduceCtorEq, true_and, false_and, and_false, iff_false] <;> omega

@[simp] theorem memRead_length (c : Nat) (w : WinSel) (i n : Nat) : (memRead c w i n s).length = n :=
  memory_readFrom_length _ _ _

theorem memRead_getElem? (c : Nat) (w : WinSel) (n i : Nat) (h : i < n) :
    (memRead c w 0 n s)[i]? = some (s.win c w i) := by
  simpa [memRead, State.win, winAddr] using memory_readFrom_getElem? s.mem (winAddr c w 0) n i h

/-- MemRead after MemWrite of the whole window. -/
theorem memRead_memWrite_same (c : Nat) (w : WinSel) (vs : List Num64) :
    memRead c w 0 vs.length (memWrite c w 0 vs s) = vs :=
  memory_readFrom_writeFrom_same _ _ _

/-- A MemWrite to one window leaves every other window's elements alone. -/
theorem win_memWrite_other (c d : Nat) (w x : WinSel) (vs : List Num64) (j : Nat)
    (h : d ≠ c ∨ x ≠ w ∨ vs.length ≤ j) (hv : vs.length ≤ 65536) (hj : j < 65536) :
    (memWrite c w 0 vs s).win d x j = s.win d x j := by
  apply memory_read_writeFrom_outside
  unfold winAddr
  cases w <;> cases x <;> simp only [winIndex, ne_eq, not_true, reduceCtorEq, not_false_iff, false_or, true_or, or_true] at h ⊢ <;> omega

/-! Checks. -/

@[simp] theorem firstError_nil : firstError [] = none := rfl

@[simp] theorem firstError_none (cs : List (Option Status)) : firstError (none :: cs) = firstError cs := rfl

@[simp] theorem firstError_some (st : Status) (cs : List (Option Status)) :
    firstError (some st :: cs) = some st := rfl

@[simp] theorem failIf_true (st : Status) : failIf true st = some st := rfl

@[simp] theorem failIf_false (st : Status) : failIf false st = none := rfl

theorem failIf_eq_none (b : Bool) (st : Status) : failIf b st = none ↔ b = false := by
  cases b <;> simp

theorem failIf_eq_some (b : Bool) (st st' : Status) : failIf b st = some st' ↔ b = true ∧ st = st' := by
  cases b <;> simp

/-- No check fails exactly when each passes. -/
theorem firstError_eq_none (cs : List (Option Status)) : firstError cs = none ↔ ∀ c ∈ cs, c = none := by
  induction cs with
  | nil => simp
  | cons c cs ih => cases c <;> simp [ih]

/-- The status reported is that of some check. -/
theorem firstError_mem (cs : List (Option Status)) (st : Status) (h : firstError cs = some st) : some st ∈ cs := by
  induction cs with
  | nil => simp at h
  | cons c cs ih =>
    cases c with
    | none => exact List.mem_cons_of_mem _ (ih (by simpa using h))
    | some st' => simp only [firstError_some, Option.some.injEq] at h; simp [h]

/-- Everything a guarded command can do. -/
theorem guarded_cases (m : Mnemonic) (cs : List (Option Status)) (e t : State) (h : guarded m cs s e = .next t) :
    (∃ st, firstError cs = some st ∧ t = raise m.opcode st s) ∨ (firstError cs = none ∧ t = e) := by
  unfold guarded at h
  split at h
  · next st hst => exact .inl ⟨st, hst, by injection h with h; exact h.symm⟩
  · next hn => exact .inr ⟨hn, by injection h with h; exact h.symm⟩

theorem guarded_pass (m : Mnemonic) (cs : List (Option Status)) (e : State) (h : firstError cs = none) :
    guarded m cs s e = .next e := by
  simp [guarded, h]

theorem guarded_fail (m : Mnemonic) (cs : List (Option Status)) (e : State) (st : Status)
    (h : firstError cs = some st) : guarded m cs s e = .next (raise m.opcode st s) := by
  simp [guarded, h]

@[simp] theorem portCheck_s (h : s.active = .s) : portCheck s = none := by
  rw [portCheck, h]; rfl

@[simp] theorem portCheck_d (h : s.active = .d) : portCheck s = some .illegalCommand := by
  rw [portCheck, h]; rfl

@[simp] theorem sensorCheck_in (c : BitVec 8) (h : c.toNat < s.params.nch) : sensorCheck c s = none := by
  simp [sensorCheck, failIf_eq_none, h]

@[simp] theorem actuatorCheck_in (a : BitVec 8) (h : a.toNat < s.params.nact) : actuatorCheck a s = none := by
  simp [actuatorCheck, failIf_eq_none, h]

@[simp] theorem finitedCheck_on (c : BitVec 8) (h : (s.chan c.toNat).finited = true) : finitedCheck c s = none := by
  simp [finitedCheck, h]

@[simp] theorem winitedCheck_on (c : BitVec 8) (h : (s.chan c.toNat).winited = true) : winitedCheck c s = none := by
  simp [winitedCheck, h]

/-! Response headers. -/

/-- An OK header without its flag, as one run of zeros between OP and CNT. -/
theorem responseHeader_ok (op : BitVec 8) (n : Nat) :
    responseHeader op false .ok n = op ++ 0#8 ++ BitVec.ofNat 16 n := by
  unfold responseHeader
  ext i hi
  simp only [BitVec.getElem_append, Status.code]
  by_cases h : i < 16
  · simp [h]
  · by_cases h2 : i < 24
    · have h3 : i - 16 < 8 := by omega
      interval_cases i <;> simp
    · interval_cases i <;> simp

theorem statusField_responseHeader (op : BitVec 8) (f : Bool) (st : Status) (n : Nat) :
    statusField (responseHeader op f st n) = st.code := by
  unfold statusField responseHeader
  ext i hi
  simp only [BitVec.getElem_extractLsb', BitVec.getLsbD_append]
  rw [if_neg (by omega), if_pos (by omega)]
  simp only [show 16 + i - 16 = i by omega, BitVec.getLsbD_eq_getElem hi]

theorem cntField_responseHeader (op : BitVec 8) (f : Bool) (st : Status) (n : Nat) :
    cntField (responseHeader op f st n) = BitVec.ofNat 16 n := by
  unfold cntField responseHeader
  ext i hi
  simp only [BitVec.getElem_extractLsb', BitVec.getLsbD_append]
  rw [if_pos (by omega)]
  simp only [Nat.zero_add, BitVec.getLsbD_eq_getElem hi]

theorem flagField_responseHeader (op : BitVec 8) (f : Bool) (st : Status) (n : Nat) :
    flagField (responseHeader op f st n) = f := by
  unfold flagField responseHeader
  simp only [BitVec.getLsbD_append]
  simp

/-! Stepping. -/

theorem step_idle (h : s.events = []) : step s = .next s := by
  simp [step, h]

theorem step_cons (e : Event) (es : List Event) (h : s.events = e :: es) :
    step s = runEvent e { s with events := es } := by
  simp [step, h]

end Sys2Proof.Laws
end

