-- ==== Sys2Proof/Laws/Filter.lean ====
section
/-! SUPPORT. What the biquad and the cascade change and what they leave alone. -/

namespace Sys2Proof.Laws

open Sys2Proof.Machine

variable (s : State)

/-- The state after one stage: that stage's registers and nine draws. -/
theorem biquad_state (c k : Nat) (x : Num64) :
    (biquad c k x s).2 =
      { s with
        stages := (setStage c k (biquadStep (fun j => Arith.drawNaN (s.nanDraws + j)) (s.stage c k) x).2 s).stages,
        nanDraws := s.nanDraws + 9 } := rfl

/-- A cascade changes the stage file and the draw counter, nothing else; it uses nine draws a stage. -/
theorem cascadeFrom_frame (c k n : Nat) (v : Num64) :
    (cascadeFrom c k n v s).2 =
      { s with stages := (cascadeFrom c k n v s).2.stages, nanDraws := s.nanDraws + 9 * n } := by
  induction n generalizing k v s with
  | zero => rfl
  | succ n ih =>
    have h := ih (biquad c k v s).2 (k + 1) (biquad c k v s).1
    rw [cascadeFrom, h]
    simp only [biquad_state]
    congr 1
    omega

/-- A cascade changes only the stages it runs through. -/
theorem cascadeFrom_stage_other (c d k n j : Nat) (v : Num64) (h : d ≠ c ∨ j < k ∨ k + n ≤ j)
    (hn : k + n ≤ 65536) (hj : j < 65536) : ((cascadeFrom c k n v s).2).stage d j = s.stage d j := by
  induction n generalizing k v s with
  | zero => rfl
  | succ n ih =>
    rw [cascadeFrom, ih _ _ _ (by omega) (by omega)]
    change (setStage c k _ s).stage d j = s.stage d j
    rw [stage_setStage s c d j k _ hj (by omega), if_neg (by omega)]

theorem cascade_frame (c : BitVec 8) (x : Num64) :
    (cascade c x s).2 =
      { s with
        stages := (cascade c x s).2.stages,
        nanDraws := s.nanDraws + 9 * (s.chan c.toNat).nst.toNat } := cascadeFrom_frame _ _ _ _ _

@[simp] theorem cascadeBatch_length (c : BitVec 8) (xs : List Num64) : (cascadeBatch c xs s).1.length = xs.length := by
  induction xs generalizing s with
  | nil => rfl
  | cons x xs ih => simp [cascadeBatch, ih]

/-- A batch changes the stage file and the draw counter, nothing else. -/
theorem cascadeBatch_frame (c : BitVec 8) (xs : List Num64) :
    (cascadeBatch c xs s).2 =
      { s with stages := (cascadeBatch c xs s).2.stages, nanDraws := (cascadeBatch c xs s).2.nanDraws } := by
  induction xs generalizing s with
  | nil => rfl
  | cons x xs ih =>
    rw [cascadeBatch, ih, cascade_frame]

/-- A stage whose new input and output are numbers answers the same whatever NaNs its operations were given. -/
theorem biquadStep_congr (q : Nat → Num64) (q₀ : Num64) (r : StageRegs) (x : Num64) (hq : Arith.isNaN q₀ = true)
    (hi : Arith.isNaN (biquadStep (fun _ => q₀) r x).2.w1 = false)
    (ho : Arith.isNaN (biquadStep (fun _ => q₀) r x).1 = false) :
    biquadStep q r x = biquadStep (fun _ => q₀) r x := by
  unfold biquadStep at hi ho ⊢
  dsimp only at hi ho ⊢
  obtain ⟨e3, hi1, hi2⟩ := sub_congr (q 3) _ _ q₀ hq hi
  obtain ⟨e1, -, hi0⟩ := sub_congr (q 1) _ _ q₀ hq hi1
  have e0 := (mul_congr (q 0) _ _ q₀ hq hi0).1
  have e2 := (mul_congr (q 2) _ _ q₀ hq hi2).1
  obtain ⟨e8, ho6, ho7⟩ := add_congr (q 8) _ _ q₀ hq ho
  obtain ⟨e6, ho4, ho5⟩ := add_congr (q 6) _ _ q₀ hq ho6
  have e4 := (mul_congr (q 4) _ _ q₀ hq ho4).1
  have e5 := (mul_congr (q 5) _ _ q₀ hq ho5).1
  have e7 := (mul_congr (q 7) _ _ q₀ hq ho7).1
  rw [e0, e1, e2, e3, e4, e5, e6, e7, e8]

/-- In exact arithmetic a stage at rest under a constant input `x` has the output `x` times its DC gain
(41_filter.md R140; 40_config_init.md R118). -/
theorem dcGain_at_fixed_point (b0 b1 b2 a1 a2 x w out : ℚ) (hd : 1 + a1 + a2 ≠ 0) (hw : w = x - a1 * w - a2 * w)
    (ho : out = b0 * w + b1 * w + b2 * w) : out = (b0 + b1 + b2) / (1 + a1 + a2) * x := by
  have hx : x = (1 + a1 + a2) * w := by linarith
  rw [hx, ho]
  field_simp

end Sys2Proof.Laws
end

