-- ==== Sys2Proof/Laws/PerInstr.lean ====
section
/-! SUPPORT. What holds of every command as syntax, one lemma per constructor. -/

namespace Sys2Proof.Laws

theorem opField_headerOf (m : Mnemonic) (ch : BitVec 8) (arg : BitVec 16) :
    opField (headerOf m ch arg) = m.opcode := by
  unfold opField headerOf
  ext i hi
  simp only [BitVec.getElem_extractLsb', BitVec.getLsbD_append]
  rw [if_neg (by omega), if_neg (by omega)]
  simp only [show 24 + i - 16 - 8 = i by omega, BitVec.getLsbD_eq_getElem hi]

theorem chField_headerOf (m : Mnemonic) (ch : BitVec 8) (arg : BitVec 16) :
    chField (headerOf m ch arg) = ch := by
  unfold chField headerOf
  ext i hi
  simp only [BitVec.getElem_extractLsb', BitVec.getLsbD_append]
  rw [if_neg (by omega), if_pos (by omega)]
  simp only [show 16 + i - 16 = i by omega, BitVec.getLsbD_eq_getElem hi]

theorem argField_headerOf (m : Mnemonic) (ch : BitVec 8) (arg : BitVec 16) :
    argField (headerOf m ch arg) = arg := by
  unfold argField headerOf
  ext i hi
  simp only [BitVec.getElem_extractLsb', BitVec.getLsbD_append]
  rw [if_pos (by omega)]
  simp only [Nat.zero_add, BitVec.getLsbD_eq_getElem hi]

namespace CarriesItsFields

/-- The header of a command carries its row's OP and its channel (30_encoding.md R80, R82). -/
def Statement (i : Instr) : Prop :=
  opField (encode i).header = i.mnemonic.opcode ∧
  chField (encode i).header =
    match i with
    | .wrreg ch _ _ _ => ch
    | .rdreg ch _ _ => ch
    | .finit ch => ch
    | .winit ch => ch
    | .filt ch _ => ch
    | .filtb ch _ => ch
    | .push ch _ _ => ch
    | .snap ch _ => ch
    | .analyze ch _ => ch
    | .map ch _ => ch
    | .rlim ch _ => ch
    | .actwr ch _ => ch
    | .drive ch _ => ch
    | .tick ch => ch

theorem wrreg (ch reg idx : BitVec 8) (d : Word) : Statement (.wrreg ch reg idx d) :=
  ⟨opField_headerOf _ _ _, chField_headerOf _ _ _⟩

theorem rdreg (ch reg idx : BitVec 8) : Statement (.rdreg ch reg idx) :=
  ⟨opField_headerOf _ _ _, chField_headerOf _ _ _⟩

theorem finit (ch : BitVec 8) : Statement (.finit ch) := ⟨opField_headerOf _ _ _, chField_headerOf _ _ _⟩

theorem winit (ch : BitVec 8) : Statement (.winit ch) := ⟨opField_headerOf _ _ _, chField_headerOf _ _ _⟩

theorem filt (ch : BitVec 8) (x : Word) : Statement (.filt ch x) :=
  ⟨opField_headerOf _ _ _, chField_headerOf _ _ _⟩

theorem filtb (ch : BitVec 8) (xs : List Word) : Statement (.filtb ch xs) :=
  ⟨opField_headerOf _ _ _, chField_headerOf _ _ _⟩

theorem push (ch : BitVec 8) (xr xf : Word) : Statement (.push ch xr xf) :=
  ⟨opField_headerOf _ _ _, chField_headerOf _ _ _⟩

theorem snap (ch : BitVec 8) (win : WinSel) : Statement (.snap ch win) :=
  ⟨opField_headerOf _ _ _, chField_headerOf _ _ _⟩

theorem analyze (ch : BitVec 8) (win : WinSel) : Statement (.analyze ch win) :=
  ⟨opField_headerOf _ _ _, chField_headerOf _ _ _⟩

theorem map (ch : BitVec 8) (v : Word) : Statement (.map ch v) :=
  ⟨opField_headerOf _ _ _, chField_headerOf _ _ _⟩

theorem rlim (ch : BitVec 8) (v : Word) : Statement (.rlim ch v) :=
  ⟨opField_headerOf _ _ _, chField_headerOf _ _ _⟩

theorem actwr (ch : BitVec 8) (v : Word) : Statement (.actwr ch v) :=
  ⟨opField_headerOf _ _ _, chField_headerOf _ _ _⟩

theorem drive (ch : BitVec 8) (v : Word) : Statement (.drive ch v) :=
  ⟨opField_headerOf _ _ _, chField_headerOf _ _ _⟩

theorem tick (ch : BitVec 8) : Statement (.tick ch) := ⟨opField_headerOf _ _ _, chField_headerOf _ _ _⟩

end CarriesItsFields

end Sys2Proof.Laws
end

