-- ==== Sys2Proof/Laws/Window.lean ====
section
/-! SUPPORT. What a push and a construction do to the windows and the stages. -/

namespace Sys2Proof.Laws

open Sys2Proof.Machine

variable (s : State)

@[simp] theorem windowOf_length (c : BitVec 8) (w : WinSel) : (windowOf c w s).length = s.cap c := by
  simp [windowOf]

theorem cap_lt (c : BitVec 8) : s.cap c < 65536 := (s.chan c.toNat).cap.isLt

theorem windowOf_getElem? (c : BitVec 8) (w : WinSel) (i : Nat) (h : i < s.cap c) :
    (windowOf c w s)[i]? = some (s.win c.toNat w i) := memRead_getElem? _ _ _ _ _ h

/-- A window of at least one element keeps its length in a push. -/
theorem pushed_length (c : BitVec 8) (w : WinSel) (v : Num64) (h : 1 ≤ s.cap c) :
    ((windowOf c w s).tail ++ [v]).length = s.cap c := by
  simp only [List.length_append, List.length_tail, windowOf_length, List.length_singleton]
  omega

@[simp] theorem wpush_chan (c : BitVec 8) (w : WinSel) (v : Num64) (j : Nat) :
    (wpush c w v s).chan j = s.chan j := rfl

@[simp] theorem wpush_cap (c d : BitVec 8) (w : WinSel) (v : Num64) : (wpush c w v s).cap d = s.cap d := rfl

/-- WPUSH: the window without its oldest element, followed by the sample. -/
theorem windowOf_wpush_same (c : BitVec 8) (w : WinSel) (v : Num64) (h : 1 ≤ s.cap c) :
    windowOf c w (wpush c w v s) = (windowOf c w s).tail ++ [v] := by
  have hl := pushed_length s c w v h
  have := memRead_memWrite_same s c.toNat w ((windowOf c w s).tail ++ [v])
  rw [hl] at this
  exact this

/-- A push into one window leaves every element of the others alone. -/
theorem win_wpush_other (c : BitVec 8) (d : Nat) (w x : WinSel) (v : Num64) (j : Nat)
    (h : d ≠ c.toNat ∨ x ≠ w) (hc : 1 ≤ s.cap c) (hj : j < 65536) :
    (wpush c w v s).win d x j = s.win d x j := by
  have hl := pushed_length s c w v hc
  have := cap_lt s c
  refine win_memWrite_other s _ _ _ _ _ j ?_ (by omega) hj
  rcases h with h | h
  · exact .inl h
  · exact .inr (.inl h)

theorem windowOf_wpush_other (c d : BitVec 8) (w x : WinSel) (v : Num64) (h : d ≠ c ∨ x ≠ w) (hc : 1 ≤ s.cap c) :
    windowOf d x (wpush c w v s) = windowOf d x s := by
  apply List.ext_getElem?
  intro i
  have hd := cap_lt s d
  by_cases hi : i < s.cap d
  · rw [windowOf_getElem? _ _ _ _ (by simpa using hi), windowOf_getElem? _ _ _ _ hi,
      win_wpush_other s c d.toNat w x v i (by rcases h with h | h; exacts [.inl (fun e => h (BitVec.eq_of_toNat_eq e)), .inr h])
        hc (by omega)]
  · rw [List.getElem?_eq_none (by simpa using hi), List.getElem?_eq_none (by simpa using hi)]

/-- The stages FINIT constructs. -/
theorem stage_constructStages (c : BitVec 8) (secs : List Coefs) (n d j : Nat) (hn : n ≤ 65536) (hj : j < 65536) :
    (constructStages c secs n s).stage d j =
      if d = c.toNat ∧ j < n then ⟨secs.getD j Coefs.zero, posZero, posZero⟩ else s.stage d j := by
  induction n with
  | zero => simp [constructStages]
  | succ n ih =>
    rw [constructStages, stage_setStage _ _ _ _ _ _ hj (by omega), ih (by omega)]
    by_cases hd : d = c.toNat
    · by_cases hjn : j = n
      · simp [hd, hjn]
      · simp only [hd, true_and, hjn, if_false, show (j < n + 1 ↔ j < n) by omega]
    · simp [hd]

/-- Constructing stages changes the stage file, nothing else. -/
theorem constructStages_frame (c : BitVec 8) (secs : List Coefs) (n : Nat) :
    constructStages c secs n s = { s with stages := (constructStages c secs n s).stages } := by
  induction n with
  | zero => rfl
  | succ n ih => rw [constructStages, ih]; rfl

end Sys2Proof.Laws
end

