-- ==== Sys2Proof/Tests/Slice0.lean ====
section
/-! SUPPORT. The model's own tests: decoding by words written out from 30_encoding.md, the check of WellFormed, one or
two steps per command with results taken from 95_test_vectors.md, and one witness per obligation's hypotheses. -/

namespace Sys2Proof.Tests

set_option Elab.async false

open Sys2Proof.Machine

/-! ## WellFormed -/

/-- A batch of 65536 samples cannot be framed: N has 16 bits (R81). -/
theorem smoke_filtb_too_long : (Instr.filtb 0#8 (List.replicate 65536 posZero)).wellFormed = false := by
  dsimp only [Instr.wellFormed]
  rw [List.length_replicate]
  decide

theorem smoke_filtb_longest : (Instr.filtb 0#8 (List.replicate 65535 posZero)).wellFormed = true := by
  dsimp only [Instr.wellFormed]
  rw [List.length_replicate]
  decide

/-! ## Decoding: headers and data words from 30_encoding.md R95 and 95_test_vectors.md -/

theorem test_decode_wrreg : decode ⟨0x01020400#32, [4#64]⟩ = some (.wrreg 2#8 4#8 0#8 4#64) := by decide

theorem test_decode_rdreg : decode ⟨0x0201101C#32, []⟩ = some (.rdreg 1#8 0x10#8 0x1C#8) := by decide

theorem test_decode_finit : decode ⟨0x10010000#32, []⟩ = some (.finit 1#8) := by decide

theorem test_decode_winit : decode ⟨0x11010000#32, []⟩ = some (.winit 1#8) := by decide

theorem test_decode_filt : decode ⟨0x20000000#32, [0x3FF0000000000000#64]⟩ = some (.filt 0#8 one) := by decide

theorem test_decode_filtb : decode ⟨0x21000002#32, [one, two]⟩ = some (.filtb 0#8 [one, two]) := by decide

theorem test_decode_push : decode ⟨0x30010000#32, [one, two]⟩ = some (.push 1#8 one two) := by decide

theorem test_decode_snap : decode ⟨0x31010001#32, []⟩ = some (.snap 1#8 .filt) := by decide

theorem test_decode_analyze : decode ⟨0x38010000#32, []⟩ = some (.analyze 1#8 .raw) := by decide

theorem test_decode_map : decode ⟨0x40000000#32, [one]⟩ = some (.map 0#8 one) := by decide

theorem test_decode_rlim : decode ⟨0x41000000#32, [one]⟩ = some (.rlim 0#8 one) := by decide

theorem test_decode_actwr : decode ⟨0x42010000#32, [one]⟩ = some (.actwr 1#8 one) := by decide

theorem test_decode_drive : decode ⟨0x43010000#32, [one]⟩ = some (.drive 1#8 one) := by decide

theorem test_decode_tick : decode ⟨0x50000000#32, []⟩ = some (.tick 0#8) := by decide

/-- R95: the worked commands encode to the worked frames, and the two worked responses have their headers. -/
theorem test_worked_encodings :
    encode (.wrreg 2#8 Reg.order.number 0#8 4#64) = ⟨0x01020400#32, [4#64]⟩ ∧
    encode (.rdreg 1#8 Reg.coef.number (stageIdx 3#5 4#3)) = ⟨0x0201101C#32, []⟩ ∧
    encode (.filtb 0#8 [one, 0x3FE0000000000000#64]) = ⟨0x21000002#32, [one, 0x3FE0000000000000#64]⟩ ∧
    responseHeader 0x21#8 false .ok 2 = 0x21000002#32 ∧
    responseHeader 0x10#8 false .invalidCutoff 0 = 0x10020000#32 := by decide

/-- Rows of vector V80 and V3C: none of these is a command. -/
theorem test_decode_illegal :
    decode ⟨0x00000000#32, []⟩ = none ∧ decode ⟨0xFFFFFFFF#32, []⟩ = none ∧ decode ⟨0x03000000#32, []⟩ = none ∧
    decode ⟨0x50000100#32, []⟩ = none ∧ decode ⟨0x38000002#32, []⟩ = none ∧ decode ⟨0x01000000#32, []⟩ = none ∧
    decode ⟨0x21000002#32, [one, one, one]⟩ = none ∧ decode ⟨0x20050001#32, [one]⟩ = none := by decide

/-- A table word with its operand words zero. -/
theorem test_decodeTableWord :
    decodeTableWord 32 0x30000000 = some (.push 0#8 posZero posZero) ∧ decodeTableWord 32 0x51000000 = none := by decide

/-! ## States -/

/-- Section A of the test instance of 95_test_vectors.md: (0.25, 0.25, 0, -0.5, 0). -/
def sectionA : Coefs :=
  ⟨0x3FD0000000000000#64, 0x3FD0000000000000#64, posZero, 0xBFE0000000000000#64, posZero⟩

/-- 100.0 and 10.0 and 3.0. -/
def hundred : Num64 := 0x4059000000000000#64
def ten : Num64 := 0x4024000000000000#64
def three : Num64 := 0x4008000000000000#64

/-- Some quiet NaN, as an operand. -/
def someNaN : Num64 := 0x7FF8000000000123#64

/-- The test instance T of 95_test_vectors.md with DESIGN_T's value for a lowpass of order 2 at wlo = 0.2. -/
def paramsT : Params :=
  { Params.default with design := [⟨.lowpass, 0x3FC999999999999A#64, none, 2, [sectionA]⟩] }

/-- The same instance with a value of DESIGN that breaks DESIGN-LEN. -/
def paramsBad : Params :=
  { Params.default with design := [⟨.lowpass, 0x3FC999999999999A#64, none, 2, []⟩] }

/-- Channel 0 staged for FINIT (FS = 100, FLO = 10, ORDER = 2) and WINIT (CAPCFG = 4). -/
def stagedRegs : ChanRegs :=
  { ChanRegs.reset with fs := hundred, flo := ten, order := 2#16, capcfg := 4#16 }

def staged : State := { State.resetOf paramsT with chans := [(0, stagedRegs)] }

/-- Channel 0 constructed: cascade [A] in zero state, windows of capacity 4; actuator 0 as in vector V73. -/
def ready : State :=
  { State.resetOf paramsT with
    chans := [(0, { stagedRegs with finited := true, nst := 1#16, winited := true, cap := 4#16 })],
    stages := [(0, ⟨sectionA, posZero, posZero⟩)],
    acts := [(0, { ActRegs.reset with vhi := one, ohi := ten, step := three })] }

/-- `ready` with one field of its channel 0 staged otherwise. -/
def withChan (f : ChanRegs → ChanRegs) (s : State) : State := setChan 0 (f (s.chan 0)) s

def withAct (f : ActRegs → ActRegs) (s : State) : State := setAct 0 (f (s.act 0)) s

/-- The state a result answers; the reset state where it answers none. -/
def after (r : Result) : State :=
  match r with
  | .next t => t
  | _ => State.reset

/-- The last response of a result. -/
def answer (r : Result) : Option (BitVec 32 × List Word) :=
  ((after r).responses.getLast?).map fun x => (x.header, x.data)

/-! ## One command each, from 95_test_vectors.md -/

/-- V12: an integer too wide is refused, a read-only register is IllegalCommand. -/
theorem test_wrreg :
    answer (exec (.wrreg 1#8 0x01#8 0#8 4#64) State.reset) = some (0x01070000#32, []) ∧
    answer (exec (.wrreg 0#8 0x09#8 0#8 1#64) State.reset) = some (0x01080000#32, []) ∧
    ((after (exec (.wrreg 1#8 0x01#8 0#8 3#64) State.reset)).chan 1).kind = 3#2 := by decide

/-- V10, V11: A0 of stage 3 reads 1.0, stage 4 does not exist. -/
theorem test_rdreg :
    answer (exec (.rdreg 0#8 0x10#8 0x1B#8) State.reset) = some (0x02000001#32, [0x3FF0000000000000#64]) ∧
    answer (exec (.rdreg 0#8 0x10#8 0x20#8) State.reset) = some (0x02070000#32, []) := by decide

/-- V20, first row: wlo = 10/50 reaches DESIGN as 0x3FC999999999999A and stage 0 becomes A. -/
theorem test_finit :
    answer (exec (.finit 0#8) staged) = some (0x10000000#32, []) ∧
    (after (exec (.finit 0#8) staged)).stage 0 0 = ⟨sectionA, posZero, posZero⟩ ∧
    ((after (exec (.finit 0#8) staged)).chan 0).nst = 1#16 := by decide +kernel

/-- V20: FLO = 50 is not below the Nyquist frequency 50. -/
theorem test_finit_nyquist :
    answer (exec (.finit 0#8) (withChan (fun r => { r with flo := 0x4049000000000000#64 }) staged)) =
      some (0x10020000#32, []) := by decide +kernel

/-- V21: capacity 4 is constructed, capacity 9 is beyond CAPMAX = 8. -/
theorem test_winit :
    ((after (exec (.winit 0#8) staged)).chan 0).cap = 4#16 ∧
    answer (exec (.winit 0#8) (withChan (fun r => { r with capcfg := 9#16 }) staged)) =
      some (0x11070000#32, []) := by decide +kernel

/-- V30, row 0: y = 0.25, state (1, 0). -/
theorem test_filt :
    answer (exec (.filt 0#8 one) ready) = some (0x20000001#32, [0x3FD0000000000000#64]) ∧
    (after (exec (.filt 0#8 one) ready)).stage 0 0 = ⟨sectionA, one, posZero⟩ := by decide +kernel

/-- R144's example: 0.25, 0.625, 0.8125, leaving W1 = 1.75 and W2 = 1.5. -/
theorem test_filtb :
    answer (exec (.filtb 0#8 [one, one, one]) ready) =
      some (0x21000003#32, [0x3FD0000000000000#64, 0x3FE4000000000000#64, 0x3FEA000000000000#64]) ∧
    (after (exec (.filtb 0#8 [one, one, one]) ready)).stage 0 0 =
      ⟨sectionA, 0x3FFC000000000000#64, 0x3FF8000000000000#64⟩ := by decide +kernel

/-- V38: 0.1 through [A] is 0.025 with its last bit rounded. -/
theorem test_filt_rounds :
    answer (exec (.filt 0#8 0x3FB999999999999A#64) ready) =
      some (0x20000001#32, [0x3F9999999999999A#64]) := by decide +kernel

/-- V40, second row of pushes: [0, 0, 1, 2] and [0, 0, 2, 1]. -/
theorem test_push :
    windowOf 0#8 .raw (after (exec (.push 0#8 two one) (after (exec (.push 0#8 one two) ready)))) =
      [posZero, posZero, one, two] ∧
    windowOf 0#8 .filt (after (exec (.push 0#8 two one) (after (exec (.push 0#8 one two) ready)))) =
      [posZero, posZero, two, one] := by decide +kernel

/-- R163: the whole window, on port D too. -/
theorem test_snap :
    answer (exec (.snap 0#8 .raw) { after (exec (.push 0#8 one two) ready) with active := .d }) =
      some (0x31000004#32, [posZero, posZero, posZero, one]) := by decide +kernel

/-- V57: one bin at 25.0 whose magnitude is exactly zero. -/
theorem test_analyze_zero_window :
    answer (exec (.analyze 0#8 .raw) ready) =
      some (0x38000002#32, [0x4039000000000000#64, posZero]) := by decide +kernel

/-- V59: capacity 3 at FS = 100 has its bin at 33.333333333333336. -/
theorem test_analyze_frequency :
    binFreq someNaN hundred 3 1 = 0x4040AAAAAAAAAAAB#64 := by decide +kernel

/-- V60: (0.1 - 0) / 0.3 · 90 rounds to 30.000000000000004. -/
theorem test_map_rounds :
    answer (exec (.map 0#8 0x3FB999999999999A#64)
      (withAct (fun r => { r with vhi := 0x3FD3333333333333#64, ohi := 0x4056800000000000#64 }) ready)) =
      some (0x40000001#32, [0x403E000000000001#64]) := by decide +kernel

/-- V61: +0.0 and -0.0 are a degenerate range. -/
theorem test_map_degenerate :
    answer (exec (.map 0#8 one) (withAct (fun r => { r with vhi := negZero }) ready)) =
      some (0x40030000#32, []) := by decide +kernel

/-- V62: limited from 0 toward 10 by 3; a difference equal to the step passes. -/
theorem test_rlim :
    answer (exec (.rlim 0#8 ten) ready) = some (0x41000001#32, [three]) ∧
    answer (exec (.rlim 0#8 three) ready) = some (0x41000001#32, [three]) := by decide +kernel

/-- V62: toward -infinity one step down. -/
theorem test_rlim_infinity :
    answer (exec (.rlim 0#8 0xFFF0000000000000#64) ready) =
      some (0x41000001#32, [0xC008000000000000#64]) := by decide +kernel

/-- V64: LAST follows an acknowledged write only. -/
theorem test_actwr :
    answer (exec (.actwr 0#8 three) { ready with boardAcks := [true] }) = some (0x42800000#32, []) ∧
    ((after (exec (.actwr 0#8 three) { ready with boardAcks := [true] })).act 0).last = three ∧
    ((after (exec (.actwr 0#8 three) { ready with boardAcks := [false] })).act 0).last = posZero := by decide +kernel

/-- V73, first row: mapped to 10, limited to 3, written. -/
theorem test_drive :
    answer (exec (.drive 0#8 one) { ready with boardAcks := [true] }) = some (0x43800001#32, [three]) ∧
    ((after (exec (.drive 0#8 one) { ready with boardAcks := [true] })).act 0).last = three := by decide +kernel

/-- V70, first row. -/
theorem test_tick :
    answer (exec (.tick 0#8) { ready with boardAnswers := [some one] }) =
      some (0x50800002#32, [one, 0x3FD0000000000000#64]) ∧
    windowOf 0#8 .filt (after (exec (.tick 0#8) { ready with boardAnswers := [some one] })) =
      [posZero, posZero, posZero, 0x3FD0000000000000#64] := by decide +kernel

/-- V72: from reset TICK is NotInitialised and does not read the Board. -/
theorem test_tick_unconstructed :
    answer (exec (.tick 0#8) State.reset) = some (0x50060000#32, []) ∧
    (after (exec (.tick 0#8) State.reset)).boardReads = [] := by decide

/-- Frame legality comes before the range of CH (section 2.8 of the vectors). -/
theorem test_step_illegal_frame :
    answer (step (State.reset.withFetchWord 32 0x20050001)) = some (0x20080000#32, []) := by decide

/-- V30's row 0 through the port of agent S. -/
theorem test_step_filt :
    answer (step { ready with portS := [⟨0x20000000#32, [one]⟩], events := [.serve .s] }) =
      some (0x20000001#32, [0x3FD0000000000000#64]) := by decide +kernel

/-! ## Witnesses: a state and operands that meet the hypotheses of each obligation, clause by clause -/

/-- A result that answers a next state. -/
def isNext (r : Result) : Bool :=
  match r with
  | .next _ => true
  | _ => false

theorem next_after (r : Result) (h : isNext r = true) : r = .next (after r) := by
  cases r <;> first | rfl | cases h

/-- `ready` with a command on each port and the moves `es` to come. -/
def served (es : List Event) : State :=
  { ready with
    portS := [⟨0x20000000#32, [one]⟩, ⟨0x03000000#32, []⟩], portD := [⟨0x31000000#32, []⟩, ⟨0x10000000#32, []⟩],
    events := es }

/-- `ready` on port D. -/
def readyD : State := { ready with active := .d }

/-- The bandpass instance: DESIGN's value for order 2 at wlo = 0.2 and whi = 0.4. -/
def stagedBand : State :=
  { State.resetOf { Params.default with
      design := [⟨.bandpass, 0x3FC999999999999A#64, some 0x3FD999999999999A#64, 2, [sectionA]⟩] } with
    chans := [(0, { stagedRegs with kind := 1#2, fhi := 0x4034000000000000#64 })] }

/-- The test instance with the guard on. -/
def guardedReady : State := { ready with params := { paramsT with guardNonfinite := true } }

theorem served_inv (es : List Event) : (served es).Inv where
  params := (by decide : paramsT.Legal)
  chans := (by decide : Sparse.wf ChanRegs.reset ready.chans)
  stages := (by decide : Sparse.wf StageRegs.reset ready.stages)
  acts := (by decide : Sparse.wf ActRegs.reset ready.acts)
  mem := (by decide : Memory.wf [])
  nst_le c := by
    by_cases h : 0 = c
    · subst h; show (1 : Nat) ≤ 4; decide
    · simp [served, ready, State.chan, Sparse.read, h, ChanRegs.reset]
  cap_le c := by
    by_cases h : 0 = c
    · subst h; show (4 : Nat) ≤ 8; decide
    · simp [served, ready, State.chan, Sparse.read, h, ChanRegs.reset]
  finited_iff c := by
    by_cases h : 0 = c
    · subst h; show true = true ↔ (1 : Nat) ≤ 1; decide
    · simp [served, ready, State.chan, Sparse.read, h, ChanRegs.reset]
  winited_iff c := by
    by_cases h : 0 = c
    · subst h; show true = true ↔ (1 : Nat) ≤ 4; decide
    · simp [served, ready, State.chan, Sparse.read, h, ChanRegs.reset]
  absent_chan c hc := by
    have h : ¬0 = c := by
      rintro rfl
      exact absurd (show 2 ≤ 0 from hc) (by decide)
    simp [served, ready, State.chan, Sparse.read, h]
  absent_act a ha := by
    have h : ¬0 = a := by
      rintro rfl
      exact absurd (show 2 ≤ 0 from ha) (by decide)
    simp [served, ready, State.act, Sparse.read, h]
  absent_stage c k hk hc := by
    have h : ¬0 = stageKey c k := by
      intro h
      have hp : (served es).params.nch = 2 ∧ (served es).params.nsmax = 4 := ⟨rfl, rfl⟩
      rw [hp.1, hp.2] at hc
      unfold stageKey at h
      omega
    simp [served, ready, State.stage, Sparse.read, h]
  absent_win _ _ _ _ _ := rfl

theorem ready_inv : ready.Inv := { served_inv [] with }

/-- A command that steps and gives this response. -/
def Answers (i : Instr) (s : State) (r : Response) : Prop :=
  exec i s = .next (after (exec i s)) ∧ (after (exec i s)).responses = s.responses ++ [r]

theorem answers_of (i : Instr) (s : State) (r : Response)
    (h : isNext (exec i s) = true ∧ (after (exec i s)).responses = s.responses ++ [r]) : Answers i s r :=
  ⟨next_after _ h.1, h.2⟩

/-! ### Encoding, steps, reset -/

theorem witness_DecodeAfterEncode :
    (Instr.drive 255#8 one).wellFormed = true ∧ (Instr.wrreg 255#8 255#8 255#8 negOne).wellFormed = true := by decide

theorem witness_EncodeAfterDecode : decode ⟨0x31FF0001#32, []⟩ = some (.snap 255#8 .filt) := by decide

theorem witness_StepRunsDecodedCommand :
    (served [.serve .s, .reset]).events = [.serve .s, .reset] ∧
    (served [.serve .s, .reset]).pending .s = [⟨0x20000000#32, [one]⟩, ⟨0x03000000#32, []⟩] ∧
    decode ⟨0x20000000#32, [one]⟩ = some (.filt 0#8 one) := by decide

theorem witness_IllegalFrameIsRejected :
    ({ served [.serve .s] with portS := [⟨0x03000000#32, []⟩] } : State).pending .s = [⟨0x03000000#32, []⟩] ∧
    decode ⟨0x03000000#32, []⟩ = none := by decide

theorem witness_DeliveryAndIdling :
    (served [.deliver .d ⟨0x31000000#32, []⟩]).events = [.deliver .d ⟨0x31000000#32, []⟩] ∧
    ({ ready with events := [.serve .d] } : State).events = [.serve .d] ∧
    ({ ready with events := [.serve .d] } : State).pending .d = [] ∧ ready.events = [] := by decide

theorem witness_ResetRestoresEveryElement : (served [.reset, .serve .s]).events = [.reset, .serve .s] := by decide

theorem witness_AfterResetAnswers : (1#8).toNat < Params.default.nch ∧ (1#8).toNat < Params.default.nact := by decide

/-! ### Registers and construction -/

/-- A sensor register at its widest value and an actuator register, on the last channel of each. -/
theorem witness_WrregWritesOneStagingRegister :
    ready.active = .s ∧ Reg.ofNumber 0x01#8 = some .kind ∧ Reg.kind.readOnly = false ∧
    (1#8).toNat < ready.params.nch ∧ (3#64).toNat < 4 ∧
    Reg.ofNumber 0x04#8 = some .order ∧ Reg.ofNumber 0x05#8 = some .capcfg ∧ (65535#64).toNat < 65536 ∧
    Reg.ofNumber 0x24#8 = some .step ∧ Reg.step.readOnly = false ∧ (1#8).toNat < ready.params.nact := by decide

/-- The last channel, and both ends of the stage range. -/
theorem witness_RdregReturnsTheRegister :
    (1#8).toNat < ready.params.nch ∧ (3#5).toNat < ready.params.nsmax ∧ (0#5).toNat < ready.params.nsmax ∧
    (1#8).toNat < ready.params.nact := by decide

theorem witness_FinitConstructsTheCascade (q : Num64) (hq : q = someNaN) :
    let s := staged
    let r := s.chan (0#8).toNat
    s.params.nsmax ≤ 32 ∧ s.active = .s ∧ (0#8).toNat < s.params.nch ∧ Arith.finite r.fs = true ∧
    Arith.gt r.fs posZero = true ∧ kindOf r.kind = some .lowpass ∧ r.order.toNat % 2 = 0 ∧ 2 ≤ r.order.toNat ∧
    r.order.toNat / 2 ≤ s.params.nsmax ∧ Arith.gt r.flo posZero = true ∧
    Arith.lt r.flo (Arith.div q r.fs two) = true ∧
    [sectionA] = designOf s.params .lowpass (Arith.div q r.flo (Arith.div q r.fs two)) none r.order.toNat ∧
    [sectionA].length = r.order.toNat / 2 := by
  subst hq
  decide +kernel

/-- The band clause: FHI = 20 above FLO = 10. -/
theorem witness_FinitConstructsTheCascade_band (q : Num64) (hq : q = someNaN) :
    let s := stagedBand
    let r := s.chan (0#8).toNat
    s.params.nsmax ≤ 32 ∧ s.active = .s ∧ (0#8).toNat < s.params.nch ∧ Arith.finite r.fs = true ∧
    Arith.gt r.fs posZero = true ∧ kindOf r.kind = some .bandpass ∧ r.order.toNat % 2 = 0 ∧ 2 ≤ r.order.toNat ∧
    r.order.toNat / 2 ≤ s.params.nsmax ∧ Arith.gt r.flo posZero = true ∧
    Arith.lt r.flo (Arith.div q r.fs two) = true ∧ Arith.gt r.fhi posZero = true ∧
    Arith.lt r.fhi (Arith.div q r.fs two) = true ∧ Arith.lt r.flo r.fhi = true ∧
    [sectionA] = designOf s.params .bandpass (Arith.div q r.flo (Arith.div q r.fs two))
      (some (Arith.div q r.fhi (Arith.div q r.fs two))) r.order.toNat ∧
    [sectionA].length = r.order.toNat / 2 := by
  subst hq
  decide +kernel

theorem witness_FinitRefusesABadDesign :
    firstError (finitChecks 0#8 { staged with params := paramsBad }) = none ∧
    (sectionsFor 0#8 { staged with params := paramsBad }).length ≠
      (({ staged with params := paramsBad } : State).chan (0#8).toNat).order.toNat / 2 := by decide +kernel

/-- A fresh channel and one with a history, staged alike. -/
theorem witness_ReinitialisedCascadeIsFresh :
    let s₁ := staged
    let s₂ := { staged with chans := ready.chans, stages := [(0, ⟨⟨one, two, one, two, one⟩, ten, hundred⟩)] }
    s₁.params = s₂.params ∧ s₁.params.nsmax ≤ 32 ∧ s₁.active = s₂.active ∧ s₁.nanDraws = s₂.nanDraws ∧
    (s₁.chan 0).fs = (s₂.chan 0).fs ∧ (s₁.chan 0).kind = (s₂.chan 0).kind ∧ (s₁.chan 0).flo = (s₂.chan 0).flo ∧
    (s₁.chan 0).fhi = (s₂.chan 0).fhi ∧ (s₁.chan 0).order = (s₂.chan 0).order ∧
    isNext (exec (.finit 0#8) s₁) = true ∧ isNext (exec (.finit 0#8) s₂) = true ∧
    (after (exec (.finit 0#8) s₁)).responses = s₁.responses ++ [⟨.s, 0x10000000#32, []⟩] ∧
    (after (exec (.finit 0#8) s₂)).responses = s₂.responses ++ [⟨.s, 0x10000000#32, []⟩] := by decide +kernel

/-- Both ends of the capacity range. -/
theorem witness_WinitZeroFillsBothWindows :
    [1#16, 8#16].all (fun n =>
      let s := withChan (fun r => { r with capcfg := n }) ready
      decide (s.active = .s ∧ (0#8).toNat < s.params.nch ∧ 1 ≤ (s.chan (0#8).toNat).capcfg.toNat ∧
        (s.chan (0#8).toNat).capcfg.toNat ≤ s.params.capmax)) = true := by decide +kernel

/-! ### Filter, windows, spectrum -/

theorem witness_FiltRunsTheStagesInOrder :
    ready.active = .s ∧ (0#8).toNat < ready.params.nch ∧ (ready.chan (0#8).toNat).finited = true ∧
    guardedReady.params.guardNonfinite = true ∧ Arith.finite one = true ∧
    (guardedReady.chan (0#8).toNat).finited = true := by decide

theorem witness_FiltbIsTheFiltsInOrder :
    guardedReady.active = .s ∧ (0#8).toNat < guardedReady.params.nch ∧
    (guardedReady.chan (0#8).toNat).finited = true ∧ [one, negOne, ten].all Arith.finite = true := by decide

theorem witness_ZeroIsAFixedPointOfTheFilter :
    ready.active = .s ∧ (0#8).toNat < ready.params.nch ∧ (ready.chan (0#8).toNat).finited = true ∧
    Arith.isZero negZero = true ∧
    ∀ k, k < (ready.chan (0#8).toNat).nst.toNat →
      Arith.isZero (ready.stage (0#8).toNat k).w1 = true ∧ Arith.isZero (ready.stage (0#8).toNat k).w2 = true ∧
      Arith.finite (ready.stage (0#8).toNat k).coef.b0 = true ∧ Arith.finite (ready.stage (0#8).toNat k).coef.b1 = true ∧
      Arith.finite (ready.stage (0#8).toNat k).coef.b2 = true ∧ Arith.finite (ready.stage (0#8).toNat k).coef.a1 = true ∧
      Arith.finite (ready.stage (0#8).toNat k).coef.a2 = true := by decide

/-- Capacity 4, and the least capacity 1. -/
theorem witness_PushShiftsBothWindows :
    ready.active = .s ∧ (0#8).toNat < ready.params.nch ∧ (ready.chan (0#8).toNat).winited = true ∧
    1 ≤ (ready.chan (0#8).toNat).cap.toNat ∧ 0 + 1 < (ready.chan (0#8).toNat).cap.toNat ∧
    ((withChan (fun r => { r with cap := 1#16 }) ready).chan (0#8).toNat).cap.toNat = 1 := by decide

/-- Capacity 1, capacity 4, and CAPMAX. -/
theorem witness_WindowHoldsTheMostRecent :
    [1#16, 4#16, 8#16].all (fun n =>
      let s := withChan (fun r => { r with capcfg := n }) ready
      decide (s.active = .s ∧ (0#8).toNat < s.params.nch ∧ 1 ≤ (s.chan (0#8).toNat).capcfg.toNat ∧
        (s.chan (0#8).toNat).capcfg.toNat ≤ s.params.capmax)) = true := by decide +kernel

theorem witness_SnapReturnsTheWholeWindow :
    (0#8).toNat < readyD.params.nch ∧ (readyD.chan (0#8).toNat).winited = true := by decide

theorem witness_AnalyzeReturnsTheBins :
    (0#8).toNat < readyD.params.nch ∧ (readyD.chan (0#8).toNat).winited = true ∧
    1 ≤ (readyD.chan (0#8).toNat).cap.toNat ∧ Arith.finite (readyD.chan (0#8).toNat).fs = true ∧
    Arith.gt (readyD.chan (0#8).toNat).fs posZero = true ∧ 0 < ((readyD.chan (0#8).toNat).cap.toNat - 1) / 2 := by decide

theorem witness_MagnitudesOfFiniteWindows :
    [posZero, negZero].all Arith.isZero = true ∧ [one, posZero, ten].all Arith.finite = true := by decide

/-- Two states that differ in the port, the cascade, the other window and the draws. -/
theorem witness_AnalyzeIsIdempotent :
    let s := { after (exec (.push 0#8 posZero two) ready) with active := .d, magDraws := 5, stages := [] }
    ready.params = s.params ∧ (ready.chan (0#8).toNat).winited = (s.chan (0#8).toNat).winited ∧
    (ready.chan (0#8).toNat).cap = (s.chan (0#8).toNat).cap ∧ (ready.chan (0#8).toNat).fs = (s.chan (0#8).toNat).fs ∧
    ∀ i, i < (ready.chan (0#8).toNat).cap.toNat →
      ready.win (0#8).toNat .raw i = s.win (0#8).toNat .raw i ∧
      Arith.finite (ready.win (0#8).toNat .raw i) = true := by decide +kernel

/-- Commands between two analyses: a filtered sample, a snapshot, a staged cutoff. -/
theorem witness_AnalyzeIsIdempotent_between :
    let is : List Instr := [.filt 0#8 one, .snap 0#8 .filt, .wrreg 0#8 0x02#8 0#8 three]
    let t := after (exec (.analyze 0#8 .raw) ready)
    (∀ i, i < (ready.chan (0#8).toNat).cap.toNat → Arith.finite (ready.win (0#8).toNat .raw i) = true) ∧
    (∀ i ∈ is, i.mnemonic ∉ [Mnemonic.push, .tick, .winit] ∧ ∀ ch idx d, i ≠ .wrreg ch 0x00#8 idx d) ∧
    exec (.analyze 0#8 .raw) ready = .next t ∧ execAll is t = .next (after (execAll is t)) := by
  refine ⟨by decide, ?_, next_after _ (by decide +kernel), next_after _ (by decide +kernel)⟩
  intro i hi
  fin_cases hi <;> exact ⟨by decide, fun _ _ _ h => by cases h⟩

/-! ### Actuator and hot path -/

theorem witness_MapRescales :
    ready.active = .s ∧ (0#8).toNat < ready.params.nact ∧
    Arith.eq (ready.act (0#8).toNat).vhi (ready.act (0#8).toNat).vlo = false ∧
    Arith.eq ((withAct (fun r => { r with vhi := negZero }) ready).act (0#8).toNat).vhi posZero = true ∧
    Arith.isNaN ((withAct (fun r => { r with vlo := someNaN }) ready).act (0#8).toNat).vlo = true := by decide

theorem witness_MapIdentityRange : Arith.isNaN posInf = false ∧ Arith.isNaN negZero = false := by decide

/-- The operand passes, is limited upward, is limited downward. -/
theorem witness_RlimLimitsTheStep :
    let r := ready.act (0#8).toNat
    let d := fun v => Arith.sub someNaN v r.last
    ready.active = .s ∧ (0#8).toNat < ready.params.nact ∧ Arith.gt r.step posZero = true ∧
    Arith.isNaN someNaN = true ∧
    Arith.gt (Arith.absf (d three)) r.step = false ∧
    Arith.gt (Arith.absf (d ten)) r.step = true ∧ Arith.gt (d ten) posZero = true ∧
    Arith.gt (Arith.absf (d 0xC024000000000000#64)) r.step = true ∧
    Arith.gt (d 0xC024000000000000#64) posZero = false := by decide +kernel

theorem witness_LimiterPassesThrough : Arith.isNaN someNaN = true := by decide

theorem witness_ActwrWritesAndRecords :
    readyD.active = .d ∧ ready.active = .s ∧ ready.params.nact ≤ (2#8).toNat ∧ (1#8).toNat < ready.params.nact ∧
    ({ ready with boardAcks := [false] } : State).boardAcks = [false] := by decide

theorem witness_DriveIsMapLimitWrite :
    ready.active = .s ∧ (0#8).toNat < ready.params.nact ∧
    Arith.gt (ready.act (0#8).toNat).step posZero = true ∧
    Arith.eq (ready.act (0#8).toNat).vhi (ready.act (0#8).toNat).vlo = false := by decide

/-- Two states that differ in actuator 1. -/
theorem witness_ActuatorsAreIndependent :
    let s₁ := { ready with boardAcks := [true] }
    let s₂ := setAct 1 { ActRegs.reset with last := ten } s₁
    s₁.act (0#8).toNat = s₂.act (0#8).toNat ∧ s₁.act 1 ≠ s₂.act 1 ∧ s₁.active = s₂.active ∧
    s₁.params.nact = s₂.params.nact ∧ s₁.nanDraws = s₂.nanDraws ∧ s₁.boardAcks = s₂.boardAcks ∧
    s₁.boardWrites = s₂.boardWrites ∧
    isNext (exec (.rlim 0#8 one) s₁) = true ∧ isNext (exec (.rlim 0#8 one) s₂) = true ∧
    isNext (exec (.drive 0#8 one) s₁) = true ∧ isNext (exec (.drive 0#8 one) s₂) = true := by decide +kernel

theorem witness_TickFiltersAndPushesAPresentSample :
    let s := { guardedReady with boardAnswers := [some one, none] }
    s.active = .s ∧ (0#8).toNat < s.params.nch ∧ (s.chan (0#8).toNat).finited = true ∧
    (boardRead 0#8 s).1 = some one ∧ s.params.guardNonfinite = true ∧ Arith.finite one = true := by decide

/-- Where no answer is listed the free one is a sample or absent, so that one of the two statements on TICK applies. -/
theorem witness_Tick_unlisted :
    ready.boardAnswers = [] ∧ ready.params.guardNonfinite = false ∧
    ((boardRead 0#8 ready).1 = none ∨ ∃ x, (boardRead 0#8 ready).1 = some x) := by
  refine ⟨rfl, rfl, ?_⟩
  cases (boardRead 0#8 ready).1 with
  | none => exact .inl rfl
  | some x => exact .inr ⟨x, rfl⟩

theorem witness_TickSkipsAnAbsentSample :
    let s := { ready with boardAnswers := [none] }
    s.active = .s ∧ (0#8).toNat < s.params.nch ∧ (s.chan (0#8).toNat).finited = true ∧
    (boardRead 0#8 s).1 = none := by decide

theorem witness_TickReadsTheBoardOnce :
    ready.active = .s ∧ (0#8).toNat < ready.params.nch ∧ (ready.chan (0#8).toNat).finited = true := by decide

theorem witness_TickReadsTheBoardOnce_others :
    Answers (.actwr 0#8 one) { ready with boardAcks := [true] } ⟨.s, 0x42800000#32, []⟩ ∧
    (Instr.actwr 0#8 one).mnemonic ≠ .tick :=
  ⟨answers_of _ _ _ (by decide +kernel), by decide⟩

/-! ### Errors -/

/-- Odd order 3 and order 0. -/
theorem witness_FinitRefusesOddAndZeroOrders :
    [0#16, 3#16, 65535#16].all (fun n =>
      let s := withChan (fun r => { r with order := n }) staged
      decide (s.active = .s ∧ (0#8).toNat < s.params.nch ∧ Arith.finite (s.chan (0#8).toNat).fs = true ∧
        Arith.gt (s.chan (0#8).toNat).fs posZero = true ∧ (s.chan (0#8).toNat).kind ≠ 3#2 ∧
        ((s.chan (0#8).toNat).order.toNat % 2 = 1 ∨ (s.chan (0#8).toNat).order = 0#16))) = true := by decide +kernel

theorem witness_FinitRefusesOddAndZeroOrders_answer :
    Answers (.finit 0#8) (withChan (fun r => { r with order := 3#16 }) staged) ⟨.s, 0x10010000#32, []⟩ ∧
    statusField 0x10010000#32 = 1#4 :=
  ⟨answers_of _ _ _ (by decide +kernel), by decide⟩

theorem witness_FinitRefusesBadCutoffs_answer :
    Answers (.finit 0#8) (withChan (fun r => { r with flo := posZero }) staged) ⟨.s, 0x10020000#32, []⟩ ∧
    statusField 0x10020000#32 = 2#4 :=
  ⟨answers_of _ _ _ (by decide +kernel), by decide⟩

theorem witness_DegenerateRangeIsReported_answer :
    Answers (.drive 0#8 one) (withAct (fun r => { r with vhi := negZero }) ready) ⟨.s, 0x43030000#32, []⟩ ∧
    statusField 0x43030000#32 = 3#4 :=
  ⟨answers_of _ _ _ (by decide +kernel), by decide⟩

theorem witness_GuardRefusesNonFiniteSamples_answer :
    Answers (.filtb 0#8 [one, posInf]) guardedReady ⟨.s, 0x21040000#32, []⟩ ∧ statusField 0x21040000#32 = 4#4 :=
  ⟨answers_of _ _ _ (by decide +kernel), by decide⟩

/-- A low cutoff at the Nyquist frequency 50; a band filter with FHI = 50; one with FHI = FLO. -/
theorem witness_FinitRefusesBadCutoffs :
    let fifty := 0x4049000000000000#64
    let bad := fun f => Arith.isNaN f || Arith.le f posZero || Arith.le (Arith.div someNaN hundred two) f
    [stagedRegs, { stagedRegs with kind := 1#2, fhi := ten }].all (fun (r : ChanRegs) =>
      let s : State := { staged with chans := [(0, r)] }
      decide (r = s.chan (0#8).toNat ∧ s.active = .s ∧ (0#8).toNat < s.params.nch ∧ Arith.finite r.fs = true ∧
        Arith.gt r.fs posZero = true ∧ r.kind ≠ 3#2 ∧ r.order.toNat % 2 = 0 ∧ 2 ≤ r.order.toNat ∧
        r.order.toNat / 2 ≤ s.params.nsmax)) = true ∧
    stagedRegs.fs = hundred ∧ bad fifty = true ∧ bad posZero = true ∧ bad someNaN = true ∧ bad ten = false ∧
    Arith.le ten ten = true ∧ (1#2 ≠ 0#2) := by decide +kernel

/-- The two zeros are a collapsed range. -/
theorem witness_DegenerateRangeIsReported :
    let s := withAct (fun r => { r with vhi := negZero }) ready
    s.active = .s ∧ (0#8).toNat < s.params.nact ∧ Arith.eq (s.act (0#8).toNat).vhi (s.act (0#8).toNat).vlo = true ∧
    Arith.gt (s.act (0#8).toNat).step posZero = true := by decide

/-- The guard on, an infinity among the samples, and the Board answers it. -/
theorem witness_GuardRefusesNonFiniteSamples :
    let s := { guardedReady with boardAnswers := [some posInf] }
    s.active = .s ∧ (0#8).toNat < s.params.nch ∧ (s.chan (0#8).toNat).finited = true ∧
    s.params.guardNonfinite = true ∧ Arith.finite posInf = false ∧ posInf ∈ [one, posInf] ∧
    (boardRead 0#8 s).1 = some posInf := by decide

/-- Sampling rates 0 and NaN, KIND 3, capacity 0, steps 0 and NaN. -/
theorem witness_InvalidConfigIsReported :
    [posZero, someNaN, posInf, negOne].all (fun f =>
      let s := withChan (fun r => { r with fs := f }) ready
      decide ((0#8).toNat < s.params.nch ∧ s.active = .s ∧ (s.chan (0#8).toNat).winited = true ∧
        (Arith.finite (s.chan (0#8).toNat).fs = false ∨ Arith.gt (s.chan (0#8).toNat).fs posZero = false))) = true ∧
    ((withChan (fun r => { r with kind := 3#2 }) ready).chan (0#8).toNat).kind = 3#2 ∧
    ((withChan (fun r => { r with capcfg := 0#16 }) ready).chan (0#8).toNat).capcfg = 0#16 ∧
    [posZero, someNaN, negOne].all (fun f =>
      let s := withAct (fun r => { r with step := f }) ready
      decide (s.active = .s ∧ (0#8).toNat < s.params.nact ∧ Arith.gt (s.act (0#8).toNat).step posZero = false)) = true :=
  by decide +kernel

theorem witness_UseBeforeConstructionIsReported :
    (1#8).toNat < ready.params.nch ∧ ready.active = .s ∧ (ready.chan (1#8).toNat).finited = false ∧
    (ready.chan (1#8).toNat).winited = false := by decide

/-- The first channel that does not exist. -/
theorem witness_ChannelOutOfRangeIsReported :
    ready.params.nch ≤ (2#8).toNat ∧ ready.params.nact ≤ (2#8).toNat ∧ ready.active = .s ∧
    (Reg.ofNumber 0x05#8 = some .capcfg ∧ Reg.capcfg.cls = .sensor ∧ Reg.capcfg.readOnly = false) ∧
    (Reg.ofNumber 0x28#8 = some .last ∧ Reg.last.cls = .actuator) ∧
    (Reg.ofNumber 0x30#8 = some .param ∧ Reg.param.cls = .global ∧ 1#8 ≠ 0#8) ∧ Reg.ofNumber 0x07#8 = none := by decide

/-- A reserved number; a read-only register; CH out of range for each class; IDX, the narrow values, and the ends of
the ranges of COEF, W, PARAM and the rest. -/
theorem witness_RegisterAccessErrors :
    Reg.ofNumber 0x06#8 = none ∧ Reg.ofNumber 0x12#8 = none ∧ Reg.ofNumber 0x29#8 = none ∧ ready.active = .s ∧
    Reg.ofNumber 0x08#8 = some .cstat ∧ Reg.cstat.readOnly = true ∧
    (Reg.cstat.cls = .sensor ∧ ready.params.nch ≤ (2#8).toNat) ∧
    (Reg.ofNumber 0x20#8 = some .vlo ∧ Reg.vlo.cls = .actuator ∧ ready.params.nact ≤ (2#8).toNat ∧
      Reg.vlo.readOnly = false) ∧
    (Reg.ofNumber 0x30#8 = some .param ∧ Reg.param.cls = .global ∧ 1#8 ≠ 0#8) ∧
    (Reg.kind.readOnly = false ∧ 4 ≤ (4#64).toNat) ∧ (Reg.order.readOnly = false ∧ 65536 ≤ (65536#64).toNat) ∧
    (Reg.ofNumber 0x10#8 = some .coef ∧ ready.params.nsmax ≤ idxStage 0x20#8 ∧ 5 < idxElem 0x06#8) ∧
    (Reg.ofNumber 0x11#8 = some .w ∧ 1 < idxElem 0x02#8) ∧ 4 < (5#8).toNat := by decide

/-- Order 10 asks for five stages of four; capacity 9 is beyond 8. -/
theorem witness_TooLargeConstructionIsReported :
    let s := withChan (fun r => { r with order := 10#16, capcfg := 9#16 }) staged
    s.active = .s ∧ (0#8).toNat < s.params.nch ∧ Arith.finite (s.chan (0#8).toNat).fs = true ∧
    Arith.gt (s.chan (0#8).toNat).fs posZero = true ∧ (s.chan (0#8).toNat).kind ≠ 3#2 ∧
    (s.chan (0#8).toNat).order.toNat % 2 = 0 ∧ 2 ≤ (s.chan (0#8).toNat).order.toNat ∧
    s.params.nsmax < (s.chan (0#8).toNat).order.toNat / 2 ∧ (s.chan (0#8).toNat).capcfg ≠ 0#16 ∧
    s.params.capmax < (s.chan (0#8).toNat).capcfg.toNat := by decide

theorem witness_PortDRefusesWriteCommands :
    readyD.active = .d ∧ readClass (.tick 0#8) = false ∧ readClass (.wrreg 0#8 0xFF#8 0#8 one) = false := by decide

/-- An error that leaves everything, and the guarded TICK that has read the Board. -/
theorem witness_ErrorsChangeNothing :
    let s := { guardedReady with boardAnswers := [some posInf] }
    isNext (exec (.map 0#8 one) (withAct (fun r => { r with vhi := negZero }) ready)) = true ∧
    (after (exec (.map 0#8 one) (withAct (fun r => { r with vhi := negZero }) ready))).responses =
      ready.responses ++ [⟨.s, 0x40030000#32, []⟩] ∧
    statusField 0x40030000#32 ≠ 0#4 ∧
    isNext (exec (.tick 0#8) s) = true ∧
    (after (exec (.tick 0#8) s)).responses = s.responses ++ [⟨.s, 0x50040000#32, []⟩] ∧
    statusField 0x50040000#32 ≠ 0#4 := by decide +kernel

theorem witness_OneResponsePerCommand :
    exec (.snap 0#8 .raw) readyD = .next (after (exec (.snap 0#8 .raw) readyD)) := next_after _ (by decide +kernel)

/-! ### Whole-machine rules -/

theorem witness_ResetHasTheInvariant :
    Params.default.Legal ∧ (⟨256, 256, 32, 65535, true, []⟩ : Params).Legal := by decide

/-- A served command, and a reset, from a state with a constructed channel. -/
theorem witness_EveryStepKeepsTheInvariant :
    (served [.serve .s]).Inv ∧ step (served [.serve .s]) = .next (after (step (served [.serve .s]))) ∧
    (served [.reset]).Inv ∧ step (served [.reset]) = .next (after (step (served [.reset]))) :=
  ⟨served_inv _, next_after _ (by decide +kernel), served_inv _, next_after _ (by decide +kernel)⟩

/-- A state whose one response carries data. -/
def answered : State := { served [.serve .s] with responses := [⟨.d, 0x02000001#32, [one]⟩] }

theorem witness_EveryStepKeepsResponsesWellFormed :
    (∀ r ∈ answered.responses, r.WellFormed) ∧ step answered = .next (after (step answered)) := by
  refine ⟨?_, next_after _ (by decide +kernel)⟩
  intro r hr
  simp only [answered, List.mem_singleton] at hr
  subst hr
  unfold Response.WellFormed
  decide

theorem witness_TheMachineNeverStops : DesignLen paramsT ∧ DesignLen Params.default := by
  unfold DesignLen
  decide

theorem witness_PortDWritesNothing :
    readyD.active = .d ∧
    exec (.analyze 0#8 .raw) readyD = .next (after (exec (.analyze 0#8 .raw) readyD)) ∧
    exec (.tick 0#8) readyD = .next (after (exec (.tick 0#8) readyD)) :=
  ⟨by decide, next_after _ (by decide +kernel), next_after _ (by decide +kernel)⟩

theorem witness_PortDNeverDelaysPortS :
    (served [.serve .s]).events = [.serve .s] ∧
    step (served [.serve .s]) = .next (after (step (served [.serve .s]))) :=
  ⟨by decide, next_after _ (by decide +kernel)⟩

theorem witness_OtherChannelsAreUntouched :
    ready.Inv ∧ exec (.push 0#8 one two) ready = .next (after (exec (.push 0#8 one two) ready)) ∧
    1 ≠ channelOf (.push 0#8 one two) ∧ 0 < 65536 ∧ commandClass (.push 0#8 one two) ≠ .actuator ∧
    exec (.rlim 0#8 one) ready = .next (after (exec (.rlim 0#8 one) ready)) ∧
    commandClass (.rlim 0#8 one) ≠ .sensor ∧ commandClass (.wrreg 0#8 0x24#8 0#8 one) = .actuator :=
  ⟨ready_inv, next_after _ (by decide +kernel), by decide, by decide, by decide, next_after _ (by decide +kernel),
    by decide, by decide⟩

/-- One command for each clause, from a state in which it changes what the clause names. -/
theorem witness_WritersOfEachRegister :
    (after (exec (.filt 0#8 one) ready)).stage 0 0 ≠ ready.stage 0 0 ∧
    ((after (exec (.finit 0#8) staged)).stage 0 0).coef ≠ (staged.stage 0 0).coef ∧
    ((after (exec (.finit 0#8) staged)).chan 0).nst ≠ (staged.chan 0).nst ∧
    ((after (exec (.winit 0#8) staged)).chan 0).cap ≠ (staged.chan 0).cap ∧
    ((after (exec (.actwr 0#8 three) { ready with boardAcks := [true] })).act 0).last ≠ (ready.act 0).last ∧
    ((after (exec (.wrreg 0#8 0x02#8 0#8 three) ready)).chan 0).flo ≠ (ready.chan 0).flo ∧
    ((after (exec (.wrreg 0#8 0x20#8 0#8 three) ready)).act 0).vlo ≠ (ready.act 0).vlo ∧
    (after (exec (.push 0#8 one two) ready)).win 0 .raw 3 ≠ ready.win 0 .raw 3 ∧
    (ready.chan 0).finited = true ∧ (ready.chan 0).winited = true ∧
    isNext (exec (.filt 0#8 one) ready) = true ∧ isNext (exec (.finit 0#8) staged) = true ∧
    isNext (exec (.winit 0#8) staged) = true ∧ isNext (exec (.actwr 0#8 three) { ready with boardAcks := [true] }) = true ∧
    isNext (exec (.wrreg 0#8 0x02#8 0#8 three) ready) = true ∧
    isNext (exec (.wrreg 0#8 0x20#8 0#8 three) ready) = true ∧
    isNext (exec (.push 0#8 one two) ready) = true := by decide +kernel

theorem witness_CallersOfTheBoard_writes :
    Answers (.drive 0#8 one) { ready with boardAcks := [true] } ⟨.s, 0x43800001#32, [three]⟩ ∧
    (Instr.drive 0#8 one).mnemonic ∈ [Mnemonic.actwr, .drive] ∧ statusField 0x43800001#32 = 0#4 :=
  ⟨answers_of _ _ _ (by decide +kernel), by decide, by decide⟩

theorem witness_CallersOfTheBoard :
    let s := { ready with boardAnswers := [none], boardAcks := [true] }
    isNext (exec (.tick 0#8) s) = true ∧ (after (exec (.tick 0#8) s)).boardReads ≠ s.boardReads ∧
    isNext (exec (.drive 0#8 one) s) = true ∧ (after (exec (.drive 0#8 one) s)).boardWrites ≠ s.boardWrites := by
  decide +kernel

/-! ### DESIGN-DC -/

/-- The domain of DESIGN-DC holds the arguments FINIT gives DESIGN in vector V20. -/
theorem witness_DesignDomain : DesignDomain paramsT .lowpass 0x3FC999999999999A#64 none 2 := by
  unfold DesignDomain
  decide

/-- Section A under a constant input 1.0. -/
def sustained (k : Nat) : StageRegs := (fun r => (biquadStep (fun _ => someNaN) r one).2)^[k] ⟨sectionA, posZero, posZero⟩

theorem sustained_fixed (k : Nat) : sustained (60 + k) = ⟨sectionA, two, two⟩ := by
  have h : sustained 60 = ⟨sectionA, two, two⟩ := by decide +kernel
  have hf : (biquadStep (fun _ => someNaN) ⟨sectionA, two, two⟩ one).2 = ⟨sectionA, two, two⟩ := by decide +kernel
  unfold sustained at h ⊢
  rw [Nat.add_comm, Function.iterate_add_apply, h]
  exact Function.iterate_fixed hf k

theorem sustained_number (k : Nat) : Arith.isNaN (biquadStep (fun _ => someNaN) (sustained k) one).2.w1 = false ∧
    Arith.isNaN (biquadStep (fun _ => someNaN) (sustained k) one).1 = false := by
  by_cases hk : k < 60
  · have h : ∀ j : Fin 60, Arith.isNaN (biquadStep (fun _ => someNaN) (sustained j) one).2.w1 = false ∧
        Arith.isNaN (biquadStep (fun _ => someNaN) (sustained j) one).1 = false := by decide +kernel
    exact h ⟨k, hk⟩
  · obtain ⟨j, rfl⟩ := Nat.exists_eq_add_of_le (Nat.le_of_not_lt hk)
    rw [sustained_fixed]
    decide +kernel

/-- The k-th further sample of 1.0 on channel 0 answers what the stage answers. -/
theorem sustained_last (n k : Nat) (s : State) (hs : s.stage 0 0 = sustained k) (hn : (s.chan 0).nst = 1#16) :
    (cascadeBatch 0#8 (List.replicate (n + 1) one) s).1.getLast? =
      some (biquadStep (fun _ => someNaN) (sustained (k + n)) one).1 := by
  have hc : cascade 0#8 one s = biquad 0 0 one s := by
    show cascadeFrom 0 0 (s.chan 0).nst.toNat one s = _
    rw [hn]
    rfl
  have hb := Laws.biquadStep_congr (fun j => Arith.drawNaN (s.nanDraws + j)) someNaN (sustained k) one (by decide)
    (sustained_number k).1 (sustained_number k).2
  have h1 : (cascade 0#8 one s).1 = (biquadStep (fun _ => someNaN) (sustained k) one).1 := by
    rw [hc, ← hb, ← hs]
    rfl
  induction n generalizing k s with
  | zero => simp [cascadeBatch, h1]
  | succ n ih =>
    have h2 : (cascade 0#8 one s).2.stage 0 0 = sustained (k + 1) := by
      rw [hc]
      show (setStage 0 0 _ s).stage 0 0 = _
      rw [Laws.stage_setStage_same, hs, hb]
      unfold sustained
      rw [Function.iterate_succ_apply']
    have h3 : ((cascade 0#8 one s).2.chan 0).nst = 1#16 := by rw [hc]; exact hn
    have hc' : cascade 0#8 one (cascade 0#8 one s).2 = biquad 0 0 one (cascade 0#8 one s).2 := by
      show cascadeFrom 0 0 ((cascade 0#8 one s).2.chan 0).nst.toNat one _ = _
      rw [h3]
      rfl
    have hb' := Laws.biquadStep_congr (fun j => Arith.drawNaN ((cascade 0#8 one s).2.nanDraws + j)) someNaN
      (sustained (k + 1)) one (by decide) (sustained_number _).1 (sustained_number _).2
    have := ih (k + 1) (cascade 0#8 one s).2 h2 h3 hc' hb' (by rw [hc', ← hb', ← h2]; rfl)
    rw [List.replicate_succ, cascadeBatch, List.getLast?_cons, this, Option.getD_some]
    congr 4
    omega

/-- V20's cascade [A] settles at its DC gain, exactly: the outputs are 1.0 from the sixtieth sample on. -/
theorem witness_SettlesAtDcGain : SettlesAtDcGain 0#8 0 ready := by
  refine ⟨60, fun n hn => ⟨one, ?_, by decide, by decide +kernel⟩⟩
  rw [sustained_last n 0 ready (by decide) (by decide)]
  obtain ⟨j, rfl⟩ := Nat.exists_eq_add_of_le hn
  rw [Nat.zero_add, sustained_fixed]
  decide +kernel

/-! ### Numbers -/

/-- 1/3 of the least unit rounds to zero; a tie, 3/2 units, goes to the even neighbour. -/
theorem witness_RoundingIsToNearestEven :
    0 < 3 ∧ Arith.finite (Arith.roundTo false 1 3) = true ∧ Arith.finite one = true ∧
    Arith.finite (Arith.roundTo true 3 2) = true ∧
    Arith.units 0x8000000000000001#64 ≠ Arith.units (Arith.roundTo true 3 2) := by decide +kernel

/-- Finite operands, a zero divisor, an infinity with a finite, an infinite and a nonzero operand; the last natural
number in the range of numi. -/
theorem witness_RoundingIsToNearestEven_operations :
    Arith.finite one = true ∧ Arith.finite ten = true ∧ Arith.isZero ten = false ∧ Arith.isZero negZero = true ∧
    Arith.finite negZero = true ∧ Arith.isInf posInf = true ∧ Arith.isNaN ten = false ∧
    Arith.isNaN posInf = false ∧ (Arith.signBit posInf != Arith.signBit ten) = false ∧
    (Arith.signBit posInf != Arith.signBit (Arith.neg posInf)) = true ∧ 9007199254740991 < 2 ^ 53 := by decide +kernel

theorem witness_NanResultsAreQuiet :
    Arith.isNaN (Arith.mul someNaN posZero posInf) = true ∧ Arith.isNaN (Arith.div someNaN posZero negZero) = true ∧
    Arith.isNaN (Arith.add someNaN posInf 0xFFF0000000000000#64) = true := by decide +kernel

theorem witness_ComparisonsOrderTheNumbers :
    Arith.isNaN someNaN = true ∧ Arith.isNaN posInf = false ∧ Arith.isNaN negZero = false ∧
    Arith.finite one = true ∧ Arith.finite ten = true := by decide

end Sys2Proof.Tests
end

section
/-! PROOFS. The order of the finite numbers, and the comparisons (00_scope.md R10). -/

namespace Sys2Proof.Proofs

open Sys2Proof.Machine Sys2Proof.Machine.Arith Sys2Proof.Laws

variable (q a b : Num64)

theorem isNaN_eq_false_of_finite (h : finite a = true) : isNaN a = false := by
  simp only [finite, isNaN, decide_eq_true_eq, decide_eq_false_iff_not] at h ⊢
  omega

theorem isInf_eq_false_of_finite (h : finite a = true) : isInf a = false := by
  simp only [finite, isInf, decide_eq_true_eq, decide_eq_false_iff_not] at h ⊢
  omega

/-- Significand `m` at exponent `k` counts `m * 2 ^ k` units, also where `m` is 2 ^ 53 and so the first significand of
the next exponent. -/
theorem units_of_magBits {k m : Nat} (hm : m ≤ 2 ^ 53) (hk : k = 0 ∨ 2 ^ 52 ≤ m)
    (h : magBits a = k * 2 ^ 52 + m) : units a = m * 2 ^ k := by
  have hf := fracField_eq a
  unfold units expField
  rw [h] at hf ⊢
  by_cases hsub : m < 2 ^ 52
  · obtain rfl : k = 0 := by omega
    rw [if_pos (by omega), hf]
    omega
  · rw [if_neg (by omega), hf]
    by_cases htop : m = 2 ^ 53
    · rw [show (k * 2 ^ 52 + m) / 2 ^ 52 - 1 = k + 1 by omega, show (k * 2 ^ 52 + m) % 2 ^ 52 = 0 by omega, htop]
      ring
    · rw [show (k * 2 ^ 52 + m) / 2 ^ 52 - 1 = k by omega,
        show 2 ^ 52 + (k * 2 ^ 52 + m) % 2 ^ 52 = m by omega]

/-- The units grow with the magnitude bits: within an exponent by the significand, and every significand of a lower
exponent lies below every one of a higher. -/
theorem units_lt_units (ha : finite a = true) (hb : finite b = true) (h : magBits a < magBits b) :
    units a < units b := by
  obtain ⟨m, k, hua, hm, hk, hmag, -⟩ := units_eq a ha
  obtain ⟨n, l, hub, hn, hl, hmag', -⟩ := units_eq b hb
  rw [hua, hub]
  rcases lt_or_ge k l with hkl | hkl
  · calc m * 2 ^ k < 2 ^ 53 * 2 ^ k := Nat.mul_lt_mul_of_pos_right hm (by positivity)
      _ = 2 ^ 52 * 2 ^ (k + 1) := by ring
      _ ≤ n * 2 ^ l := Nat.mul_le_mul (by omega) (Nat.pow_le_pow_right (by norm_num) hkl)
  · obtain rfl : k = l := by omega
    exact Nat.mul_lt_mul_of_pos_right (by omega) (by positivity)

theorem units_le_units (ha : finite a = true) (hb : finite b = true) (h : magBits a ≤ magBits b) :
    units a ≤ units b := by
  rcases h.lt_or_eq with h | h
  · exact (units_lt_units a b ha hb h).le
  · unfold units expField
    rw [fracField_eq, fracField_eq, h]

theorem units_lt_iff (ha : finite a = true) (hb : finite b = true) : units a < units b ↔ magBits a < magBits b :=
  ⟨fun h => by_contra fun hn => absurd (units_le_units b a hb ha (by omega)) (by omega), units_lt_units a b ha hb⟩

/-- On finite numbers the place in the order of the comparisons is that of the exact value. -/
theorem orderKey_lt_iff (ha : finite a = true) (hb : finite b = true) :
    orderKey a < orderKey b ↔ value a < value b := by
  have hab := units_lt_iff a b ha hb
  have hba := units_lt_iff b a hb ha
  have hza := units_eq_zero a ha
  have hzb := units_eq_zero b hb
  simp only [isZero, decide_eq_true_eq] at hza hzb
  unfold orderKey value
  cases signBit a <;> cases signBit b <;> simp only [if_true, Bool.false_eq_true, if_false] <;> omega

/-- Of two numbers that are not NaNs the comparisons read the place alone. -/
theorem compare_eq (ha : isNaN a = false) (hb : isNaN b = false) :
    lt a b = decide (orderKey a < orderKey b) ∧ Arith.eq a b = decide (orderKey a = orderKey b) ∧
    gt a b = decide (orderKey b < orderKey a) := by
  simp [lt, Arith.eq, gt, ha, hb]

theorem compare_nan (h : isNaN a = true ∨ isNaN b = true) :
    lt a b = false ∧ Arith.eq a b = false ∧ gt a b = false ∧ le a b = false := by
  unfold gt le
  rcases h with h | h
  · simp [lt_nan_left, lt_nan_right, eq_nan_left, h]
  · simp [lt_nan_left, lt_nan_right, eq_nan_right, h]

/-- Exactly one of `<`, `==` and `>` holds of two numbers that are not NaNs. -/
theorem compare_trichotomy (ha : isNaN a = false) (hb : isNaN b = false) :
    (lt a b = true ∧ Arith.eq a b = false ∧ gt a b = false) ∨
    (lt a b = false ∧ Arith.eq a b = true ∧ gt a b = false) ∨
    (lt a b = false ∧ Arith.eq a b = false ∧ gt a b = true) := by
  obtain ⟨hlt, heq, hgt⟩ := compare_eq a b ha hb
  simp only [hlt, heq, hgt, decide_eq_true_eq, decide_eq_false_iff_not]
  omega

theorem lt_iff_value_lt (ha : finite a = true) (hb : finite b = true) : lt a b = true ↔ value a < value b := by
  obtain ⟨hlt, -, -⟩ := compare_eq a b (isNaN_eq_false_of_finite a ha) (isNaN_eq_false_of_finite b hb)
  rw [hlt, decide_eq_true_eq, orderKey_lt_iff a b ha hb]

/-- Settles O60: the comparisons order the places, which on finite numbers are ordered as the exact values. -/
theorem comparisonsOrderTheNumbers : Obligations.ComparisonsOrderTheNumbers := fun a b =>
  ⟨compare_nan a b, compare_trichotomy a b, by decide, lt_iff_value_lt a b⟩

end Sys2Proof.Proofs
end

section
/-! PROOFS. Rounding to nearest, ties to even, and the operations that round (00_scope.md R10; 41_filter.md R146). -/

namespace Sys2Proof.Proofs

open Sys2Proof.Machine Sys2Proof.Machine.Arith Sys2Proof.Laws

/-! ## The rounding itself -/

/-- What rounding `num / den` does: `num / den` lies `r / (den * 2 ^ k)` of a step above the significand `m` at exponent
`k`, and the answer is that significand, or the next one up (`up = 1`), as the remainder lies below or above half a
step; at half a step it is the even one of the two. -/
structure RoundsTo (num den k m r up : ℕ) : Prop where
  split : num = m * (den * 2 ^ k) + r
  rem_lt : r < den * 2 ^ k
  sig_lt : m < 2 ^ 53
  normal : k = 0 ∨ 2 ^ 52 ≤ m
  half : up = 0 ∧ (2 * r < den * 2 ^ k ∨ 2 * r = den * 2 ^ k ∧ m % 2 = 0) ∨
    up = 1 ∧ (den * 2 ^ k < 2 * r ∨ 2 * r = den * 2 ^ k ∧ m % 2 = 1)
  answer : roundMag num den = min (k * 2 ^ 52 + m + up) infMag

/-- The exponent `log2 q - 52` leaves 53 significant bits of `q`, and fewer only where it is 0. -/
theorem significand_bounds (q : ℕ) :
    q / 2 ^ (q.log2 - 52) < 2 ^ 53 ∧ (q.log2 - 52 = 0 ∨ 2 ^ 52 ≤ q / 2 ^ (q.log2 - 52)) := by
  have hu : q < 2 ^ (q.log2 + 1) := Nat.lt_log2_self
  refine ⟨Nat.div_lt_of_lt_mul (hu.trans_le ?_), or_iff_not_imp_left.mpr fun hk => ?_⟩
  · rw [← pow_add]
    exact Nat.pow_le_pow_right (by norm_num) (by omega)
  · have hq : q ≠ 0 := by rintro rfl; simp at hk
    rw [Nat.le_div_iff_mul_le (by positivity), ← pow_add, show 52 + (q.log2 - 52) = q.log2 by omega]
    exact Nat.log2_self_le hq

theorem exists_roundsTo (num den : ℕ) (hd : 0 < den) : ∃ k m r up, RoundsTo num den k m r up := by
  let k := (num / den).log2 - 52
  have hstep : 0 < den * 2 ^ k := by positivity
  obtain ⟨hlt, hnorm⟩ := significand_bounds (num / den)
  rw [Nat.div_div_eq_div_mul] at hlt hnorm
  have hsplit : num = num / (den * 2 ^ k) * (den * 2 ^ k) + num % (den * 2 ^ k) := (Nat.div_add_mod' _ _).symm
  have hrem := Nat.mod_lt num hstep
  refine ⟨k, _, _, _, hsplit, hrem, hlt, hnorm, ?_, rfl⟩
  simp only [k, Bool.or_eq_true, Bool.and_eq_true, decide_eq_true_eq, beq_iff_eq]
  split_ifs with h
  · exact .inr ⟨rfl, h⟩
  · exact .inl ⟨rfl, by omega⟩

/-- A rounded significand stays below exponent `e + 3` exactly where the quotient lies below half a step above the
largest number there. -/
theorem RoundsTo.below_iff {num den k m r up : ℕ} (h : RoundsTo num den k m r up) (e : ℕ) :
    k * 2 ^ 52 + m + up < (e + 3) * 2 ^ 52 ↔ num < den * ((2 ^ 54 - 1) * 2 ^ e) := by
  obtain ⟨hsplit, hrem, hsig, hnorm, hhalf, -⟩ := h
  have hup : up ≤ 1 := by omega
  have hlt : num < (m + 1) * (den * 2 ^ k) := by rw [hsplit]; linarith
  rcases lt_trichotomy k (e + 1) with hk | rfl | hk
  · refine iff_of_true (by omega) ?_
    calc num < (m + 1) * (den * 2 ^ k) := hlt
      _ ≤ (2 ^ 54 - 1) * (den * 2 ^ e) :=
        Nat.mul_le_mul (by omega) (Nat.mul_le_mul_left _ (Nat.pow_le_pow_right (by norm_num) (by omega)))
      _ = den * ((2 ^ 54 - 1) * 2 ^ e) := by ring
  · have hstep : den * 2 ^ (e + 1) = 2 * (den * 2 ^ e) := by ring
    rw [show den * ((2 ^ 54 - 1) * 2 ^ e) = (2 ^ 54 - 1) * (den * 2 ^ e) by ring]
    rw [hstep] at hsplit hrem hhalf hlt
    by_cases hm : m + 1 < 2 ^ 53
    · refine iff_of_true (by omega) (hlt.trans_le ?_)
      calc (m + 1) * (2 * (den * 2 ^ e)) ≤ (2 ^ 53 - 1) * (2 * (den * 2 ^ e)) := Nat.mul_le_mul_right _ (by omega)
        _ ≤ (2 ^ 54 - 1) * (den * 2 ^ e) := by omega
    · -- the last significand there is odd: it stays exactly where the remainder is below half a step
      obtain rfl : m = 2 ^ 53 - 1 := by omega
      omega
  · refine iff_of_false (by omega) (not_lt.mpr ?_)
    calc den * ((2 ^ 54 - 1) * 2 ^ e) = (2 ^ 54 - 1) * (den * 2 ^ e) := by ring
      _ ≤ 2 ^ 52 * 4 * (den * 2 ^ e) := Nat.mul_le_mul_right _ (by norm_num)
      _ = 2 ^ 52 * (den * 2 ^ (e + 2)) := by ring
      _ ≤ m * (den * 2 ^ k) :=
        Nat.mul_le_mul (by omega) (Nat.mul_le_mul_left _ (Nat.pow_le_pow_right (by norm_num) (by omega)))
      _ ≤ num := by omega

/-- Rounding overflows from half a step above the largest finite number on. -/
theorem roundMag_lt_infMag_iff (num den : ℕ) (hd : 0 < den) :
    roundMag num den < infMag ↔ num < den * ((2 ^ 54 - 1) * 2 ^ 2044) := by
  obtain ⟨k, m, r, up, h⟩ := exists_roundsTo num den hd
  rw [h.answer, min_lt_iff, or_iff_left (lt_irrefl _)]
  exact h.below_iff 2044

theorem roundMag_le_infMag (num den : ℕ) : roundMag num den ≤ infMag := Nat.min_le_right _ _

theorem infMag_lt : infMag < 2 ^ 63 := by decide

theorem roundMag_lt (num den : ℕ) : roundMag num den < 2 ^ 63 := (roundMag_le_infMag num den).trans_lt infMag_lt

@[simp] theorem magBits_roundTo (sgn : Bool) (num den : ℕ) : magBits (roundTo sgn num den) = roundMag num den :=
  magBits_pack _ _ (roundMag_lt num den)

@[simp] theorem signBit_roundTo (sgn : Bool) (num den : ℕ) : signBit (roundTo sgn num den) = sgn :=
  signBit_pack _ _ (roundMag_lt num den)

theorem finite_roundTo_iff (sgn : Bool) (num den : ℕ) (hd : 0 < den) :
    finite (roundTo sgn num den) = true ↔ num < den * ((2 ^ 54 - 1) * 2 ^ 2044) := by
  rw [← roundMag_lt_infMag_iff num den hd, finite, magBits_roundTo, decide_eq_true_eq]

/-- The distance of `num / den` from `u` units, in parts of `den`. -/
def distance (num den u : ℕ) : ℕ := ((num : ℤ) - (den : ℤ) * (u : ℤ)).natAbs

/-- No finite number lies between a significand and the next one up. -/
theorem units_outside_step (y : Num64) (hy : finite y = true) {k m : ℕ} (hm : m < 2 ^ 53) (hk : k = 0 ∨ 2 ^ 52 ≤ m)
    (hb : k * 2 ^ 52 + m < infMag) : units y ≤ m * 2 ^ k ∨ (m + 1) * 2 ^ k ≤ units y := by
  rcases le_or_gt (magBits y) (k * 2 ^ 52 + m) with h | h
  · have hmag := magBits_pack false (k * 2 ^ 52 + m) (hb.trans infMag_lt)
    rw [← units_of_magBits _ hm.le hk hmag]
    exact .inl (units_le_units _ _ hy (by rwa [finite, hmag, decide_eq_true_eq]) (hmag.symm ▸ h))
  · have hy' : magBits y < infMag := by simpa [finite] using hy
    have hmag := magBits_pack false (k * 2 ^ 52 + (m + 1)) ((by omega : _ < infMag).trans infMag_lt)
    rw [← units_of_magBits _ (by omega) (by omega) hmag]
    exact .inr (units_le_units _ _ (by simp only [finite, hmag, decide_eq_true_eq]; omega) hy (by omega))

/-- A finite answer of `roundTo` is a nearest finite number, and the even one of two that are equally near. -/
theorem roundTo_nearest (sgn : Bool) (num den : ℕ) (y : Num64) (hd : 0 < den)
    (hf : finite (roundTo sgn num den) = true) (hy : finite y = true) :
    distance num den (units (roundTo sgn num den)) ≤ distance num den (units y) ∧
    (distance num den (units (roundTo sgn num den)) = distance num den (units y) →
      units y ≠ units (roundTo sgn num den) → magBits (roundTo sgn num den) % 2 = 0) := by
  obtain ⟨k, m, r, up, hsplit, hrem, hsig, hnorm, hhalf, hans⟩ := exists_roundsTo num den hd
  have hup : up ≤ 1 := by omega
  have hlt : roundMag num den < infMag := by simpa [finite] using hf
  rw [hans] at hlt
  have hmag : roundMag num den = k * 2 ^ 52 + (m + up) := by omega
  have hunits : den * units (roundTo sgn num den) = m * (den * 2 ^ k) + up * (den * 2 ^ k) := by
    rw [units_of_magBits _ (by omega) (by omega) ((magBits_roundTo sgn num den).trans hmag)]
    ring
  have hout : den * units y ≤ m * (den * 2 ^ k) ∨ m * (den * 2 ^ k) + den * 2 ^ k ≤ den * units y := by
    refine (units_outside_step y hy hsig hnorm (by omega)).imp (fun h => ?_) fun h => ?_
    · calc den * units y ≤ den * (m * 2 ^ k) := Nat.mul_le_mul_left _ h
        _ = m * (den * 2 ^ k) := by ring
    · calc m * (den * 2 ^ k) + den * 2 ^ k = den * ((m + 1) * 2 ^ k) := by ring
        _ ≤ den * units y := Nat.mul_le_mul_left _ h
  have hne : units y ≠ units (roundTo sgn num den) → den * units y ≠ den * units (roundTo sgn num den) :=
    fun h h' => h (Nat.eq_of_mul_eq_mul_left hd h')
  rw [magBits_roundTo, hmag]
  unfold distance
  rw [← Nat.cast_mul, ← Nat.cast_mul]
  -- linear from here on: the end taken is at most half a step away, and every finite number lies at or outside an end
  rcases hhalf with ⟨rfl, hhalf⟩ | ⟨rfl, hhalf⟩ <;> omega

/-! ## The rounded result of an exact value -/

/-- The number of sign `sgn` and magnitude `x`. -/
def signed (sgn : Bool) (x : ℚ) : ℚ := if sgn then -x else x

theorem signed_sub (sgn : Bool) (x y : ℚ) : signed sgn x - signed sgn y = signed sgn (x - y) := by
  cases sgn <;> simp [signed]
  ring

@[simp] theorem abs_signed (sgn : Bool) (x : ℚ) : |signed sgn x| = |x| := by
  cases sgn <;> simp [signed]

theorem signed_mul (s t : Bool) (x y : ℚ) : signed s x * signed t y = signed (s != t) (x * y) := by
  cases s <;> cases t <;> simp [signed]

theorem signed_div (s t : Bool) (x y : ℚ) : signed s x / signed t y = signed (s != t) (x / y) := by
  cases s <;> cases t <;> simp [signed, neg_div, div_neg]

theorem signed_mul_right (s : Bool) (x c : ℚ) : signed s x * c = signed s (x * c) := by
  cases s <;> simp [signed]

theorem signed_div_right (s : Bool) (x c : ℚ) : signed s x / c = signed s (x / c) := by
  cases s <;> simp [signed, neg_div]

theorem value_eq_signed (a : Num64) : (value a : ℚ) = signed (signBit a) (units a) := by
  unfold value signed
  split <;> push_cast <;> rfl

theorem distance_eq (sgn : Bool) (num den u : ℕ) (hd : 0 < den) :
    |signed sgn u - signed sgn (num / den)| = distance num den u / den := by
  have hd' : (0 : ℚ) < den := by exact_mod_cast hd
  have hmul : ((num : ℤ) - (den : ℤ) * (u : ℤ) : ℚ) = ((num : ℚ) / den - u) * den := by
    push_cast
    field_simp
  rw [signed_sub, abs_signed, distance, Nat.cast_natAbs, Int.cast_abs, eq_div_iff hd'.ne']
  push_cast at hmul ⊢
  rw [hmul, abs_mul, abs_of_pos hd', abs_sub_comm]

/-- A number of the other sign is as far from a value as the value from zero and zero from the number. -/
theorem abs_signed_not_sub_signed (sgn : Bool) (u x : ℚ) (hu : 0 ≤ u) (hx : 0 ≤ x) :
    |signed (!sgn) u - signed sgn x| = u + x := by
  have h : signed (!sgn) u - signed sgn x = signed (!sgn) (u + x) := by
    cases sgn
    · simp [signed]; ring
    · simp [signed]
  rw [h, abs_signed, abs_of_nonneg (add_nonneg hu hx)]

theorem abs_signed_lt_iff (sgn : Bool) (num den e : ℕ) (hd : 0 < den) :
    |signed sgn (num / den)| < (2 ^ 54 - 1) * 2 ^ e ↔ num < den * ((2 ^ 54 - 1) * 2 ^ e) := by
  have hd' : (0 : ℚ) < den := by exact_mod_cast hd
  rw [abs_signed, abs_of_nonneg (by positivity), div_lt_iff₀ hd', mul_comm]
  norm_num only
  exact_mod_cast Iff.rfl

/-- A finite number has the sign asked for, or it is zero and may be given it, or it has the other sign. -/
theorem value_signed_cases (sgn : Bool) (y : Num64) :
    (value y : ℚ) = signed sgn (units y) ∨ 0 < units y ∧ (value y : ℚ) = signed (!sgn) (units y) := by
  rw [value_eq_signed]
  by_cases hs : signBit y = sgn
  · exact .inl (by rw [hs])
  · obtain rfl : sgn = !signBit y := Bool.eq_not.mpr (Ne.symm hs)
    rcases Nat.eq_zero_or_pos (units y) with hz | hz
    · exact .inl (by simp [hz, signed])
    · exact .inr ⟨hz, by rw [Bool.not_not]⟩

/-- `roundTo` answers the rounded result of the exact value. -/
theorem rounded_roundTo (sgn : Bool) (num den : ℕ) (hd : 0 < den) :
    Rounded (signed sgn (num / den)) sgn (roundTo sgn num den) := by
  have hd' : (0 : ℚ) < den := by exact_mod_cast hd
  have hx : (0 : ℚ) ≤ num / den := by positivity
  have hfin : |signed sgn ((num : ℚ) / den)| < (2 ^ 54 - 1) * 2 ^ 2044 ↔ finite (roundTo sgn num den) = true :=
    (abs_signed_lt_iff sgn num den 2044 hd).trans (finite_roundTo_iff sgn num den hd).symm
  have hr : (value (roundTo sgn num den) : ℚ) = signed sgn (units (roundTo sgn num den)) := by
    rw [value_eq_signed, signBit_roundTo]
  refine ⟨signBit_roundTo sgn num den, hfin.mp, fun h y hy => ?_, fun h => ?_⟩
  · rw [hr, distance_eq sgn num den _ hd]
    rcases value_signed_cases sgn y with hv | ⟨hpos, hv⟩
    · obtain ⟨hle, htie⟩ := roundTo_nearest sgn num den y hd (hfin.mp h) hy
      rw [hv, distance_eq sgn num den _ hd, div_le_div_iff_of_pos_right hd', div_left_inj' hd'.ne',
        Nat.cast_le, Nat.cast_inj]
      exact ⟨hle, fun he hne => htie he fun hu => hne (Int.cast_injective (α := ℚ) (by rw [hv, hr, hu]))⟩
    · have hzero : distance num den (units (roundTo sgn num den)) ≤ distance num den 0 :=
        (roundTo_nearest sgn num den posZero hd (hfin.mp h) (by decide)).1
      have hfar : (distance num den (units (roundTo sgn num den)) : ℚ) / den < units y + num / den :=
        calc _ ≤ (distance num den 0 : ℚ) / den := by gcongr
          _ = num / den := by simp [distance]
          _ < units y + num / den := by simpa using hpos
      rw [hv, abs_signed_not_sub_signed sgn _ _ (by positivity) hx]
      exact ⟨hfar.le, fun he => absurd he hfar.ne⟩
  · have hle := roundMag_le_infMag num den
    have hnot := mt hfin.mpr (not_lt.mpr h)
    simp only [finite, isInf, magBits_roundTo, decide_eq_true_eq] at hnot ⊢
    omega

end Sys2Proof.Proofs
end

section
/-! PROOFS. The four operations and numi round once (00_scope.md R10; 41_filter.md R146). -/

namespace Sys2Proof.Proofs

open Sys2Proof.Machine Sys2Proof.Machine.Arith Sys2Proof.Laws

variable (q a b : Num64)

/-! ## Negation -/

@[simp] theorem signBit_neg : signBit (neg a) = !signBit a := by
  have h : (0x8000000000000000#64).msb = true := by decide
  rw [signBit, neg, BitVec.msb_xor, h, Bool.xor_true, signBit]

@[simp] theorem magBits_neg : magBits (neg a) = magBits a := by
  have h : (neg a).setWidth 63 = a.setWidth 63 := by simp [neg, BitVec.setWidth_xor]
  simpa [magBits, BitVec.toNat_setWidth] using congrArg BitVec.toNat h

@[simp] theorem finite_neg : finite (neg a) = finite a := by simp [finite]

@[simp] theorem isInf_neg : isInf (neg a) = isInf a := by simp [isInf]

@[simp] theorem value_neg : value (neg a) = -value a := by
  have h : units (neg a) = units a := by simp [units, expField, fracField_eq]
  unfold value
  rw [h, signBit_neg]
  cases signBit a <;> simp

/-! ## Finite operands -/

theorem roundTo_zero (sgn : Bool) : roundTo sgn 0 1 = pack sgn 0 := by
  have h : roundMag 0 1 = 0 := by decide
  rw [roundTo, h]

/-- On finite operands the sum is rounded once; a zero sum is negative only where both operands are. -/
theorem add_finite (ha : finite a = true) (hb : finite b = true) :
    add q a b = roundTo (if value a + value b = 0 then signBit a && signBit b else decide (value a + value b < 0))
      (value a + value b).natAbs 1 := by
  simp only [add, isNaN_eq_false_of_finite, isInf_eq_false_of_finite, ha, hb, Bool.or_self, Bool.false_eq_true,
    if_false]
  split_ifs with h
  · rw [h, Int.natAbs_zero, roundTo_zero]
  · rfl

theorem mul_finite (ha : finite a = true) (hb : finite b = true) :
    mul q a b = roundTo (signBit a != signBit b) (units a * units b) (2 ^ 1074) := by
  simp only [mul, isNaN_eq_false_of_finite, isInf_eq_false_of_finite, ha, hb, Bool.or_self, Bool.and_false,
    Bool.false_and, Bool.false_eq_true, if_false]

theorem div_finite (ha : finite a = true) (hb : finite b = true) (hz : isZero b = false) :
    div q a b = roundTo (signBit a != signBit b) (units a * 2 ^ 1074) (units b) := by
  simp only [div, isNaN_eq_false_of_finite, isInf_eq_false_of_finite, ha, hb, hz, Bool.or_self, Bool.and_false,
    Bool.false_eq_true, if_false]

/-- An integer is the signed number of its magnitude. -/
theorem signed_natAbs (v : ℤ) (zeroSign : Bool) :
    signed (if v = 0 then zeroSign else decide (v < 0)) (v.natAbs / (1 : ℕ)) = v := by
  rw [Nat.cast_one, div_one, Nat.cast_natAbs]
  rcases lt_trichotomy v 0 with h | rfl | h
  · simp [signed, h, h.ne, abs_of_neg h]
  · simp [signed]
  · simp [signed, h.ne', h.not_gt, abs_of_pos h]

theorem rounded_add (ha : finite a = true) (hb : finite b = true) :
    Rounded (value a + value b : ℤ)
      (if value a + value b = 0 then signBit a && signBit b else decide (value a + value b < 0)) (add q a b) := by
  rw [add_finite q a b ha hb]
  simpa only [signed_natAbs] using rounded_roundTo
    (if value a + value b = 0 then signBit a && signBit b else decide (value a + value b < 0))
    (value a + value b).natAbs 1 one_pos

theorem rounded_sub (ha : finite a = true) (hb : finite b = true) :
    Rounded (value a - value b : ℤ)
      (if value a - value b = 0 then signBit a && !signBit b else decide (value a - value b < 0)) (sub q a b) := by
  simpa only [value_neg, signBit_neg, ← sub_eq_add_neg, sub] using rounded_add q a (neg b) ha (by rwa [finite_neg])

theorem rounded_mul (ha : finite a = true) (hb : finite b = true) :
    Rounded ((value a : ℚ) * value b / 2 ^ 1074) (signBit a != signBit b) (mul q a b) := by
  have hval : (value a : ℚ) * value b / 2 ^ 1074 =
      signed (signBit a != signBit b) ((units a * units b : ℕ) / (2 ^ 1074 : ℕ)) := by
    rw [value_eq_signed, value_eq_signed, signed_mul, signed_div_right, Nat.cast_mul, Nat.cast_pow, Nat.cast_ofNat]
  rw [mul_finite q a b ha hb, hval]
  exact rounded_roundTo _ _ _ (by positivity)

theorem rounded_div (ha : finite a = true) (hb : finite b = true) (hz : isZero b = false) :
    Rounded ((value a : ℚ) * 2 ^ 1074 / value b) (signBit a != signBit b) (div q a b) := by
  have hpos : 0 < units b := Nat.pos_of_ne_zero fun h => by simp [(units_eq_zero b hb).mp h] at hz
  have hval : (value a : ℚ) * 2 ^ 1074 / value b =
      signed (signBit a != signBit b) ((units a * 2 ^ 1074 : ℕ) / units b) := by
    rw [value_eq_signed, value_eq_signed, signed_mul_right, signed_div, Nat.cast_mul, Nat.cast_pow, Nat.cast_ofNat]
  rw [div_finite q a b ha hb hz, hval]
  exact rounded_roundTo _ _ _ hpos

/-- A finite number that is not zero, divided by zero, is an infinity. -/
theorem div_by_zero (ha : finite a = true) (hb : finite b = true) (hza : isZero a = false) (hzb : isZero b = true) :
    div q a b = pack (signBit a != signBit b) infMag := by
  simp [div, isNaN_eq_false_of_finite, isInf_eq_false_of_finite, ha, hb, hza, hzb]

/-! ## Infinities -/

theorem isNaN_eq_false_of_isInf (h : isInf a = true) : isNaN a = false := by
  simp only [isInf, isNaN, decide_eq_true_eq, decide_eq_false_iff_not] at h ⊢
  omega

theorem isZero_eq_false_of_isInf (h : isInf a = true) : isZero a = false := by
  simp only [isInf, isZero, decide_eq_true_eq, decide_eq_false_iff_not] at h ⊢
  rw [h]
  decide

/-- An infinity stays itself when a number is added that is not the other infinity. -/
theorem add_inf_left (ha : isInf a = true) (hb : isNaN b = false) (hs : isInf b = true → signBit a = signBit b) :
    add q a b = a := by
  cases hi : isInf b
  · simp [add, isNaN_eq_false_of_isInf, ha, hb, hi]
  · simp [add, isNaN_eq_false_of_isInf, ha, hi, hs hi]

theorem add_inf_right (ha : finite a = true) (hb : isInf b = true) : add q a b = b := by
  simp [add, isNaN_eq_false_of_finite, isInf_eq_false_of_finite, isNaN_eq_false_of_isInf, ha, hb]

theorem sub_inf_left (ha : isInf a = true) (hb : isNaN b = false) (hs : isInf b = true → signBit a = !signBit b) :
    sub q a b = a :=
  add_inf_left q a (neg b) ha (by rwa [isNaN_neg]) fun h => by rw [signBit_neg, hs (by rwa [isInf_neg] at h)]

theorem sub_inf_right (ha : finite a = true) (hb : isInf b = true) : sub q a b = neg b :=
  add_inf_right q a (neg b) ha (by rwa [isInf_neg])

theorem mul_inf_left (ha : isInf a = true) (hb : isNaN b = false) (hz : isZero b = false) :
    mul q a b = pack (signBit a != signBit b) infMag := by
  simp [mul, isNaN_eq_false_of_isInf, isZero_eq_false_of_isInf, ha, hb, hz]

theorem mul_inf_right (ha : isInf a = true) (hb : isNaN b = false) (hz : isZero b = false) :
    mul q b a = pack (signBit a != signBit b) infMag := by
  simp [mul, isNaN_eq_false_of_isInf, isZero_eq_false_of_isInf, ha, hb, hz, bne_comm (a := signBit b)]

theorem div_inf_left (ha : isInf a = true) (hb : finite b = true) :
    div q a b = pack (signBit a != signBit b) infMag := by
  simp [div, isNaN_eq_false_of_isInf, isZero_eq_false_of_isInf, isNaN_eq_false_of_finite, isInf_eq_false_of_finite,
    ha, hb]

theorem div_inf_right (ha : isInf a = true) (hb : finite b = true) :
    div q b a = pack (signBit a != signBit b) 0 := by
  simp [div, isNaN_eq_false_of_isInf, isZero_eq_false_of_isInf, isNaN_eq_false_of_finite, isInf_eq_false_of_finite,
    ha, hb, bne_comm (a := signBit b)]

/-! ## numi -/

/-- A natural number below 2 ^ 53, shifted up to 53 significant bits. -/
theorem exists_significand (n : ℕ) (h0 : n ≠ 0) (hn : n < 2 ^ 53) :
    ∃ j, j ≤ 52 ∧ 2 ^ 52 ≤ n * 2 ^ j ∧ n * 2 ^ j < 2 ^ 53 := by
  have hl : n.log2 < 53 := (Nat.log2_lt h0).mpr hn
  have hpow : ∀ i, 2 ^ (i + n.log2) * 2 ^ (52 - n.log2) = 2 ^ (i + 52) := fun i => by
    rw [← pow_add]
    congr 1
    omega
  refine ⟨52 - n.log2, by omega, ?_, ?_⟩
  · calc 2 ^ 52 = 2 ^ n.log2 * 2 ^ (52 - n.log2) := by simpa using (hpow 0).symm
      _ ≤ n * 2 ^ (52 - n.log2) := Nat.mul_le_mul_right _ (Nat.log2_self_le h0)
  · calc n * 2 ^ (52 - n.log2) < 2 ^ (1 + n.log2) * 2 ^ (52 - n.log2) :=
          Nat.mul_lt_mul_of_pos_right (by rw [add_comm]; exact Nat.lt_log2_self) (by positivity)
      _ = 2 ^ 53 := hpow 1

/-- Below 2 ^ 53 every natural number is a binary64. -/
theorem exists_units_eq (n e : ℕ) (he : 52 ≤ e) (he' : e ≤ 1074) (hn : n < 2 ^ 53) :
    ∃ y, finite y = true ∧ signBit y = false ∧ units y = n * 2 ^ e := by
  rcases eq_or_ne n 0 with rfl | h0
  · exact ⟨posZero, by decide, by decide, by rw [zero_mul]; decide⟩
  · obtain ⟨j, hj, hlo, hhi⟩ := exists_significand n h0 hn
    have hb : (e - j) * 2 ^ 52 + n * 2 ^ j < infMag := by
      rw [show infMag = 2047 * 2 ^ 52 from rfl]
      omega
    have hmag := magBits_pack false _ (hb.trans infMag_lt)
    refine ⟨_, by rwa [finite, hmag, decide_eq_true_eq], signBit_pack false _ (hb.trans infMag_lt), ?_⟩
    rw [units_of_magBits _ hhi.le (.inr hlo) hmag, mul_assoc, ← pow_add, show j + (e - j) = e by omega]

/-- numi gives back the number it rounds. -/
theorem numi_exact (n : ℕ) (hn : n < 2 ^ 53) : finite (numi n) = true ∧ value (numi n) = n * 2 ^ 1074 := by
  obtain ⟨y, hfin, hsign, hunits⟩ := exists_units_eq n 1074 (by norm_num) le_rfl hn
  have hnumi : numi n = y := by
    rw [numi, ← hunits, roundTo, ← mul_one (units y), roundMag_units y 1 one_pos hfin, ← hsign, pack_self]
  refine ⟨hnumi ▸ hfin, ?_⟩
  rw [hnumi, value, hsign, if_neg Bool.false_ne_true, hunits, Nat.cast_mul, Nat.cast_pow, Nat.cast_ofNat]

/-- Settles O58: every operation is `roundTo` of the exact result, which takes the nearer end of the step the result
lies in, and on infinities and zero divisors the answer is read off the definition. -/
theorem roundingIsToNearestEven : Obligations.RoundingIsToNearestEven := by
  refine ⟨fun sgn num den y => roundTo_nearest sgn num den y, fun q a b ha hb => ⟨rounded_add q a b ha hb,
    rounded_sub q a b ha hb, rounded_mul q a b ha hb, rounded_div q a b ha hb, div_by_zero q a b ha hb⟩,
    fun q a b ha hb => ⟨fun hf => ?_, fun hi => ⟨fun hs => ?_, fun hs => ?_⟩, fun hz => ?_⟩, numi_exact⟩
  · have hni : isInf b = true → False := by simp [isInf_eq_false_of_finite b hf]
    exact ⟨add_inf_left q a b ha hb fun h => (hni h).elim, add_inf_right q b a hf ha,
      sub_inf_left q a b ha hb fun h => (hni h).elim, sub_inf_right q b a hf ha, div_inf_left q a b ha hf,
      div_inf_right q a b ha hf⟩
  · exact add_inf_left q a b ha hb fun _ => by simpa using hs
  · exact sub_inf_left q a b ha hb fun _ => Bool.eq_not.mpr (bne_iff_ne.mp hs)
  · exact ⟨mul_inf_left q a b ha hb hz, mul_inf_right q a b ha hb hz⟩

end Sys2Proof.Proofs
end

section
/-! PROOFS. What a command may write: one relation for a single write, and every command that completes as a run of the
writes it is allowed (10_state.md R22, R23, R25, R36 to R44; 40_config_init.md R110 to R120). -/

namespace Sys2Proof.Proofs

open Sys2Proof.Machine Sys2Proof.Laws

/-! ## The writes -/

/-- Two states with the same parameters, registers and window memory. Responses, ports, moves, the Board's side and the
draw counters may differ. -/
structure SameRegs (s t : State) : Prop where
  params : t.params = s.params
  chans : t.chans = s.chans
  stages : t.stages = s.stages
  acts : t.acts = s.acts
  mem : t.mem = s.mem

/-- The staging registers of `st` with the constructed state of `r`. -/
def restaged (r st : ChanRegs) : ChanRegs :=
  { st with finited := r.finited, winited := r.winited, nst := r.nst, cap := r.cap }

/-- The staging registers of `st` with the LAST of `r`. -/
def restagedAct (r st : ActRegs) : ActRegs := { st with last := r.last }

/-- The command names a sensor channel that exists. -/
def OnSensor (i : Instr) (s : State) : Prop := commandClass i = .sensor ∧ channelOf i < s.params.nch

/-- The command names an actuator channel that exists. -/
def OnActuator (i : Instr) (s : State) : Prop := commandClass i = .actuator ∧ channelOf i < s.params.nact

/-- One write command `i` may make in state `s`, and the state after it. -/
inductive Write (i : Instr) (s : State) : State → Prop
  /-- No register and no window element. -/
  | silent (t : State) (h : SameRegs s t) : Write i s t
  /-- WRREG: staging registers of a sensor channel (R110). -/
  | staging (st : ChanRegs) (hi : i.mnemonic = .wrreg) (on : OnSensor i s) :
      Write i s (setChan (channelOf i) (restaged (s.chan (channelOf i)) st) s)
  /-- WRREG: staging registers of an actuator (R110). -/
  | actStaging (st : ActRegs) (hi : i.mnemonic = .wrreg) (on : OnActuator i s) :
      Write i s (setAct (channelOf i) (restagedAct (s.act (channelOf i)) st) s)
  /-- FINIT: one stage below NSMAX (R112). -/
  | stageInit (k : Nat) (r : StageRegs) (hi : i.mnemonic = .finit) (on : OnSensor i s) (hk : k < s.params.nsmax) :
      Write i s (setStage (channelOf i) k r s)
  /-- FINIT: NST and FINITED (R112). -/
  | finited (n : BitVec 16) (hi : i.mnemonic = .finit) (on : OnSensor i s)
      (hn : 1 ≤ n.toNat ∧ n.toNat ≤ s.params.nsmax) :
      Write i s (setChan (channelOf i) { s.chan (channelOf i) with nst := n, finited := true } s)
  /-- WINIT: a window from its start (R120). -/
  | windowInit (w : WinSel) (vs : List Num64) (hi : i.mnemonic = .winit) (on : OnSensor i s)
      (hv : vs.length ≤ s.params.capmax) : Write i s (memWrite (channelOf i) w 0 vs s)
  /-- WINIT: CAP and WINITED (R120). -/
  | winited (n : BitVec 16) (hi : i.mnemonic = .winit) (on : OnSensor i s)
      (hn : 1 ≤ n.toNat ∧ n.toNat ≤ s.params.capmax) :
      Write i s (setChan (channelOf i) { s.chan (channelOf i) with cap := n, winited := true } s)
  /-- FILT, FILTB, TICK: the delay registers of one active stage (R140). -/
  | delays (k : Nat) (w1 w2 : Num64) (hi : i.mnemonic ∈ [.filt, .filtb, .tick]) (on : OnSensor i s)
      (hk : k < (s.chan (channelOf i)).nst.toNat) :
      Write i s (setStage (channelOf i) k { s.stage (channelOf i) k with w1 := w1, w2 := w2 } s)
  /-- PUSH, TICK: a whole constructed window (R160). -/
  | window (w : WinSel) (vs : List Num64) (hi : i.mnemonic ∈ [.push, .tick]) (on : OnSensor i s)
      (hw : (s.chan (channelOf i)).winited = true) (hv : vs.length = (s.chan (channelOf i)).cap.toNat - 1 + 1) :
      Write i s (memWrite (channelOf i) w 0 vs s)
  /-- ACTWR, DRIVE: LAST (R198). -/
  | last (v : Num64) (hi : i.mnemonic ∈ [.actwr, .drive]) (on : OnActuator i s) :
      Write i s (setAct (channelOf i) { s.act (channelOf i) with last := v } s)

/-- A run of writes of one command. -/
abbrev Writes (i : Instr) : State → State → Prop := Relation.ReflTransGen (Write i)

variable {i : Instr} {s t u : State}

theorem Write.params_eq (h : Write i s t) : t.params = s.params := by
  cases h with
  | silent _ h => exact h.params
  | _ => rfl

theorem Writes.params_eq (h : Writes i s t) : t.params = s.params := by
  induction h with
  | refl => rfl
  | tail _ h ih => exact h.params_eq.trans ih

/-- What no single write changes, no run changes. -/
theorem Writes.apply_eq {α : Type} (f : State → α)
    (hf : ∀ {u v}, u.params = s.params → Write i u v → f v = f u) (h : Writes i s t) : f t = f s := by
  induction h with
  | refl => rfl
  | tail hw h ih => exact (hf (Writes.params_eq hw) h).trans ih

/-- What every single write keeps, a run keeps. -/
theorem Writes.keeps (P : State → Prop) (hP : ∀ {u v}, Write i u v → P u → P v) (h : Writes i s t) (hs : P s) :
    P t := by
  induction h with
  | refl => exact hs
  | tail _ h ih => exact hP h ih

theorem SameRegs.chan_eq (h : SameRegs s t) (c : Nat) : t.chan c = s.chan c := by rw [State.chan, h.chans]; rfl

theorem SameRegs.stage_eq (h : SameRegs s t) (c k : Nat) : t.stage c k = s.stage c k := by
  rw [State.stage, h.stages]; rfl

theorem SameRegs.act_eq (h : SameRegs s t) (a : Nat) : t.act a = s.act a := by rw [State.act, h.acts]; rfl

theorem SameRegs.win_eq (h : SameRegs s t) (c : Nat) (w : WinSel) (j : Nat) : t.win c w j = s.win c w j := by
  rw [State.win, h.mem]; rfl

theorem SameRegs.writes (h : SameRegs s t) : Writes i s t := .single (.silent t h)

theorem OnSensor.congr (on : OnSensor i s) (h : t.params = s.params) : OnSensor i t := ⟨on.1, h ▸ on.2⟩

/-! ## Responses and checks -/

theorem sameRegs_raise (op : BitVec 8) (st : Status) (s : State) : SameRegs s (raise op st s) :=
  ⟨rfl, rfl, rfl, rfl, rfl⟩

theorem sameRegs_respondOk (m : Mnemonic) (f : Bool) (ds : List Word) (s : State) : SameRegs s (respondOk m f ds s) :=
  ⟨rfl, rfl, rfl, rfl, rfl⟩

theorem sameRegs_boardRead (c : BitVec 8) (s : State) : SameRegs s (boardRead c s).2 := ⟨rfl, rfl, rfl, rfl, rfl⟩

theorem sameRegs_drawMap (s : State) : SameRegs s (drawMap s) := ⟨rfl, rfl, rfl, rfl, rfl⟩

theorem Writes.respondOk (m : Mnemonic) (f : Bool) (ds : List Word) (h : Writes i s t) :
    Writes i s (respondOk m f ds t) := h.tail (.silent _ (sameRegs_respondOk m f ds t))

/-- A guarded command makes the writes of its effect, or none. -/
theorem guarded_writes {m : Mnemonic} {cs : List (Option Status)} {e : State}
    (he : firstError cs = none → Writes i s e) (h : guarded m cs s e = .next t) : Writes i s t := by
  obtain ⟨st, -, rfl⟩ | ⟨hc, rfl⟩ := guarded_cases s m cs e t h
  · exact (sameRegs_raise _ st s).writes
  · exact he hc

theorem sensorCheck_eq_none (c : BitVec 8) (s : State) : sensorCheck c s = none ↔ c.toNat < s.params.nch := by
  simp [sensorCheck, failIf_eq_none]

theorem actuatorCheck_eq_none (a : BitVec 8) (s : State) : actuatorCheck a s = none ↔ a.toNat < s.params.nact := by
  simp [actuatorCheck, failIf_eq_none]

theorem winitedCheck_eq_none (c : BitVec 8) (s : State) :
    winitedCheck c s = none ↔ (s.chan c.toNat).winited = true := by
  simp [winitedCheck, failIf_eq_none]

/-- A list of checks that holds the channel check of a sensor command passes only on a channel that exists. -/
theorem onSensor_of_checks {c : BitVec 8} {cs : List (Option Status)} (hi : commandClass i = .sensor)
    (hc : channelOf i = c.toNat) (hm : sensorCheck c s ∈ cs) (h : firstError cs = none) : OnSensor i s :=
  ⟨hi, hc ▸ (sensorCheck_eq_none c s).mp ((firstError_eq_none cs).mp h _ hm)⟩

theorem onActuator_of_checks {a : BitVec 8} {cs : List (Option Status)} (hi : commandClass i = .actuator)
    (hc : channelOf i = a.toNat) (hm : actuatorCheck a s ∈ cs) (h : firstError cs = none) : OnActuator i s :=
  ⟨hi, hc ▸ (actuatorCheck_eq_none a s).mp ((firstError_eq_none cs).mp h _ hm)⟩

/-! ## WRREG -/

/-- Everything a register write can do: nothing to a read-only register, else one write of staging registers. -/
theorem writeReg_cases (r : Reg) (c : BitVec 8) (d : Word) (s : State) :
    writeReg r c d s = s ∨
    (r.cls = .sensor ∧ ∃ st, writeReg r c d s = setChan c.toNat (restaged (s.chan c.toNat) st) s) ∨
    (r.cls = .actuator ∧ ∃ st, writeReg r c d s = setAct c.toNat (restagedAct (s.act c.toNat) st) s) := by
  cases r with
  | fs => exact .inr (.inl ⟨rfl, { s.chan c.toNat with fs := d }, rfl⟩)
  | kind => exact .inr (.inl ⟨rfl, { s.chan c.toNat with kind := d.extractLsb' 0 2 }, rfl⟩)
  | flo => exact .inr (.inl ⟨rfl, { s.chan c.toNat with flo := d }, rfl⟩)
  | fhi => exact .inr (.inl ⟨rfl, { s.chan c.toNat with fhi := d }, rfl⟩)
  | order => exact .inr (.inl ⟨rfl, { s.chan c.toNat with order := d.extractLsb' 0 16 }, rfl⟩)
  | capcfg => exact .inr (.inl ⟨rfl, { s.chan c.toNat with capcfg := d.extractLsb' 0 16 }, rfl⟩)
  | vlo => exact .inr (.inr ⟨rfl, { s.act c.toNat with vlo := d }, rfl⟩)
  | vhi => exact .inr (.inr ⟨rfl, { s.act c.toNat with vhi := d }, rfl⟩)
  | olo => exact .inr (.inr ⟨rfl, { s.act c.toNat with olo := d }, rfl⟩)
  | ohi => exact .inr (.inr ⟨rfl, { s.act c.toNat with ohi := d }, rfl⟩)
  | step => exact .inr (.inr ⟨rfl, { s.act c.toNat with step := d }, rfl⟩)
  | cstat | nst | cap | coef | w | last | param => exact .inl rfl

theorem writeNumber_writes (ch reg idx : BitVec 8) (d : Word) (s : State)
    (h : firstError (portCheck s :: wrregChecks ch reg idx d s) = none) :
    Writes (.wrreg ch reg idx d) s (writeNumber ch reg d s) := by
  cases hr : Reg.ofNumber reg with
  | none => simp only [writeNumber, hr]; exact .refl
  | some r =>
    have hcls : commandClass (.wrreg ch reg idx d) = r.cls := by simp [commandClass, hr]
    have hw : writeNumber ch reg d s = writeReg r ch d s := by simp only [writeNumber, hr]
    have hch : r.channelCheck ch s = none := (firstError_eq_none _).mp h _ (by simp [wrregChecks, hr])
    rw [hw]
    obtain he | ⟨hs, st, he⟩ | ⟨ha, st, he⟩ := writeReg_cases r ch d s
    · rw [he]
    · simp only [Reg.channelCheck, hs, sensorCheck_eq_none] at hch
      rw [he]
      exact .single (.staging st rfl ⟨hcls.trans hs, hch⟩)
    · simp only [Reg.channelCheck, ha, actuatorCheck_eq_none] at hch
      rw [he]
      exact .single (.actStaging st rfl ⟨hcls.trans ha, hch⟩)

/-! ## FINIT and WINIT -/

/-- FINIT goes on only with an order of at least one stage and at most NSMAX stages. -/
theorem order_of_finitChecks {c : BitVec 8} (h : firstError (finitChecks c s) = none) :
    2 ≤ (s.chan c.toNat).order.toNat ∧ (s.chan c.toNat).order.toNat / 2 ≤ s.params.nsmax := by
  simp only [finitChecks, firstError_eq_none, List.forall_mem_cons, failIf_eq_none, Bool.or_eq_false_iff,
    decide_eq_false_iff_not, not_lt] at h
  obtain ⟨-, -, -, -, ⟨-, h2⟩, hn, -⟩ := h
  exact ⟨h2, hn⟩

theorem constructStages_writes (c : BitVec 8) (secs : List Coefs) (n : Nat) (on : OnSensor (.finit c) s)
    (hn : n ≤ s.params.nsmax) : Writes (.finit c) s (constructStages c secs n s) := by
  induction n with
  | zero => exact .refl
  | succ n ih =>
    have hw := ih (by omega)
    have hp := hw.params_eq
    exact hw.tail (.stageInit n _ rfl (on.congr hp) (by rw [hp]; exact hn))

theorem constructCascade_writes (c : BitVec 8) (secs : List Coefs) (h : firstError (finitChecks c s) = none) :
    Writes (.finit c) s (constructCascade c secs s) := by
  have on : OnSensor (.finit c) s := onSensor_of_checks rfl rfl (by simp [finitChecks]) h
  obtain ⟨h2, hn⟩ := order_of_finitChecks h
  have ho := (s.chan c.toNat).order.isLt
  have hw := constructStages_writes c secs s.params.nsmax on le_rfl
  have hch : (constructStages c secs s.params.nsmax s).chan c.toNat = s.chan c.toNat := by
    rw [constructStages_frame]; rfl
  have hlast := Write.finited (BitVec.ofNat 16 ((s.chan c.toNat).order.toNat / 2)) rfl (on.congr hw.params_eq)
    (by rw [hw.params_eq, BitVec.toNat_ofNat, Nat.mod_eq_of_lt (by omega)]; omega)
  rw [show channelOf (.finit c) = c.toNat from rfl, hch] at hlast
  exact hw.tail hlast

theorem execFinit_writes (c : BitVec 8) (h : execFinit c s = .next t) : Writes (.finit c) s t := by
  unfold execFinit at h
  split at h
  · injection h with h
    exact h ▸ (sameRegs_raise _ _ s).writes
  · next hc =>
    split at h
    · injection h with h
      exact h ▸ (constructCascade_writes c _ hc).respondOk _ _ _
    · cases h

/-- WINIT goes on only with a capacity from 1 to CAPMAX. -/
theorem capcfg_of_winitChecks {c : BitVec 8} (h : firstError (winitChecks c s) = none) :
    1 ≤ (s.chan c.toNat).capcfg.toNat ∧ (s.chan c.toNat).capcfg.toNat ≤ s.params.capmax := by
  simp only [winitChecks, firstError_eq_none, List.forall_mem_cons, failIf_eq_none, decide_eq_false_iff_not,
    not_lt] at h
  obtain ⟨-, -, h0, hn, -⟩ := h
  exact ⟨Nat.one_le_iff_ne_zero.mpr h0, hn⟩

theorem constructWindows_writes (c : BitVec 8) (h : firstError (winitChecks c s) = none) :
    Writes (.winit c) s (constructWindows c s) := by
  have on : OnSensor (.winit c) s := onSensor_of_checks rfl rfl (by simp [winitChecks]) h
  have hn := capcfg_of_winitChecks h
  have hz : (List.replicate (s.chan c.toNat).capcfg.toNat posZero).length ≤ s.params.capmax := by simpa using hn.2
  have hraw := Write.windowInit (i := .winit c) .raw _ rfl on hz
  have hfilt := Write.windowInit (i := .winit c) .filt _ rfl (on.congr hraw.params_eq) hz
  exact ((Relation.ReflTransGen.single hraw).tail hfilt).tail (.winited (s.chan c.toNat).capcfg rfl on hn)

/-! ## The filter and the windows -/

theorem biquad_write (k : Nat) (x : Num64) (hi : i.mnemonic ∈ [.filt, .filtb, .tick]) (on : OnSensor i s)
    (hk : k < (s.chan (channelOf i)).nst.toNat) : Writes i s (biquad (channelOf i) k x s).2 := by
  have hd := Write.delays k (biquadStep (fun j => Arith.drawNaN (s.nanDraws + j)) (s.stage (channelOf i) k) x).2.w1
    (s.stage (channelOf i) k).w1 hi on hk
  exact (Relation.ReflTransGen.single hd).tail (.silent _ ⟨rfl, rfl, rfl, rfl, rfl⟩)

theorem cascadeFrom_writes (n k : Nat) (x : Num64) (hi : i.mnemonic ∈ [.filt, .filtb, .tick]) (on : OnSensor i s)
    (hk : k + n ≤ (s.chan (channelOf i)).nst.toNat) : Writes i s (cascadeFrom (channelOf i) k n x s).2 := by
  induction n generalizing k x s with
  | zero => exact .refl
  | succ n ih =>
    have hb := biquad_write k x hi on (by omega)
    have hch : (biquad (channelOf i) k x s).2.chan (channelOf i) = s.chan (channelOf i) := rfl
    exact hb.trans (ih (k + 1) _ (on.congr hb.params_eq) (by rw [hch]; omega))

theorem cascade_writes (c : BitVec 8) (x : Num64) (hi : i.mnemonic ∈ [.filt, .filtb, .tick]) (on : OnSensor i s)
    (hc : channelOf i = c.toNat) : Writes i s (cascade c x s).2 := by
  unfold cascade
  rw [← hc]
  exact cascadeFrom_writes _ 0 x hi on (by omega)

theorem cascadeBatch_writes (c : BitVec 8) (xs : List Num64) (hi : i.mnemonic ∈ [.filt, .filtb, .tick])
    (on : OnSensor i s) (hc : channelOf i = c.toNat) : Writes i s (cascadeBatch c xs s).2 := by
  induction xs generalizing s with
  | nil => exact .refl
  | cons x xs ih =>
    have hx := cascade_writes c x hi on hc
    exact hx.trans (ih (on.congr hx.params_eq))

theorem wpush_write (c : BitVec 8) (w : WinSel) (v : Num64) (hi : i.mnemonic ∈ [.push, .tick]) (on : OnSensor i s)
    (hc : channelOf i = c.toNat) (hw : (s.chan c.toNat).winited = true) : Write i s (wpush c w v s) := by
  unfold wpush
  rw [← hc] at hw ⊢
  exact .window w _ hi on hw (by simp [State.cap, hc])

theorem pushPair_writes (c : BitVec 8) (xr xf : Num64) (hi : i.mnemonic ∈ [.push, .tick]) (on : OnSensor i s)
    (hc : channelOf i = c.toNat) (hw : (s.chan c.toNat).winited = true) : Writes i s (pushPair c xr xf s) := by
  have hraw := wpush_write c .raw xr hi on hc hw
  exact (Relation.ReflTransGen.single hraw).tail (wpush_write c .filt xf hi (on.congr hraw.params_eq) hc hw)

theorem ingest_writes (c : BitVec 8) (x : Num64) (on : OnSensor (.tick c) s) :
    Writes (.tick c) s (ingest c x s) := by
  have hy := cascade_writes c x (i := .tick c) (by simp [Instr.mnemonic]) on rfl
  have hch : (cascade c x s).2.chan c.toNat = s.chan c.toNat := by rw [cascade_frame]; rfl
  refine Writes.respondOk _ _ _ ?_
  split
  · next hw =>
    exact hy.trans (pushPair_writes c x _ (by simp [Instr.mnemonic]) (on.congr hy.params_eq) rfl (hch ▸ hw))
  · exact hy

theorem execTick_writes (c : BitVec 8) (h : execTick c s = .next t) : Writes (.tick c) s t := by
  unfold execTick at h
  have hr : Writes (.tick c) s (boardRead c s).2 := (sameRegs_boardRead c s).writes
  split at h
  · injection h with h
    exact h ▸ (sameRegs_raise _ _ s).writes
  · next hc =>
    have on : OnSensor (.tick c) s := onSensor_of_checks rfl rfl (by simp) hc
    split at h
    · injection h with h
      exact h ▸ hr.respondOk _ _ _
    · exact hr.trans (guarded_writes (fun _ => ingest_writes c _ (on.congr hr.params_eq)) h)

/-! ## The actuators -/

theorem writeActuator_writes (a : BitVec 8) (v : Num64) (hi : i.mnemonic ∈ [.actwr, .drive]) (on : OnActuator i s)
    (ha : channelOf i = a.toNat) : Writes i s (writeActuator a v s).2 := by
  have hb : Writes i s (boardWrite a v s).2 := .single (.silent _ ⟨rfl, rfl, rfl, rfl, rfl⟩)
  unfold writeActuator
  rw [← ha]
  dsimp only
  split
  · exact hb.tail (.last v hi on)
  · exact hb

/-! ## Every command -/

/-- A command that completes has made a run of the writes it is allowed. -/
theorem exec_writes (h : exec i s = .next t) : Writes i s t := by
  cases i with
  | wrreg ch reg idx d => exact guarded_writes (fun hc => (writeNumber_writes ch reg idx d s hc).respondOk _ _ _) h
  | rdreg ch reg idx => exact guarded_writes (fun _ => (sameRegs_respondOk _ _ _ s).writes) h
  | finit c => exact execFinit_writes c h
  | winit c => exact guarded_writes (fun hc => (constructWindows_writes c hc).respondOk _ _ _) h
  | filt c x =>
    refine guarded_writes (fun hc => Writes.respondOk _ _ _ ?_) h
    exact cascade_writes c x (by simp [Instr.mnemonic]) (onSensor_of_checks rfl rfl (by simp) hc) rfl
  | filtb c xs =>
    refine guarded_writes (fun hc => Writes.respondOk _ _ _ ?_) h
    exact cascadeBatch_writes c xs (by simp [Instr.mnemonic]) (onSensor_of_checks rfl rfl (by simp) hc) rfl
  | push c xr xf =>
    refine guarded_writes (fun hc => Writes.respondOk _ _ _ ?_) h
    have hw := (winitedCheck_eq_none c s).mp ((firstError_eq_none _).mp hc _ (by simp))
    exact pushPair_writes c xr xf (by simp [Instr.mnemonic]) (onSensor_of_checks rfl rfl (by simp) hc) rfl hw
  | snap c w => exact guarded_writes (fun _ => (sameRegs_respondOk _ _ _ s).writes) h
  | analyze c w =>
    have hd : SameRegs s { s with magDraws := s.magDraws + binCount (s.cap c) } := ⟨rfl, rfl, rfl, rfl, rfl⟩
    exact guarded_writes (fun _ => Writes.respondOk _ _ _ hd.writes) h
  | map a v => exact guarded_writes (fun _ => Writes.respondOk _ _ _ (sameRegs_drawMap s).writes) h
  | rlim a v => exact guarded_writes (fun _ => (sameRegs_respondOk _ _ _ s).writes) h
  | actwr a v =>
    refine guarded_writes (fun hc => Writes.respondOk _ _ _ ?_) h
    exact writeActuator_writes a v (by simp [Instr.mnemonic]) (onActuator_of_checks rfl rfl (by simp) hc) rfl
  | drive a v =>
    refine guarded_writes (fun hc => Writes.respondOk _ _ _ ?_) h
    have on : OnActuator (.drive a v) s := onActuator_of_checks rfl rfl (by simp) hc
    exact (sameRegs_drawMap s).writes.trans (writeActuator_writes a _ (by simp [Instr.mnemonic]) on rfl)
  | tick c => exact execTick_writes c h

end Sys2Proof.Proofs
end

section
/-! PROOFS. Every step keeps the invariant (10_state.md R36 to R38, R41, R44; 20_memory.md R60), and a served frame runs
the command it decodes to (10_state.md R24). -/

namespace Sys2Proof.Proofs

open Sys2Proof.Machine Sys2Proof.Laws

variable {i : Instr} {s t : State}

/-! ## Each kind of write -/

theorem SameRegs.inv (h : SameRegs s t) (hs : s.Inv) : t.Inv := by
  constructor <;>
    simp only [h.params, h.chans, h.stages, h.acts, h.mem, h.chan_eq, h.stage_eq, h.act_eq, h.win_eq]
  exacts [hs.params, hs.chans, hs.stages, hs.acts, hs.mem, hs.nst_le, hs.cap_le, hs.finited_iff, hs.winited_iff,
    hs.absent_chan, hs.absent_act, hs.absent_stage, hs.absent_win]

/-- A register set of a sensor channel that keeps the bounds of R36 to R38 under parameters `p`. -/
structure ChanBounds (p : Params) (r : ChanRegs) : Prop where
  nst_le : r.nst.toNat ≤ p.nsmax
  cap_le : r.cap.toNat ≤ p.capmax
  finited_iff : r.finited = true ↔ 1 ≤ r.nst.toNat
  winited_iff : r.winited = true ↔ 1 ≤ r.cap.toNat

theorem chanBounds_of_inv (hs : s.Inv) (c : Nat) : ChanBounds s.params (s.chan c) :=
  ⟨hs.nst_le c, hs.cap_le c, hs.finited_iff c, hs.winited_iff c⟩

theorem setChan_inv (hs : s.Inv) {c : Nat} (hc : c < s.params.nch) {r : ChanRegs} (hr : ChanBounds s.params r) :
    (setChan c r s).Inv := by
  have hb (d : Nat) : ChanBounds s.params ((setChan c r s).chan d) := by
    rw [chan_setChan]
    split
    · exact hr
    · exact chanBounds_of_inv hs d
  exact { hs with
    chans := write_wf _ _ _ _ hs.chans
    nst_le := fun d => (hb d).nst_le
    cap_le := fun d => (hb d).cap_le
    finited_iff := fun d => (hb d).finited_iff
    winited_iff := fun d => (hb d).winited_iff
    absent_chan := fun d hd => by
      rw [setChan_params] at hd
      rw [chan_setChan, if_neg (by omega)]
      exact hs.absent_chan d hd }

theorem setStage_inv (hs : s.Inv) {c k : Nat} (hc : c < s.params.nch) (hk : k < s.params.nsmax) (r : StageRegs) :
    (setStage c k r s).Inv := by
  obtain ⟨-, -, ⟨-, hn⟩, -⟩ := hs.params
  exact { hs with
    stages := write_wf _ _ _ _ hs.stages
    absent_stage := fun d j hj hd => by
      rw [setStage_params] at hd
      rw [stage_setStage _ _ _ _ _ _ hj (by omega), if_neg (by omega)]
      exact hs.absent_stage d j hj hd }

theorem setAct_inv (hs : s.Inv) {a : Nat} (ha : a < s.params.nact) (r : ActRegs) : (setAct a r s).Inv :=
  { hs with
    acts := write_wf _ _ _ _ hs.acts
    absent_act := fun b hb => by
      rw [setAct_params] at hb
      rw [act_setAct, if_neg (by omega)]
      exact hs.absent_act b hb }

theorem memWrite_inv (hs : s.Inv) {c : Nat} (hc : c < s.params.nch) (w : WinSel) {vs : List Num64}
    (hv : vs.length ≤ s.params.capmax) : (memWrite c w 0 vs s).Inv := by
  obtain ⟨-, -, -, -, hn⟩ := hs.params
  exact { hs with
    mem := memory_writeFrom_wf _ _ _ hs.mem
    absent_win := fun d x j hj hd => by
      rw [memWrite_params] at hd
      rw [win_memWrite_other _ _ _ _ _ _ _ (by omega) (by omega) hj]
      exact hs.absent_win d x j hj hd }

/-! ## Commands and steps -/

theorem Write.inv (h : Write i s t) (hs : s.Inv) : t.Inv := by
  have hb := chanBounds_of_inv hs (channelOf i)
  cases h with
  | silent _ h => exact h.inv hs
  | staging st _ on => exact setChan_inv hs on.2 ⟨hb.nst_le, hb.cap_le, hb.finited_iff, hb.winited_iff⟩
  | actStaging st _ on => exact setAct_inv hs on.2 _
  | stageInit k r _ on hk => exact setStage_inv hs on.2 hk r
  | finited n _ on hn => exact setChan_inv hs on.2 ⟨hn.2, hb.cap_le, iff_of_true rfl hn.1, hb.winited_iff⟩
  | windowInit w vs _ on hv => exact memWrite_inv hs on.2 w hv
  | winited n _ on hn => exact setChan_inv hs on.2 ⟨hb.nst_le, hn.2, hb.finited_iff, iff_of_true rfl hn.1⟩
  | delays k w1 w2 _ on hk => exact setStage_inv hs on.2 (hk.trans_le hb.nst_le) _
  | window w vs _ on hw hv =>
    have h1 := hb.winited_iff.mp hw
    have h2 := hb.cap_le
    exact memWrite_inv hs on.2 w (by omega)
  | last v _ on => exact setAct_inv hs on.2 _

theorem Writes.inv (h : Writes i s t) (hs : s.Inv) : t.Inv := h.keeps State.Inv (·.inv) hs

theorem resetOf_inv {p : Params} (hp : p.Legal) : (State.resetOf p).Inv where
  params := hp
  chans := ⟨.nil, by simp [State.resetOf]⟩
  stages := ⟨.nil, by simp [State.resetOf]⟩
  acts := ⟨.nil, by simp [State.resetOf]⟩
  mem := ⟨.nil, by simp [State.resetOf]⟩
  nst_le _ := Nat.zero_le _
  cap_le _ := Nat.zero_le _
  finited_iff _ := iff_of_false Bool.false_ne_true (Nat.not_succ_le_zero 0)
  winited_iff _ := iff_of_false Bool.false_ne_true (Nat.not_succ_le_zero 0)
  absent_chan _ _ := rfl
  absent_act _ _ := rfl
  absent_stage _ _ _ _ := rfl
  absent_win _ _ _ _ _ := rfl

theorem sameRegs_setPending (p : Port) (fs : List Frame) (s : State) : SameRegs s (setPending p fs s) := by
  cases p <;> exact ⟨rfl, rfl, rfl, rfl, rfl⟩

/-- Settles O6: the step takes the move, the served agent its oldest frame, and what it decodes to is executed. -/
theorem stepRunsDecodedCommand : Obligations.StepRunsDecodedCommand := by
  intro s p es f fs i hev hpend hdec
  have hp : ({ s with events := es } : State).pending p = f :: fs := by cases p <;> exact hpend
  rw [step_cons s _ es hev, runEvent, serve, dequeue_cons _ p f fs hp]
  simp only [hdec]

/-- Everything a served agent can do: nothing, reject a frame, or execute the command of one. -/
theorem serve_cases {p : Port} (h : serve p s = .next t) :
    SameRegs s t ∨ ∃ i u, SameRegs s u ∧ exec i u = .next t := by
  cases hq : s.pending p with
  | nil =>
    rw [serve, dequeue_nil s p hq] at h
    injection h with h
    exact .inl (h ▸ ⟨rfl, rfl, rfl, rfl, rfl⟩)
  | cons f fs =>
    have hu : SameRegs s { setPending p fs s with active := p } := by cases p <;> exact ⟨rfl, rfl, rfl, rfl, rfl⟩
    rw [serve, dequeue_cons s p f fs hq] at h
    cases hd : decode f with
    | none =>
      simp only [hd] at h
      injection h with h
      obtain ⟨hp, hc, hst, ha, hm⟩ := hu
      exact .inl (h ▸ ⟨hp, hc, hst, ha, hm⟩)
    | some i =>
      simp only [hd] at h
      exact .inr ⟨i, _, hu, h⟩

theorem runEvent_inv {e : Event} (hs : s.Inv) (h : runEvent e s = .next t) : t.Inv ∧ t.params = s.params := by
  cases e with
  | deliver p f =>
    injection h with h
    have hr := sameRegs_setPending p (s.pending p ++ [f]) s
    exact h ▸ ⟨hr.inv hs, hr.params⟩
  | serve p =>
    obtain hr | ⟨i, u, hr, hx⟩ := serve_cases h
    · exact ⟨hr.inv hs, hr.params⟩
    · have hw := exec_writes hx
      exact ⟨hw.inv (hr.inv hs), hw.params_eq.trans hr.params⟩
  | reset =>
    injection h with h
    have hr : SameRegs (State.resetOf s.params) (resetMachine s) := ⟨rfl, rfl, rfl, rfl, rfl⟩
    exact h ▸ ⟨hr.inv (resetOf_inv hs.params), rfl⟩

/-- Settles O50: each single write a command is allowed keeps the invariant, and so do delivery and reset. -/
theorem everyStepKeepsTheInvariant : Obligations.EveryStepKeepsTheInvariant := by
  intro s t hs h
  cases hev : s.events with
  | nil =>
    rw [step_idle s hev] at h
    injection h with h
    exact h ▸ ⟨hs, rfl⟩
  | cons e es =>
    rw [step_cons s e es hev] at h
    have hr : SameRegs s { s with events := es } := ⟨rfl, rfl, rfl, rfl, rfl⟩
    exact runEvent_inv (s := { s with events := es }) (hr.inv hs) h

end Sys2Proof.Proofs
end

section
/-! PROOFS. Which registers, stages and window elements a command writes: those of the channel it names, by the commands
that may (10_state.md R22, R23, R25, R36 to R38, R42, R44; 44_actuator.md R197). -/

namespace Sys2Proof.Proofs

open Sys2Proof.Machine Sys2Proof.Laws

variable {i : Instr} {s t : State}

/-! ## Channels a command does not name -/

theorem OnSensor.ne_of_other {c : Nat} (on : OnSensor i s) (hc : c ≠ channelOf i ∨ commandClass i ≠ .sensor) :
    c ≠ channelOf i := hc.resolve_right (not_not_intro on.1)

theorem OnActuator.ne_of_other {a : Nat} (on : OnActuator i s) (ha : a ≠ channelOf i ∨ commandClass i ≠ .actuator) :
    a ≠ channelOf i := ha.resolve_right (not_not_intro on.1)

theorem Write.chan_other {c : Nat} (hc : c ≠ channelOf i ∨ commandClass i ≠ .sensor) (h : Write i s t) :
    t.chan c = s.chan c := by
  cases h with
  | silent _ h => exact h.chan_eq c
  | staging _ _ on | finited _ _ on | winited _ _ on => rw [chan_setChan, if_neg (on.ne_of_other hc)]
  | _ => rfl

theorem Write.stage_other {c k : Nat} (hp : s.params.Legal) (hk : k < 65536)
    (hc : c ≠ channelOf i ∨ commandClass i ≠ .sensor) (h : Write i s t) : t.stage c k = s.stage c k := by
  cases h with
  | silent _ h => exact h.stage_eq c k
  | stageInit j r _ on hj =>
    obtain ⟨-, -, ⟨-, hn⟩, -⟩ := hp
    rw [stage_setStage _ _ _ _ _ _ hk (by omega), if_neg (not_and_of_not_left _ (on.ne_of_other hc))]
  | delays j w1 w2 _ on hj =>
    rw [stage_setStage _ _ _ _ _ _ hk (by omega), if_neg (not_and_of_not_left _ (on.ne_of_other hc))]
  | _ => rfl

theorem Write.win_other {c j : Nat} (x : WinSel) (hp : s.params.Legal) (hj : j < 65536)
    (hc : c ≠ channelOf i ∨ commandClass i ≠ .sensor) (h : Write i s t) : t.win c x j = s.win c x j := by
  cases h with
  | silent _ h => exact h.win_eq c x j
  | windowInit w vs _ on hv =>
    obtain ⟨-, -, -, -, hn⟩ := hp
    exact win_memWrite_other _ _ _ _ _ _ _ (.inl (on.ne_of_other hc)) (by omega) hj
  | window w vs _ on _ hv => exact win_memWrite_other _ _ _ _ _ _ _ (.inl (on.ne_of_other hc)) (by omega) hj
  | _ => rfl

theorem Write.act_other {a : Nat} (ha : a ≠ channelOf i ∨ commandClass i ≠ .actuator) (h : Write i s t) :
    t.act a = s.act a := by
  cases h with
  | silent _ h => exact h.act_eq a
  | actStaging _ _ on | last _ _ on => rw [act_setAct, if_neg (on.ne_of_other ha)]
  | _ => rfl

/-- Settles O55: no single write of a command reaches a channel the command does not name. -/
theorem otherChannelsAreUntouched : Obligations.OtherChannelsAreUntouched := by
  intro i s t hs h
  have hw := exec_writes h
  refine ⟨fun c hc => ⟨?_, fun k hk => ?_, fun w j hj => ?_⟩, fun a ha => ?_⟩
  · exact hw.apply_eq (State.chan · c) fun _ h => h.chan_other hc
  · exact hw.apply_eq (State.stage · c k) fun hp h => h.stage_other (hp ▸ hs.params) hk hc
  · exact hw.apply_eq (State.win · c w j) fun hp h => h.win_other w (hp ▸ hs.params) hj hc
  · exact hw.apply_eq (State.act · a) fun _ h => h.act_other ha

/-! ## The writers of each kind of register -/

/-- Everything a write can do to the registers of a sensor channel. -/
theorem Write.chan_cases (h : Write i s t) (c : Nat) :
    t.chan c = s.chan c ∨
    (i.mnemonic = .wrreg ∧ ∃ st, t.chan c = restaged (s.chan c) st) ∨
    (i.mnemonic = .finit ∧ ∃ n, t.chan c = { s.chan c with nst := n, finited := true }) ∨
    (i.mnemonic = .winit ∧ ∃ n, t.chan c = { s.chan c with cap := n, winited := true }) := by
  by_cases hc : c = channelOf i
  · subst hc
    cases h with
    | silent _ h => exact .inl (h.chan_eq _)
    | staging st hi => exact .inr (.inl ⟨hi, st, chan_setChan_same _ _ _⟩)
    | finited n hi => exact .inr (.inr (.inl ⟨hi, n, chan_setChan_same _ _ _⟩))
    | winited n hi => exact .inr (.inr (.inr ⟨hi, n, chan_setChan_same _ _ _⟩))
    | _ => exact .inl rfl
  · exact .inl (h.chan_other (.inl hc))

/-- Everything a write can do to the registers of an actuator. -/
theorem Write.act_cases (h : Write i s t) (a : Nat) :
    t.act a = s.act a ∨
    (i.mnemonic = .wrreg ∧ ∃ st, t.act a = restagedAct (s.act a) st) ∨
    (i.mnemonic ∈ [.actwr, .drive] ∧ ∃ v, t.act a = { s.act a with last := v }) := by
  by_cases ha : a = channelOf i
  · subst ha
    cases h with
    | silent _ h => exact .inl (h.act_eq _)
    | actStaging st hi => exact .inr (.inl ⟨hi, st, act_setAct_same _ _ _⟩)
    | last v hi => exact .inr (.inr ⟨hi, v, act_setAct_same _ _ _⟩)
    | _ => exact .inl rfl
  · exact .inl (h.act_other (.inl ha))

/-- Delay writes keep the coefficients of every stage, whatever its number. -/
theorem coef_setStage (c k d j : Nat) (w1 w2 : Num64) :
    ((setStage c k { s.stage c k with w1 := w1, w2 := w2 } s).stage d j).coef = (s.stage d j).coef := by
  rw [State.stage, setStage, read_write]
  split
  · next hk => rw [State.stage, State.stage, hk]
  · rfl

theorem Write.stages_eq (hi : i.mnemonic ∉ [.filt, .filtb, .tick, .finit]) (h : Write i s t) : t.stages = s.stages := by
  cases h with
  | silent _ h => exact h.stages
  | stageInit _ _ hm => simp [hm] at hi
  | delays _ _ _ hm =>
    have hm := List.mem_append_left [Mnemonic.finit] hm
    exact absurd hm hi
  | _ => rfl

theorem Write.coef_eq (hi : i.mnemonic ≠ .finit) (c k : Nat) (h : Write i s t) :
    (t.stage c k).coef = (s.stage c k).coef := by
  cases h with
  | silent _ h => rw [h.stage_eq]
  | stageInit _ _ hm => exact absurd hm hi
  | delays => exact coef_setStage _ _ _ _ _ _
  | _ => rfl

theorem Write.mem_eq (hi : i.mnemonic ∉ [.winit, .push, .tick]) (h : Write i s t) : t.mem = s.mem := by
  cases h with
  | silent _ h => exact h.mem
  | windowInit _ _ hm => simp [hm] at hi
  | window _ _ hm => exact absurd (List.mem_cons_of_mem .winit hm) hi
  | _ => rfl

/-- A constructed channel stays constructed. -/
theorem Write.constructed (c : Nat) (h : Write i s t) :
    ((s.chan c).finited = true → (t.chan c).finited = true) ∧
    ((s.chan c).winited = true → (t.chan c).winited = true) := by
  obtain e | ⟨-, st, e⟩ | ⟨-, n, e⟩ | ⟨-, n, e⟩ := h.chan_cases c <;> rw [e]
  · exact ⟨id, id⟩
  · exact ⟨id, id⟩
  · exact ⟨fun _ => rfl, id⟩
  · exact ⟨id, fun _ => rfl⟩

/-- A part `f` of a sensor channel's registers that the command's own kind of write leaves alone stays as it was. -/
theorem exec_chan_eq {α : Type} (f : ChanRegs → α) (h : exec i s = .next t)
    (hst : i.mnemonic = .wrreg → ∀ r st, f (restaged r st) = f r)
    (hf : i.mnemonic = .finit → ∀ (r : ChanRegs) n, f { r with nst := n, finited := true } = f r)
    (hw : i.mnemonic = .winit → ∀ (r : ChanRegs) n, f { r with cap := n, winited := true } = f r) (c : Nat) :
    f (t.chan c) = f (s.chan c) := by
  refine (exec_writes h).apply_eq (fun u => f (u.chan c)) fun _ h => ?_
  obtain e | ⟨hi, st, e⟩ | ⟨hi, n, e⟩ | ⟨hi, n, e⟩ := h.chan_cases c
  · rw [e]
  · rw [e, hst hi]
  · rw [e, hf hi]
  · rw [e, hw hi]

/-- The same of an actuator's registers. -/
theorem exec_act_eq {α : Type} (f : ActRegs → α) (h : exec i s = .next t)
    (hst : i.mnemonic = .wrreg → ∀ r st, f (restagedAct r st) = f r)
    (hl : i.mnemonic ∈ [.actwr, .drive] → ∀ (r : ActRegs) v, f { r with last := v } = f r) (a : Nat) :
    f (t.act a) = f (s.act a) := by
  refine (exec_writes h).apply_eq (fun u => f (u.act a)) fun _ h => ?_
  obtain e | ⟨hi, st, e⟩ | ⟨hi, v, e⟩ := h.act_cases a
  · rw [e]
  · rw [e, hst hi]
  · rw [e, hl hi]

/-- Settles O56: each clause holds of every single write a command is allowed, so of its run of them. -/
theorem writersOfEachRegister : Obligations.WritersOfEachRegister := by
  intro i s t h
  have hw := exec_writes h
  refine ⟨fun c k hne => ?_, fun c k hne => ?_, fun c hne => ?_, fun c hne => ?_, fun a hne => ?_, fun c hne => ?_,
    fun a hne => ?_, fun c w j hne => ?_, fun c => ?_, fun c => ?_⟩
  · by_contra hi
    have e := hw.apply_eq State.stages fun _ h => h.stages_eq hi
    simp [State.stage, e] at hne
  · by_contra hi
    exact hne (hw.apply_eq (fun u => (u.stage c k).coef) fun _ h => h.coef_eq hi c k)
  · by_contra hi
    have e := exec_chan_eq (fun r => (r.nst, r.finited)) h (fun _ _ _ => rfl) (absurd · hi) (fun _ _ _ => rfl) c
    rw [Prod.mk.injEq] at e
    exact hne.elim (· e.1) (· e.2)
  · by_contra hi
    have e := exec_chan_eq (fun r => (r.cap, r.winited)) h (fun _ _ _ => rfl) (fun _ _ _ => rfl) (absurd · hi) c
    rw [Prod.mk.injEq] at e
    exact hne.elim (· e.1) (· e.2)
  · by_contra hi
    exact hne (exec_act_eq ActRegs.last h (fun _ _ _ => rfl) (absurd · hi) a)
  · by_contra hi
    have e := exec_chan_eq (restaged .reset) h (absurd · hi) (fun _ _ _ => rfl) (fun _ _ _ => rfl) c
    simp only [restaged, ChanRegs.mk.injEq] at e
    simp [e] at hne
  · by_contra hi
    have e := exec_act_eq (restagedAct .reset) h (absurd · hi) (fun _ _ _ => rfl) a
    simp only [restagedAct, ActRegs.mk.injEq] at e
    simp [e] at hne
  · by_contra hi
    have e := hw.apply_eq State.mem fun _ h => h.mem_eq hi
    simp [State.win, e] at hne
  · exact hw.keeps (fun u => (u.chan c).finited = true) fun h => (h.constructed c).1
  · exact hw.keeps (fun u => (u.chan c).winited = true) fun h => (h.constructed c).2

end Sys2Proof.Proofs
end

section
/-! PROOFS. The two ports: the moves of the environment that run no command, what a command on port D leaves alone, and
that port S never waits for port D (20_memory.md R66 to R68; 60_exceptions.md R236, R240). -/

namespace Sys2Proof.Proofs

open Sys2Proof.Machine Sys2Proof.Laws

variable {i : Instr} {s t : State}

/-- Settles O8: delivery is `enqueue`, an agent with an empty port takes no frame, and no move is an idle step. -/
theorem deliveryAndIdling : Obligations.DeliveryAndIdling := by
  refine ⟨fun s p f es hev => ?_, fun s p es hev hp => ?_, fun s hev => step_idle s hev⟩
  · rw [step_cons s _ es hev]
    cases p <;> rfl
  · have hp' : ({ s with events := es } : State).pending p = [] := by cases p <;> exact hp
    rw [step_cons s _ es hev, runEvent, serve, dequeue_nil _ p hp']

/-! ## A command on port D -/

/-- The two states differ in the responses and the count of free magnitudes at most (log 6). -/
def AnswersOnly (s t : State) : Prop := t = { s with responses := t.responses, magDraws := t.magDraws }

theorem answersOnly_raise (op : BitVec 8) (st : Status) (s : State) : AnswersOnly s (raise op st s) := rfl

theorem answersOnly_respondOk (m : Mnemonic) (f : Bool) (ds : List Word) (s : State) :
    AnswersOnly s (respondOk m f ds s) := rfl

theorem guarded_answersOnly {m : Mnemonic} {cs : List (Option Status)} {e : State} (he : AnswersOnly s e)
    (h : guarded m cs s e = .next t) : AnswersOnly s t := by
  obtain ⟨st, -, rfl⟩ | ⟨-, rfl⟩ := guarded_cases s m cs e t h
  · exact answersOnly_raise _ st s
  · exact he

/-- A list of checks that begins with the port check fails there on port D. -/
theorem firstError_portCheck_d (cs : List (Option Status)) (ha : s.active = .d) :
    firstError (portCheck s :: cs) = some .illegalCommand := by
  rw [portCheck_d s ha, firstError_some]

/-- On port D every command outside the read class is refused before any check of its own (R236). -/
theorem exec_write_class_d (ha : s.active = .d) (hi : readClass i = false) :
    exec i s = .next (raise i.mnemonic.opcode .illegalCommand s) := by
  have hd := fun cs => firstError_portCheck_d cs ha
  cases i with
  | rdreg | snap | analyze => cases hi
  | finit c => rw [exec, execFinit, finitChecks, hd]; rfl
  | tick c => rw [exec, execTick, hd]; rfl
  | _ => exact guarded_fail s _ _ _ _ (hd _)

/-- A command of the read class writes nothing, on either port (R111, R163, R175). -/
theorem exec_read_class_answersOnly (hi : readClass i = true) (h : exec i s = .next t) : AnswersOnly s t := by
  cases i with
  | rdreg => exact guarded_answersOnly (answersOnly_respondOk _ _ _ s) h
  | snap => exact guarded_answersOnly (answersOnly_respondOk _ _ _ s) h
  | analyze c w =>
    have hd : AnswersOnly s (respondOk .analyze false (spectrum c w s)
      { s with magDraws := s.magDraws + binCount (s.cap c) }) := rfl
    exact guarded_answersOnly hd h
  | _ => cases hi

/-- Settles O53: on port D a command outside the read class is refused, and one inside it writes nothing. -/
theorem portDWritesNothing : Obligations.PortDWritesNothing := by
  intro i s t ha h
  cases hi : readClass i with
  | false =>
    rw [exec_write_class_d ha hi] at h
    injection h with h
    exact h ▸ answersOnly_raise _ _ s
  | true => exact exec_read_class_answersOnly hi h

/-! ## The queue of port D while port S is served

No operation of a command reads or writes the queue of port D, so each commutes with putting another queue there. -/

variable (q : List Frame)

theorem constructStages_setPending_d (c : BitVec 8) (secs : List Coefs) (n : Nat) (s : State) :
    constructStages c secs n (setPending .d q s) = setPending .d q (constructStages c secs n s) := by
  induction n with
  | zero => rfl
  | succ n ih => rw [constructStages, ih]; rfl

theorem constructCascade_setPending_d (c : BitVec 8) (secs : List Coefs) (s : State) :
    constructCascade c secs (setPending .d q s) = setPending .d q (constructCascade c secs s) :=
  congrArg (setChan c.toNat _) (constructStages_setPending_d q c secs s.params.nsmax s)

theorem cascadeFrom_setPending_d (c k n : Nat) (v : Num64) (s : State) :
    cascadeFrom c k n v (setPending .d q s) =
      ((cascadeFrom c k n v s).1, setPending .d q (cascadeFrom c k n v s).2) := by
  induction n generalizing k v s with
  | zero => rfl
  | succ n ih => exact ih (k + 1) (biquad c k v s).1 (biquad c k v s).2

theorem cascade_setPending_d (c : BitVec 8) (x : Num64) (s : State) :
    cascade c x (setPending .d q s) = ((cascade c x s).1, setPending .d q (cascade c x s).2) :=
  cascadeFrom_setPending_d q _ _ _ _ s

theorem cascadeBatch_setPending_d (c : BitVec 8) (xs : List Num64) (s : State) :
    cascadeBatch c xs (setPending .d q s) = ((cascadeBatch c xs s).1, setPending .d q (cascadeBatch c xs s).2) := by
  induction xs generalizing s with
  | nil => rfl
  | cons x xs ih => simp only [cascadeBatch, cascade_setPending_d, ih]

theorem ingest_setPending_d (c : BitVec 8) (x : Num64) (s : State) :
    ingest c x (setPending .d q s) = setPending .d q (ingest c x s) := by
  have hch : (setPending .d q s).chan c.toNat = s.chan c.toNat := rfl
  simp only [ingest, cascade_setPending_d, hch]
  split <;> rfl

theorem writeNumber_setPending_d (ch reg : BitVec 8) (d : Word) (s : State) :
    writeNumber ch reg d (setPending .d q s) = setPending .d q (writeNumber ch reg d s) := by
  unfold writeNumber
  split
  · rfl
  · next r _ => cases r <;> rfl

theorem writeActuator_setPending_d (a : BitVec 8) (v : Num64) (s : State) :
    writeActuator a v (setPending .d q s) = ((writeActuator a v s).1, setPending .d q (writeActuator a v s).2) := by
  have hb : boardWrite a v (setPending .d q s) = ((boardWrite a v s).1, setPending .d q (boardWrite a v s).2) := rfl
  simp only [writeActuator, hb]
  split <;> rfl

/-- A guarded command with the same checks and the same effect but for the queue of port D. -/
theorem guarded_setPending_d {m : Mnemonic} {cs cs' : List (Option Status)} {e e' : State}
    (h : guarded m cs s e = .next t) (hc : cs' = cs) (he : e' = setPending .d q e) :
    guarded m cs' (setPending .d q s) e' = .next (setPending .d q t) := by
  rw [hc, he]
  obtain ⟨st, hf, rfl⟩ | ⟨hf, rfl⟩ := guarded_cases s m cs e t h
  · exact guarded_fail _ m cs _ st hf
  · exact guarded_pass _ m cs _ hf

theorem execFinit_setPending_d {c : BitVec 8} (h : execFinit c s = .next t) :
    execFinit c (setPending .d q s) = .next (setPending .d q t) := by
  have hc : finitChecks c (setPending .d q s) = finitChecks c s := rfl
  have hs : sectionsFor c (setPending .d q s) = sectionsFor c s := rfl
  have hch : (setPending .d q s).chan c.toNat = s.chan c.toNat := rfl
  unfold execFinit at h ⊢
  simp only [hc, hs, hch, constructCascade_setPending_d]
  split at h
  · injection h with h
    exact h ▸ rfl
  · split at h
    · next hl =>
      injection h with h
      rw [if_pos hl]
      exact h ▸ rfl
    · cases h

theorem execTick_setPending_d {c : BitVec 8} (h : execTick c s = .next t) :
    execTick c (setPending .d q s) = .next (setPending .d q t) := by
  have hc : [portCheck (setPending .d q s), sensorCheck c (setPending .d q s), finitedCheck c (setPending .d q s)] =
    [portCheck s, sensorCheck c s, finitedCheck c s] := rfl
  have hr : boardRead c (setPending .d q s) = ((boardRead c s).1, setPending .d q (boardRead c s).2) := rfl
  unfold execTick at h ⊢
  simp only [hc, hr]
  split at h
  · injection h with h
    exact h ▸ rfl
  · split at h
    · injection h with h
      exact h ▸ rfl
    · exact guarded_setPending_d q h rfl (ingest_setPending_d q c _ _)

/-- Whatever waits on port D, a command completes with the same effect. -/
theorem exec_setPending_d (h : exec i s = .next t) : exec i (setPending .d q s) = .next (setPending .d q t) := by
  cases i with
  | wrreg ch reg idx d =>
    exact guarded_setPending_d q h rfl (congrArg (respondOk .wrreg false []) (writeNumber_setPending_d q ch reg d s))
  | finit c => exact execFinit_setPending_d q h
  | filt c x =>
    refine guarded_setPending_d q h rfl ?_
    rw [cascade_setPending_d]
    rfl
  | filtb c xs =>
    refine guarded_setPending_d q h rfl ?_
    rw [cascadeBatch_setPending_d]
    rfl
  | actwr a v =>
    refine guarded_setPending_d q h rfl ?_
    rw [writeActuator_setPending_d]
    rfl
  | drive a v =>
    have hd : drawMap (setPending .d q s) = setPending .d q (drawMap s) := rfl
    have hv : driveValue a v (setPending .d q s) = driveValue a v s := rfl
    refine guarded_setPending_d q h rfl ?_
    rw [hd, hv, writeActuator_setPending_d]
    rfl
  | tick c => exact execTick_setPending_d q h
  | rdreg | winit | push | snap | analyze | map | rlim => exact guarded_setPending_d q h rfl rfl

theorem serve_s_setPending_d (h : serve .s s = .next t) :
    serve .s (setPending .d q s) = .next (setPending .d q t) := by
  unfold serve at h ⊢
  cases hp : s.pending .s with
  | nil =>
    rw [dequeue_nil s _ hp] at h
    rw [dequeue_nil (setPending .d q s) .s hp]
    injection h with h
    rw [h]
  | cons f fs =>
    rw [dequeue_cons s _ f fs hp] at h
    rw [dequeue_cons (setPending .d q s) .s f fs hp]
    cases hd : decode f with
    | none =>
      simp only [hd] at h ⊢
      injection h with h
      exact h ▸ rfl
    | some i =>
      simp only [hd] at h ⊢
      exact exec_setPending_d q h

/-- Settles O54: the agent of port S takes the same frame, and the command in it runs alike. -/
theorem portDNeverDelaysPortS : Obligations.PortDNeverDelaysPortS := by
  intro s t es q hev h
  rw [step_cons s _ es hev] at h
  rw [step_cons { s with portD := q } _ es hev]
  exact serve_s_setPending_d q h

end Sys2Proof.Proofs
end

section
/-! PROOFS. Frames and commands: the rows of the opcode map are the matches of the table, each command has one frame and
each frame at most one command (30_encoding.md R80 to R87, R95). -/

namespace Sys2Proof.Proofs

open Sys2Proof.Machine Sys2Proof.Laws

/-! ## Fields -/

theorem append_eq_append_iff {v w : ℕ} (a b : BitVec v) (c d : BitVec w) : a ++ c = b ++ d ↔ a = b ∧ c = d := by
  constructor
  · intro h
    have hl := congrArg (BitVec.extractLsb' w v) h
    have hr := congrArg (BitVec.extractLsb' 0 w) h
    rw [BitVec.extractLsb'_append_eq_left, BitVec.extractLsb'_append_eq_left] at hl
    rw [BitVec.extractLsb'_append_eq_right, BitVec.extractLsb'_append_eq_right] at hr
    exact ⟨hl, hr⟩
  · rintro ⟨rfl, rfl⟩
    rfl

/-- A header is its three fields (R80). -/
theorem fields_append (h : BitVec 32) : opField h ++ chField h ++ argField h = h := by
  have hhi : opField h ++ chField h = h.extractLsb' 16 16 := BitVec.extractLsb'_append_extractLsb'_eq_extractLsb' rfl
  rw [hhi]
  exact BitVec.extractLsb'_append_extractLsb' (w := 16) (len := 16) (x := h)

theorem headerOf_fields {m : Mnemonic} {h : BitVec 32} (hop : opField h = m.opcode) :
    headerOf m (chField h) (argField h) = h := by
  rw [headerOf, ← hop, fields_append]

/-- An ARG is its REG and its IDX (R81). -/
theorem regField_append_idxField (arg : BitVec 16) : regField arg ++ idxField arg = arg :=
  BitVec.extractLsb'_append_extractLsb' (w := 8) (len := 8) (x := arg)

theorem regField_append (reg idx : BitVec 8) : regField (reg ++ idx) = reg := BitVec.extractLsb'_append_eq_left

theorem idxField_append (reg idx : BitVec 8) : idxField (reg ++ idx) = idx := BitVec.extractLsb'_append_eq_right

theorem winField_winArg (w : WinSel) : winField (winArg w) = w := by cases w <;> rfl

/-- An ARG whose bits 15:1 are zero is a window select (R81). -/
theorem winArg_winField {arg : BitVec 16} (h : arg &&& 0xFFFE#16 = 0#16) : winArg (winField arg) = arg := by
  have hbit : arg = arg &&& 1#16 := by
    have hall : arg &&& (0xFFFE#16 ||| 1#16) = arg := BitVec.and_allOnes
    rw [BitVec.and_or_distrib_left, h, BitVec.zero_or] at hall
    exact hall.symm
  rw [hbit, BitVec.and_one_eq_setWidth_ofBool_getLsbD]
  cases arg.getLsbD 0 <;> rfl

theorem eq_zero_of_and_ones {arg : BitVec 16} (h : arg &&& 0xFFFF#16 = 0#16) : arg = 0#16 := by
  rwa [show (0xFFFF#16) = BitVec.allOnes 16 from rfl, BitVec.and_allOnes] at h

/-! ## Rows -/

theorem find_opcode_eq_some (op : BitVec 8) (m : Mnemonic) :
    Mnemonic.all.find? (fun m => m.opcode == op) = some m ↔ m.opcode = op := by
  constructor
  · intro h
    simpa using List.find?_some h
  · rintro rfl
    cases m <;> rfl

/-- The decoder selects a row by OP and the must-be-zero bits of ARG (R84, R86 (a), (b)). -/
theorem selectRow_eq_some_iff_fields (h : BitVec 32) (m : Mnemonic) :
    selectRow h = some m ↔ opField h = m.opcode ∧ argField h &&& m.argMbz = 0#16 := by
  unfold selectRow
  constructor
  · intro hs
    split at hs
    · next m' hf =>
      split at hs
      · next hz =>
        cases hs
        exact ⟨((find_opcode_eq_some _ _).mp hf).symm, hz⟩
      · cases hs
    · cases hs
  · rintro ⟨hop, hz⟩
    rw [(find_opcode_eq_some _ m).mpr hop.symm]
    exact if_pos hz

theorem mask_eq_fields (m : Mnemonic) : m.mask = BitVec.allOnes 8 ++ 0#8 ++ m.argMbz := by cases m <;> rfl

theorem pattern_eq_fields (m : Mnemonic) : m.pattern = m.opcode ++ 0#8 ++ 0#16 := by cases m <;> rfl

/-- A header matches a row under its mask where its OP is the row's and the must-be-zero bits are zero (R84). -/
theorem matches_iff_fields (h : BitVec 32) (m : Mnemonic) :
    h &&& m.mask = m.pattern ↔ opField h = m.opcode ∧ argField h &&& m.argMbz = 0#16 := by
  have hand : h &&& m.mask = opField h ++ 0#8 ++ (argField h &&& m.argMbz) := by
    calc h &&& m.mask = (opField h ++ chField h ++ argField h) &&& (BitVec.allOnes 8 ++ 0#8 ++ m.argMbz) := by
          rw [fields_append, mask_eq_fields]
      _ = _ := by rw [BitVec.and_append, BitVec.and_append, BitVec.and_allOnes, BitVec.and_zero]
  rw [hand, pattern_eq_fields, append_eq_append_iff, append_eq_append_iff]
  simp

theorem selectRow_eq_some_iff (h : BitVec 32) (m : Mnemonic) : selectRow h = some m ↔ h &&& m.mask = m.pattern :=
  (selectRow_eq_some_iff_fields h m).trans (matches_iff_fields h m).symm

theorem decode_of_selectRow_none {h : BitVec 32} (hs : selectRow h = none) (ds : List Word) :
    decode ⟨h, ds⟩ = none := by
  simp only [decode, hs]

theorem decode_of_selectRow_some {h : BitVec 32} {m : Mnemonic} (hs : selectRow h = some m) (ds : List Word) :
    decode ⟨h, ds⟩ = operands m (chField h) (argField h) ds := by
  simp only [decode, hs]

/-- Settles O4: the fields the decoder tests are those under the mask. -/
theorem rowsAreTheMatchMaskTable : Obligations.RowsAreTheMatchMaskTable := by
  intro h
  have row := selectRow_eq_some_iff h
  exact ⟨row .wrreg, row .rdreg, row .finit, row .winit, row .filt, row .filtb, row .push, row .snap, row .analyze,
    row .map, row .rlim, row .actwr, row .drive, row .tick, decode_of_selectRow_none⟩

/-! ## Operands -/

theorem hasLength_iff (ds : List Word) (n : ℕ) : hasLength ds n = true ↔ ds.length = n := by
  induction ds generalizing n with
  | nil => cases n <;> simp [hasLength]
  | cons d ds ih => cases n <;> simp [hasLength, ih]

/-- The one row whose number of data words the frame chooses. Lean makes no equations for `operands`, so this and the
cases below evaluate it. -/
theorem operands_filtb (ch : BitVec 8) (arg : BitVec 16) (ds : List Word) :
    operands .filtb ch arg ds = if hasLength ds arg.toNat then some (.filtb ch ds) else none := rfl

/-- A selected row makes a command of its fields exactly where the frame has the row's number of data words (R82). -/
theorem operands_eq_none_iff (m : Mnemonic) (ch : BitVec 8) (arg : BitVec 16) (ds : List Word) :
    operands m ch arg ds = none ↔ ds.length ≠ m.dataWords arg := by
  cases m with
  | filtb => simp [operands_filtb, Mnemonic.dataWords, hasLength_iff]
  | _ =>
    match ds with
    | [] | [_] | [_, _] | _ :: _ :: _ :: _ => delta operands; simp [Mnemonic.dataWords]

/-- Settles O5: no row is selected, or the operands of the selected one are refused. -/
theorem illegalFramesExactly : Obligations.IllegalFramesExactly := by
  rintro ⟨h, ds⟩
  simp only [ne_eq, ← selectRow_eq_some_iff]
  cases hs : selectRow h with
  | none => simp [decode_of_selectRow_none hs]
  | some m => simp [decode_of_selectRow_some hs, operands_eq_none_iff]

/-! ## Encoding and decoding -/

/-- Format H puts the fields where the decoder reads them. -/
theorem decode_headerOf (m : Mnemonic) (ch : BitVec 8) (arg : BitVec 16) (ds : List Word)
    (hz : arg &&& m.argMbz = 0#16) : decode ⟨headerOf m ch arg, ds⟩ = operands m ch arg ds := by
  have hs : selectRow (headerOf m ch arg) = some m := by
    rw [selectRow_eq_some_iff_fields, opField_headerOf, argField_headerOf]
    exact ⟨rfl, hz⟩
  rw [decode_of_selectRow_some hs, chField_headerOf, argField_headerOf]

/-- Settles O2: each command's header selects its own row, and the row reads back the fields and data words. -/
theorem decodeAfterEncode : Obligations.DecodeAfterEncode := by
  intro i hi
  cases i with
  | wrreg ch reg idx d =>
    exact (decode_headerOf .wrreg ch (reg ++ idx) [d] BitVec.and_zero).trans <|
      congrArg₂ (fun r i => some (Instr.wrreg ch r i d)) (regField_append reg idx) (idxField_append reg idx)
  | rdreg ch reg idx =>
    exact (decode_headerOf .rdreg ch (reg ++ idx) [] BitVec.and_zero).trans <|
      congrArg₂ (fun r i => some (Instr.rdreg ch r i)) (regField_append reg idx) (idxField_append reg idx)
  | filtb ch xs =>
    have hlen : hasLength xs (BitVec.ofNat 16 xs.length).toNat = true := by
      simp only [Instr.wellFormed, decide_eq_true_eq] at hi
      rw [hasLength_iff, BitVec.toNat_ofNat, Nat.mod_eq_of_lt (by omega)]
    exact (decode_headerOf .filtb ch _ xs BitVec.and_zero).trans (if_pos hlen)
  | snap ch w =>
    exact (decode_headerOf .snap ch (winArg w) [] (by cases w <;> rfl)).trans <|
      congrArg (fun w => some (Instr.snap ch w)) (winField_winArg w)
  | analyze ch w =>
    exact (decode_headerOf .analyze ch (winArg w) [] (by cases w <;> rfl)).trans <|
      congrArg (fun w => some (Instr.analyze ch w)) (winField_winArg w)
  | finit | winit | filt | push | map | rlim | actwr | drive | tick => exact decode_headerOf _ _ 0#16 _ BitVec.zero_and

/-- What a row makes of its fields and data words is well formed and encodes as them. -/
theorem encode_of_operands {m : Mnemonic} {ch : BitVec 8} {arg : BitVec 16} {ds : List Word} {i : Instr}
    (hz : arg &&& m.argMbz = 0#16) (h : operands m ch arg ds = some i) :
    encode i = ⟨headerOf m ch arg, ds⟩ ∧ i.wellFormed = true := by
  have hl : ds.length = m.dataWords arg := by
    by_contra hn
    rw [(operands_eq_none_iff m ch arg ds).mpr hn] at h
    cases h
  cases m with
  | wrreg =>
    obtain ⟨d, rfl⟩ := List.length_eq_one_iff.mp hl
    cases h
    exact ⟨by rw [encode, regField_append_idxField], rfl⟩
  | rdreg =>
    obtain rfl := List.length_eq_zero_iff.mp hl
    cases h
    exact ⟨by rw [encode, regField_append_idxField], rfl⟩
  | filtb =>
    have hN : ds.length = arg.toNat := hl
    rw [operands_filtb, if_pos ((hasLength_iff ds _).mpr hN)] at h
    cases h
    have hlt := arg.isLt
    exact ⟨by rw [encode, hN, BitVec.ofNat_toNat, BitVec.setWidth_eq], decide_eq_true (by omega)⟩
  | snap | analyze =>
    obtain rfl := List.length_eq_zero_iff.mp hl
    cases h
    exact ⟨by rw [encode, winArg_winField hz], rfl⟩
  | finit | winit | tick =>
    obtain rfl := List.length_eq_zero_iff.mp hl
    obtain rfl := eq_zero_of_and_ones hz
    cases h
    exact ⟨rfl, rfl⟩
  | filt | map | rlim | actwr | drive =>
    obtain ⟨x, rfl⟩ := List.length_eq_one_iff.mp hl
    obtain rfl := eq_zero_of_and_ones hz
    cases h
    exact ⟨rfl, rfl⟩
  | push =>
    obtain ⟨xr, xf, rfl⟩ := List.length_eq_two.mp hl
    obtain rfl := eq_zero_of_and_ones hz
    cases h
    exact ⟨rfl, rfl⟩

/-- Settles O3: a frame that decodes has the header of the row it selects. -/
theorem encodeAfterDecode : Obligations.EncodeAfterDecode := by
  rintro ⟨h, ds⟩ i hi
  cases hs : selectRow h with
  | none => rw [decode_of_selectRow_none hs] at hi; cases hi
  | some m =>
    rw [decode_of_selectRow_some hs] at hi
    obtain ⟨hop, hz⟩ := (selectRow_eq_some_iff_fields _ _).mp hs
    have he := encode_of_operands hz hi
    rwa [headerOf_fields hop] at he

/-! ## The worked encodings -/

theorem idxStage_stageIdx (s : BitVec 5) (k : BitVec 3) : idxStage (stageIdx s k) = s.toNat :=
  congrArg BitVec.toNat (BitVec.extractLsb'_append_eq_left (a := s) (b := k))

theorem idxElem_stageIdx (s : BitVec 5) (k : BitVec 3) : idxElem (stageIdx s k) = k.toNat :=
  congrArg BitVec.toNat (BitVec.extractLsb'_append_eq_right (a := s) (b := k))

theorem ofNumber_number (r : Reg) : Reg.ofNumber r.number = some r := by cases r <;> rfl

/-- Settles O1: each worked frame is evaluated, and each row of the table is an equation of `encode`. -/
theorem workedEncodingsDecode : Obligations.WorkedEncodingsDecode := by
  refine ⟨by decide, by decide, by decide, fun c reg idx d x y xs => ?_, ofNumber_number,
    fun s k => ⟨idxStage_stageIdx s k, idxElem_stageIdx s k⟩⟩
  exact ⟨rfl, rfl, rfl, rfl, rfl, rfl, rfl, rfl, rfl, rfl, rfl, rfl, rfl, rfl, rfl, rfl⟩

end Sys2Proof.Proofs
end

section
/-! PROOFS. Every command answers once, with a status its row of the table allows, and every response is well formed
(30_encoding.md R86, R90, R91; 60_exceptions.md section 1, R232). -/

namespace Sys2Proof.Proofs

open Sys2Proof.Machine Sys2Proof.Laws

variable {i : Instr} {s t u : State}

/-! ## Updates that answer nothing -/

/-- No response is given and the executing port stays the same. -/
structure Silent (s t : State) : Prop where
  responses : t.responses = s.responses
  active : t.active = s.active

theorem silent_writeNumber (ch reg : BitVec 8) (d : Word) (s : State) : Silent s (writeNumber ch reg d s) := by
  unfold writeNumber
  split
  · exact ⟨rfl, rfl⟩
  · next r _ =>
    obtain he | ⟨-, st, he⟩ | ⟨-, st, he⟩ := writeReg_cases r ch d s <;> rw [he] <;> exact ⟨rfl, rfl⟩

theorem silent_constructCascade (c : BitVec 8) (secs : List Coefs) (s : State) :
    Silent s (constructCascade c secs s) := by
  rw [constructCascade, constructStages_frame]
  exact ⟨rfl, rfl⟩

theorem silent_cascade (c : BitVec 8) (x : Num64) (s : State) : Silent s (cascade c x s).2 := by
  rw [cascade_frame]
  exact ⟨rfl, rfl⟩

theorem silent_cascadeBatch (c : BitVec 8) (xs : List Num64) (s : State) : Silent s (cascadeBatch c xs s).2 := by
  rw [cascadeBatch_frame]
  exact ⟨rfl, rfl⟩

theorem silent_writeActuator (a : BitVec 8) (v : Num64) (s : State) : Silent s (writeActuator a v s).2 := by
  unfold writeActuator
  dsimp only
  split <;> exact ⟨rfl, rfl⟩

/-! ## Checks and the statuses of the table -/

/-- Every status these checks can fail with is one the table gives the command. -/
def Allowed (i : Instr) (cs : List (Option Status)) : Prop := ∀ c ∈ cs, ∀ st, c = some st → st ∈ mayAnswer i

@[simp] theorem allowed_nil (i : Instr) : Allowed i [] := fun _ h => nomatch h

@[simp] theorem allowed_none (i : Instr) (cs : List (Option Status)) : Allowed i (none :: cs) ↔ Allowed i cs := by
  simp [Allowed]

@[simp] theorem allowed_some (i : Instr) (st : Status) (cs : List (Option Status)) :
    Allowed i (some st :: cs) ↔ st ∈ mayAnswer i ∧ Allowed i cs := by
  simp [Allowed]

@[simp] theorem allowed_failIf (i : Instr) (b : Bool) (st : Status) (cs : List (Option Status)) :
    Allowed i (failIf b st :: cs) ↔ (b = true → st ∈ mayAnswer i) ∧ Allowed i cs := by
  cases b <;> simp

theorem ok_mem_mayAnswer (i : Instr) : .ok ∈ mayAnswer i := by cases i <;> exact List.mem_cons_self

theorem outOfRange_mem_mayAnswer (i : Instr) : .outOfRange ∈ mayAnswer i := by cases i <;> simp [mayAnswer]

/-! The register checks of R110 and R111 fail with OutOfRange only, which every command may answer. -/

@[simp] theorem allowed_channelCheck (r : Reg) (ch : BitVec 8) (s : State) (cs : List (Option Status)) :
    Allowed i (r.channelCheck ch s :: cs) ↔ Allowed i cs := by
  unfold Reg.channelCheck
  cases r.cls <;> simp [sensorCheck, actuatorCheck, outOfRange_mem_mayAnswer]

@[simp] theorem allowed_indexCheck (r : Reg) (idx : BitVec 8) (s : State) (cs : List (Option Status)) :
    Allowed i (r.indexCheck idx s :: cs) ↔ Allowed i cs := by
  unfold Reg.indexCheck
  split <;> simp [outOfRange_mem_mayAnswer]

@[simp] theorem allowed_widthCheck (r : Reg) (d : Word) (cs : List (Option Status)) :
    Allowed i (r.widthCheck d :: cs) ↔ Allowed i cs := by
  unfold Reg.widthCheck
  split <;> simp [outOfRange_mem_mayAnswer]

theorem allowed_wrreg (ch reg idx : BitVec 8) (d : Word) (s : State) :
    Allowed (.wrreg ch reg idx d) (portCheck s :: wrregChecks ch reg idx d s) := by
  cases hr : Reg.ofNumber reg <;> simp [wrregChecks, hr, portCheck, mayAnswer]

theorem allowed_rdreg (ch reg idx : BitVec 8) (s : State) : Allowed (.rdreg ch reg idx) (rdregChecks ch reg idx s) := by
  cases hr : Reg.ofNumber reg <;> simp [rdregChecks, hr, mayAnswer]

theorem allowed_finit (c : BitVec 8) (s : State) : Allowed (.finit c) (finitChecks c s) := by
  simp [finitChecks, portCheck, sensorCheck, rateCheck, mayAnswer]

theorem allowed_winit (c : BitVec 8) (s : State) : Allowed (.winit c) (winitChecks c s) := by
  simp [winitChecks, portCheck, sensorCheck, mayAnswer]

/-! ## One answer per command -/

/-- What command `i` appends to the responses: an error of its row of the table, or OK with data that CNT can count. -/
inductive Answers (i : Instr) (s t : State) : Prop
  | error (st : Status) (hst : st ∈ mayAnswer i) (h : t.responses = (raise i.mnemonic.opcode st s).responses)
  | ok (f : Bool) (ds : List Word) (hds : i.wellFormed = true → ds.length < 65536)
      (h : t.responses = (respondOk i.mnemonic f ds s).responses)

theorem respondOk_answers {f : Bool} {ds : List Word} (hu : Silent s u)
    (hds : i.wellFormed = true → ds.length < 65536) : Answers i s (respondOk i.mnemonic f ds u) :=
  .ok f ds hds (by rw [respondOk_responses, respondOk_responses, hu.responses, hu.active])

theorem Answers.of_silent (hu : Silent s u) (h : Answers i u t) : Answers i s t := by
  cases h with
  | error st hst h => exact .error st hst (by rw [h, raise_responses, raise_responses, hu.responses, hu.active])
  | ok f ds hds h =>
    exact .ok f ds hds (by rw [h, respondOk_responses, respondOk_responses, hu.responses, hu.active])

theorem raise_answers {cs : List (Option Status)} {st : Status} (hcs : Allowed i cs) (h : firstError cs = some st) :
    Answers i s (raise i.mnemonic.opcode st s) := .error st (hcs _ (firstError_mem cs st h) st rfl) rfl

/-- A guarded command answers with the status of a check or with the response of its effect. -/
theorem guarded_answers {cs : List (Option Status)} {f : Bool} {ds : List Word}
    (h : guarded i.mnemonic cs s (respondOk i.mnemonic f ds u) = .next t) (hcs : Allowed i cs) (hu : Silent s u)
    (hds : i.wellFormed = true → ds.length < 65536) : Answers i s t := by
  obtain ⟨st, hst, rfl⟩ | ⟨-, rfl⟩ := guarded_cases s _ cs _ t h
  · exact raise_answers hcs hst
  · exact respondOk_answers hu hds

theorem execFinit_answers {c : BitVec 8} (h : execFinit c s = .next t) : Answers (.finit c) s t := by
  unfold execFinit at h
  split at h
  · next st hst =>
    injection h with h
    exact h ▸ raise_answers (allowed_finit c s) hst
  · split at h
    · injection h with h
      exact h ▸ respondOk_answers (i := .finit c) (silent_constructCascade c _ s) (fun _ => by simp)
    · cases h

theorem silent_ingested (c : BitVec 8) (x y : Num64) (s : State) :
    Silent s (if (s.chan c.toNat).winited then pushPair c x y (cascade c x s).2 else (cascade c x s).2) := by
  have hc := silent_cascade c x s
  split
  · exact ⟨hc.responses, hc.active⟩
  · exact hc

theorem execTick_answers {c : BitVec 8} (h : execTick c s = .next t) : Answers (.tick c) s t := by
  have hr : Silent s (boardRead c s).2 := ⟨rfl, rfl⟩
  unfold execTick at h
  split at h
  · next st hst =>
    injection h with h
    refine h ▸ raise_answers ?_ hst
    simp [portCheck, sensorCheck, finitedCheck, mayAnswer]
  · split at h
    · injection h with h
      exact h ▸ respondOk_answers (i := .tick c) hr (fun _ => by simp)
    · next x _ =>
      have hg := guarded_answers (i := .tick c) h (by simp [sampleCheck, mayAnswer])
        (silent_ingested c x _ _) (fun _ => by simp)
      exact hg.of_silent hr

theorem spectrumFrom_length (q fs : Num64) (x : List Num64) (d k n : ℕ) :
    (spectrumFrom q fs x d k n).length = 2 * n := by
  induction n generalizing d k with
  | zero => rfl
  | succ n ih => simp only [spectrumFrom, List.length_cons, ih]; omega

theorem spectrum_length_lt (c : BitVec 8) (w : WinSel) (s : State) : (Machine.spectrum c w s).length < 65536 := by
  have := cap_lt s c
  rw [Machine.spectrum, spectrumFrom_length, binCount]
  omega

/-- A command that completes has answered once. -/
theorem exec_answers (h : exec i s = .next t) : Answers i s t := by
  cases i with
  | wrreg ch reg idx d =>
    exact guarded_answers h (allowed_wrreg ch reg idx d s) (silent_writeNumber ch reg d s) (fun _ => by simp)
  | rdreg ch reg idx => exact guarded_answers h (allowed_rdreg ch reg idx s) ⟨rfl, rfl⟩ (fun _ => by simp)
  | finit c => exact execFinit_answers h
  | winit c => exact guarded_answers h (allowed_winit c s) ⟨rfl, rfl⟩ (fun _ => by simp)
  | filt c x =>
    refine guarded_answers h ?_ (silent_cascade c x s) (fun _ => by simp)
    simp [portCheck, sensorCheck, finitedCheck, sampleCheck, mayAnswer]
  | filtb c xs =>
    refine guarded_answers h ?_ (silent_cascadeBatch c xs s) (fun hw => ?_)
    · simp [portCheck, sensorCheck, finitedCheck, sampleCheck, mayAnswer]
    · have hn : xs.length ≤ 65535 := of_decide_eq_true hw
      rw [cascadeBatch_length]
      omega
  | push c xr xf =>
    refine guarded_answers h ?_ ⟨rfl, rfl⟩ (fun _ => by simp)
    simp [portCheck, sensorCheck, winitedCheck, mayAnswer]
  | snap c w =>
    refine guarded_answers h ?_ ⟨rfl, rfl⟩ (fun _ => by rw [windowOf_length]; exact cap_lt s c)
    simp [sensorCheck, winitedCheck, mayAnswer]
  | analyze c w =>
    refine guarded_answers h ?_ ⟨rfl, rfl⟩ (fun _ => spectrum_length_lt c w s)
    simp [sensorCheck, winitedCheck, rateCheck, mayAnswer]
  | map a v =>
    refine guarded_answers h ?_ ⟨rfl, rfl⟩ (fun _ => by simp)
    simp [portCheck, actuatorCheck, rangeCheck, mayAnswer]
  | rlim a v =>
    refine guarded_answers h ?_ ⟨rfl, rfl⟩ (fun _ => by simp)
    simp [portCheck, actuatorCheck, stepCheck, mayAnswer]
  | actwr a v =>
    refine guarded_answers h ?_ (silent_writeActuator a v s) (fun _ => by simp)
    simp [portCheck, actuatorCheck, mayAnswer]
  | drive a v =>
    have hw := silent_writeActuator a (driveValue a v s) (drawMap s)
    refine guarded_answers h ?_ ⟨hw.responses, hw.active⟩ (fun _ => by simp)
    simp [portCheck, actuatorCheck, stepCheck, rangeCheck, mayAnswer]
  | tick c => exact execTick_answers h

/-- Settles O48: the one answer of a command is an error of its row or OK. -/
theorem oneResponsePerCommand : Obligations.OneResponsePerCommand := by
  intro i s t h
  cases exec_answers h with
  | error st hst h => exact ⟨false, st, [], hst, h⟩
  | ok f ds _ h => exact ⟨f, .ok, ds, ok_mem_mayAnswer i, h⟩

/-! ## Well-formed responses -/

theorem reservedField_responseHeader (op : BitVec 8) (f : Bool) (st : Status) (n : ℕ) :
    (responseHeader op f st n).extractLsb' 20 3 = 0#3 := by
  rw [responseHeader, BitVec.extractLsb'_append_eq_of_le (by decide), BitVec.extractLsb'_append_eq_of_le (by decide)]
  exact BitVec.extractLsb'_append_eq_right

theorem code_le (st : Status) : st.code.toNat ≤ 8 := by cases st <;> decide

theorem wellFormed_responseHeader {p : Port} {op : BitVec 8} {f : Bool} {st : Status} {ds : List Word}
    (hn : ds.length < 65536) (he : st ≠ .ok → f = false ∧ ds = []) :
    Response.WellFormed ⟨p, responseHeader op f st ds.length, ds⟩ := by
  refine ⟨reservedField_responseHeader .., ?_, ?_, fun h0 => ?_⟩
  · rw [statusField_responseHeader]
    exact code_le st
  · rw [cntField_responseHeader, BitVec.toNat_ofNat]
    exact Nat.mod_eq_of_lt hn
  · rw [statusField_responseHeader] at h0
    rw [flagField_responseHeader]
    exact he fun h => h0 (h ▸ rfl)

/-- Every response so far is well formed. -/
def AllWellFormed (s : State) : Prop := ∀ r ∈ s.responses, r.WellFormed

theorem AllWellFormed.append {r : Response} (hs : AllWellFormed s) (hr : r.WellFormed)
    (h : t.responses = s.responses ++ [r]) : AllWellFormed t := by
  intro r' hr'
  rw [h, List.mem_append, List.mem_singleton] at hr'
  obtain hr' | rfl := hr'
  · exact hs r' hr'
  · exact hr

theorem AllWellFormed.raise (hs : AllWellFormed s) (op : BitVec 8) (st : Status) : AllWellFormed (raise op st s) :=
  hs.append (wellFormed_responseHeader (ds := []) (by decide) fun _ => ⟨rfl, rfl⟩) (raise_responses s op st)

/-- A command a frame can carry keeps the responses well formed: its batch, and so its answer, is one CNT can count. -/
theorem exec_allWellFormed (hs : AllWellFormed s) (hi : i.wellFormed = true) (h : exec i s = .next t) :
    AllWellFormed t := by
  cases exec_answers h with
  | error st _ h => exact hs.append (wellFormed_responseHeader (ds := []) (by decide) fun _ => ⟨rfl, rfl⟩) h
  | ok f ds hds h => exact hs.append (wellFormed_responseHeader (hds hi) fun hok => absurd rfl hok) h

theorem allWellFormed_setPending (hs : AllWellFormed s) (p : Port) (fs : List Frame) :
    AllWellFormed (setPending p fs s) := by
  cases p <;> exact hs

theorem serve_allWellFormed {p : Port} (hs : AllWellFormed s) (h : serve p s = .next t) : AllWellFormed t := by
  unfold serve at h
  cases hq : s.pending p with
  | nil =>
    rw [dequeue_nil s p hq] at h
    injection h with h
    exact h ▸ hs
  | cons f fs =>
    have hu : AllWellFormed { setPending p fs s with active := p } := allWellFormed_setPending hs p fs
    rw [dequeue_cons s p f fs hq] at h
    cases hd : decode f with
    | none =>
      simp only [hd] at h
      injection h with h
      exact h ▸ hu.raise _ _
    | some i =>
      simp only [hd] at h
      exact exec_allWellFormed hu (encodeAfterDecode f i hd).2 h

theorem runEvent_allWellFormed {e : Event} (hs : AllWellFormed s) (h : runEvent e s = .next t) :
    AllWellFormed t := by
  cases e with
  | deliver p f =>
    injection h with h
    exact h ▸ allWellFormed_setPending hs p _
  | serve p => exact serve_allWellFormed hs h
  | reset =>
    injection h with h
    exact h ▸ hs

/-- Settles O51: a step appends at most one response, that of a rejected frame or of a command a frame can carry. -/
theorem everyStepKeepsResponsesWellFormed : Obligations.EveryStepKeepsResponsesWellFormed := by
  intro s t hs h
  cases hev : s.events with
  | nil =>
    rw [step_idle s hev] at h
    injection h with h
    exact h ▸ hs
  | cons e es =>
    rw [step_cons s e es hev] at h
    exact runEvent_allWellFormed (s := { s with events := es }) hs h

/-! ## Rejected frames -/

/-- The header of an error: OP, and zeros but for the status (R90). -/
theorem responseHeader_error (op : BitVec 8) (st : Status) :
    responseHeader op false st 0 = op ++ 0#4 ++ st.code ++ 0#16 := by
  have hzeros : op ++ BitVec.ofBool false ++ 0#3 = op ++ 0#4 := BitVec.append_assoc
  rw [responseHeader, hzeros]

/-- Settles O7: the frame is taken off its queue and raises IllegalCommand there. -/
theorem illegalFrameIsRejected : Obligations.IllegalFrameIsRejected := by
  intro s p es f fs hev hpend hdec
  have hp : ({ s with events := es } : State).pending p = f :: fs := by cases p <;> exact hpend
  refine ⟨_, ?_, rfl⟩
  rw [step_cons s _ es hev, runEvent, serve, dequeue_cons _ p f fs hp]
  simp only [hdec, rejectFrame, raise, responseHeader_error]
  cases p <;> rfl

end Sys2Proof.Proofs
end

section
/-! PROOFS. Register access: what the checks of WRREG and RDREG refuse, what RDREG answers and what WRREG writes
(10_state.md section 4; 40_config_init.md R110, R111). -/

namespace Sys2Proof.Proofs

open Sys2Proof.Machine Sys2Proof.Laws

variable {s : State} {ch reg idx : BitVec 8} {d : Word} {r : Reg}

/-! ## The checks -/

/-- The high bits of a word are not all zero exactly where its value does not fit below them. -/
theorem extractLsb'_bne_zero (d : Word) (k n : ℕ) (h : k + n = 64) :
    (d.extractLsb' k n != 0#n) = decide (2 ^ k ≤ d.toNat) := by
  have hd : d.toNat < 2 ^ k * 2 ^ n := by rw [← pow_add, h]; exact d.isLt
  have hz : d.extractLsb' k n = 0#n ↔ d.toNat < 2 ^ k := by
    rw [← BitVec.toNat_inj, BitVec.extractLsb'_toNat, BitVec.toNat_ofNat, Nat.zero_mod, Nat.shiftRight_eq_div_pow,
      Nat.mod_eq_of_lt (Nat.div_lt_of_lt_mul hd), Nat.div_eq_zero_iff_lt (by positivity)]
  rw [Bool.eq_iff_iff, bne_iff_ne, decide_eq_true_eq, ne_eq, hz, not_lt]

/-- CH is out of range for the register's class. -/
theorem channelCheck_eq (r : Reg) (ch : BitVec 8) (s : State) :
    r.channelCheck ch s =
      failIf (decide (r.cls = .sensor ∧ s.params.nch ≤ ch.toNat ∨ r.cls = .actuator ∧ s.params.nact ≤ ch.toNat ∨
        r.cls = .global ∧ ch ≠ 0#8)) .outOfRange := by
  unfold Reg.channelCheck
  cases r.cls <;> simp [sensorCheck, actuatorCheck, bne, Bool.beq_eq_decide_eq]

/-- IDX is out of the range RDREG gives the register. -/
theorem indexCheck_eq (r : Reg) (idx : BitVec 8) (s : State) :
    r.indexCheck idx s =
      failIf (decide (r = .coef ∧ (s.params.nsmax ≤ idxStage idx ∨ 5 < idxElem idx) ∨
        r = .w ∧ (s.params.nsmax ≤ idxStage idx ∨ 1 < idxElem idx) ∨ r = .param ∧ 4 < idx.toNat ∨
        r ≠ .coef ∧ r ≠ .w ∧ r ≠ .param ∧ idx ≠ 0#8)) .outOfRange := by
  cases r <;> simp [Reg.indexCheck, bne, Bool.beq_eq_decide_eq]

/-- The value is too wide for an integer register. -/
theorem widthCheck_eq (r : Reg) (d : Word) :
    r.widthCheck d =
      failIf (decide (r = .kind ∧ 4 ≤ d.toNat ∨ (r = .order ∨ r = .capcfg) ∧ 65536 ≤ d.toNat)) .outOfRange := by
  have h2 := extractLsb'_bne_zero d 2 62 rfl
  have h16 := extractLsb'_bne_zero d 16 48 rfl
  cases r <;> simp [Reg.widthCheck, h2, h16]

/-- Of checks that all fail with one status, that status is reported exactly where one of them fails. -/
theorem firstError_failIf_eq_some (b : Bool) (st : Status) (cs : List (Option Status)) :
    firstError (failIf b st :: cs) = some st ↔ b = true ∨ firstError cs = some st := by
  cases b <;> simp

theorem exec_rdreg_fail {st : Status} (h : firstError (rdregChecks ch reg idx s) = some st) :
    exec (.rdreg ch reg idx) s = .next (raise 0x02#8 st s) := guarded_fail s .rdreg _ _ st h

theorem exec_wrreg_fail {st : Status} (ha : s.active = .s) (h : firstError (wrregChecks ch reg idx d s) = some st) :
    exec (.wrreg ch reg idx d) s = .next (raise 0x01#8 st s) :=
  guarded_fail s .wrreg _ _ st (by rw [portCheck_s s ha, firstError_none, h])

theorem rdregChecks_eq_outOfRange_iff (hr : Reg.ofNumber reg = some r) :
    firstError (rdregChecks ch reg idx s) = some .outOfRange ↔
      r.channelCheck ch s = some .outOfRange ∨ r.indexCheck idx s = some .outOfRange := by
  simp only [rdregChecks, hr, channelCheck_eq, indexCheck_eq, firstError_failIf_eq_some, failIf_eq_some, and_true,
    firstError_nil, reduceCtorEq, or_false]

theorem wrregChecks_eq_outOfRange_iff (hr : Reg.ofNumber reg = some r) (hw : r.readOnly = false) :
    firstError (wrregChecks ch reg idx d s) = some .outOfRange ↔
      r.channelCheck ch s = some .outOfRange ∨ idx ≠ 0#8 ∨ r.widthCheck d = some .outOfRange := by
  simp only [wrregChecks, hr, hw, failIf_false, firstError_none, channelCheck_eq, widthCheck_eq,
    firstError_failIf_eq_some, failIf_eq_some, and_true, bne_iff_ne, firstError_nil, reduceCtorEq, or_false]

/-- Settles O44: each check is put as the condition it refuses, and all but the read-only check fail with OutOfRange. -/
theorem registerAccessErrors : Obligations.RegisterAccessErrors := by
  intro ch reg idx d s
  refine ⟨fun hr => ⟨exec_rdreg_fail ?_, fun ha => exec_wrreg_fail ha ?_⟩, fun r hr =>
    ⟨fun ha hro => exec_wrreg_fail ha ?_, fun hch => ⟨exec_rdreg_fail ?_, fun ha hw => exec_wrreg_fail ha ?_⟩,
      fun ha hw hbad => exec_wrreg_fail ha ?_, fun hidx => exec_rdreg_fail ?_⟩⟩
  · simp only [rdregChecks, hr, firstError_some]
  · simp only [wrregChecks, hr, firstError_some]
  · simp only [wrregChecks, hr, hro, failIf_true, firstError_some]
  · rw [rdregChecks_eq_outOfRange_iff hr, channelCheck_eq, decide_eq_true hch]
    exact .inl rfl
  · rw [wrregChecks_eq_outOfRange_iff hr hw, channelCheck_eq, decide_eq_true hch]
    exact .inl rfl
  · rw [wrregChecks_eq_outOfRange_iff hr hw, widthCheck_eq, failIf_eq_some, decide_eq_true_eq]
    exact .inr (hbad.imp_right fun h => ⟨h, rfl⟩)
  · rw [rdregChecks_eq_outOfRange_iff hr, indexCheck_eq, decide_eq_true hidx]
    exact .inr rfl

/-! ## RDREG -/

/-- A register read within its ranges answers one data word and changes nothing else. -/
theorem exec_rdreg_pass (hr : Reg.ofNumber reg = some r) (hc : r.channelCheck ch s = none)
    (hi : r.indexCheck idx s = none) :
    exec (.rdreg ch reg idx) s =
      .next { s with responses := s.responses ++ [⟨s.active, 0x02000001#32, [readReg r ch idx s]⟩] } := by
  have hcs : firstError (rdregChecks ch reg idx s) = none := by simp only [rdregChecks, hr, hc, hi]; rfl
  have hv : readNumber ch reg idx s = readReg r ch idx s := by simp only [readNumber, hr]
  have hh : responseHeader Mnemonic.rdreg.opcode false .ok 1 = 0x02000001#32 := by decide
  rw [exec, execRdreg, guarded_pass s _ _ _ hcs, hv, respondOk, List.length_singleton, hh]

/-- CSTAT is 2 * WINITED + FINITED (R36). -/
theorem cstat_eq (r : ChanRegs) :
    cstat r = BitVec.ofNat 64 ((if r.winited then 2 else 0) + (if r.finited then 1 else 0)) := by
  unfold cstat
  cases r.winited <;> cases r.finited <;> rfl

theorem exec_rdreg_coef (hc : ch.toNat < s.params.nch) (k : BitVec 5) (j : BitVec 3) (hk : k.toNat < s.params.nsmax)
    (hj : j.toNat ≤ 5) :
    exec (.rdreg ch 0x10#8 (k ++ j)) s =
      .next { s with responses := s.responses ++
        [⟨s.active, 0x02000001#32, [coefElem (s.stage ch.toNat k.toNat).coef j.toNat]⟩] } := by
  have hs : idxStage (k ++ j) = k.toNat := idxStage_stageIdx k j
  have he : idxElem (k ++ j) = j.toNat := idxElem_stageIdx k j
  rw [exec_rdreg_pass (r := .coef) rfl (sensorCheck_in s ch hc)
    (by simp only [Reg.indexCheck, failIf_eq_none, hs, he, Bool.or_eq_false_iff, decide_eq_false_iff_not]; omega),
    readReg, hs, he]

theorem exec_rdreg_w (hc : ch.toNat < s.params.nch) (k : BitVec 5) (j : BitVec 3) (hk : k.toNat < s.params.nsmax)
    (hj : j.toNat ≤ 1) :
    exec (.rdreg ch 0x11#8 (k ++ j)) s =
      .next { s with responses := s.responses ++ [⟨s.active, 0x02000001#32,
        [if j.toNat = 0 then (s.stage ch.toNat k.toNat).w1 else (s.stage ch.toNat k.toNat).w2]⟩] } := by
  have hs : idxStage (k ++ j) = k.toNat := idxStage_stageIdx k j
  have he : idxElem (k ++ j) = j.toNat := idxElem_stageIdx k j
  rw [exec_rdreg_pass (r := .w) rfl (sensorCheck_in s ch hc)
    (by simp only [Reg.indexCheck, failIf_eq_none, hs, he, Bool.or_eq_false_iff, decide_eq_false_iff_not]; omega),
    readReg, hs, he]

/-- Settles O12: every register number of the map passes both checks, and `readReg` gives its value. -/
theorem rdregReturnsTheRegister : Obligations.RdregReturnsTheRegister := by
  intro ch s ok
  refine ⟨fun hc => ?_, fun ha => ?_, ?_⟩
  · have hs := sensorCheck_in s ch hc
    refine ⟨exec_rdreg_pass (r := .fs) rfl hs rfl, exec_rdreg_pass (r := .kind) rfl hs rfl,
      exec_rdreg_pass (r := .flo) rfl hs rfl, exec_rdreg_pass (r := .fhi) rfl hs rfl,
      exec_rdreg_pass (r := .order) rfl hs rfl, exec_rdreg_pass (r := .capcfg) rfl hs rfl, ?_,
      exec_rdreg_pass (r := .nst) rfl hs rfl, exec_rdreg_pass (r := .cap) rfl hs rfl, fun k hk => ?_⟩
    · rw [← cstat_eq]
      exact exec_rdreg_pass (r := .cstat) rfl hs rfl
    · have hcoef := exec_rdreg_coef hc k (hk := hk)
      have hw := exec_rdreg_w hc k (hk := hk)
      exact ⟨hcoef 0#3 (by decide), hcoef 1#3 (by decide), hcoef 2#3 (by decide), hcoef 3#3 (by decide),
        hcoef 4#3 (by decide), hcoef 5#3 (by decide), hw 0#3 (by decide), hw 1#3 (by decide)⟩
  · have hs := actuatorCheck_in s ch ha
    exact ⟨exec_rdreg_pass (r := .vlo) rfl hs rfl, exec_rdreg_pass (r := .vhi) rfl hs rfl,
      exec_rdreg_pass (r := .olo) rfl hs rfl, exec_rdreg_pass (r := .ohi) rfl hs rfl,
      exec_rdreg_pass (r := .step) rfl hs rfl, exec_rdreg_pass (r := .last) rfl hs rfl⟩
  · exact ⟨exec_rdreg_pass (r := .param) rfl rfl rfl, exec_rdreg_pass (r := .param) rfl rfl rfl,
      exec_rdreg_pass (r := .param) rfl rfl rfl, exec_rdreg_pass (r := .param) rfl rfl rfl,
      exec_rdreg_pass (r := .param) rfl rfl rfl⟩

/-! ## WRREG -/

/-- Reading a register sees the parameters and the channel's own registers, stages and actuator alone. -/
theorem readReg_congr {t : State} (r : Reg) (ch idx : BitVec 8) (hp : t.params = s.params)
    (hc : t.chan ch.toNat = s.chan ch.toNat) (hs : ∀ k, t.stage ch.toNat k = s.stage ch.toNat k)
    (ha : t.act ch.toNat = s.act ch.toNat) : readReg r ch idx t = readReg r ch idx s := by
  cases r <;> simp only [readReg, hp, hc, hs, ha]

theorem readReg_respondOk (r : Reg) (ch idx : BitVec 8) (m : Mnemonic) (f : Bool) (ds : List Word) (s : State) :
    readReg r ch idx (respondOk m f ds s) = readReg r ch idx s :=
  readReg_congr r ch idx rfl rfl (fun _ => rfl) rfl

/-- A number that fits its low bits is kept by a register of that width. -/
theorem setWidth_extractLsb'_zero {d : Word} {n : ℕ} (hn : n ≤ 64) (h : d.toNat < 2 ^ n) :
    (d.extractLsb' 0 n).setWidth 64 = d := by
  apply BitVec.eq_of_toNat_eq
  rw [BitVec.toNat_setWidth_of_le hn, BitVec.extractLsb'_toNat, Nat.shiftRight_zero, Nat.mod_eq_of_lt h]

/-- A staging register reads back the value written, where it fits. -/
theorem readReg_writeReg_same (hw : r.readOnly = false) (hk : r = .kind → d.toNat < 4)
    (ho : r = .order ∨ r = .capcfg → d.toNat < 65536) : readReg r ch idx (writeReg r ch d s) = d := by
  cases r with
  | cstat | nst | cap | coef | w | last | param => cases hw
  | fs | flo | fhi => simp only [readReg, writeReg, chan_setChan_same]
  | vlo | vhi | olo | ohi | step => simp only [readReg, writeReg, act_setAct_same]
  | kind =>
    simp only [readReg, writeReg, chan_setChan_same]
    exact setWidth_extractLsb'_zero (by decide) (hk rfl)
  | order | capcfg =>
    simp only [readReg, writeReg, chan_setChan_same]
    exact setWidth_extractLsb'_zero (by decide) (ho (by simp))

/-- A register write is not seen on another channel. -/
theorem readReg_writeReg_channel {r' : Reg} {ch' : BitVec 8} (h : ch' ≠ ch) :
    readReg r' ch' idx (writeReg r ch d s) = readReg r' ch' idx s := by
  have hne : ch'.toNat ≠ ch.toNat := fun e => h (BitVec.eq_of_toNat_eq e)
  obtain e | ⟨-, st, e⟩ | ⟨-, st, e⟩ := writeReg_cases r ch d s <;> rw [e]
  · exact readReg_congr r' ch' idx rfl (by rw [chan_setChan, if_neg hne]) (fun _ => rfl) rfl
  · exact readReg_congr r' ch' idx rfl rfl (fun _ => rfl) (by rw [act_setAct, if_neg hne])

/-- A register write is not seen in another register of the channel: each writes one field. -/
theorem readReg_writeReg_register {r' : Reg} (h : r' ≠ r) :
    readReg r' ch idx (writeReg r ch d s) = readReg r' ch idx s := by
  cases r with
  | cstat | nst | cap | coef | w | last | param => rfl
  | fs | kind | flo | fhi | order | capcfg => cases r' <;> simp [readReg, writeReg, cstat] at h ⊢
  | vlo | vhi | olo | ohi | step => cases r' <;> simp [readReg, writeReg] at h ⊢

/-- A register write changes the two register files at most. -/
theorem writeReg_frame (r : Reg) (ch : BitVec 8) (d : Word) (s : State) :
    writeReg r ch d s = { s with chans := (writeReg r ch d s).chans, acts := (writeReg r ch d s).acts } := by
  obtain e | ⟨-, st, e⟩ | ⟨-, st, e⟩ := writeReg_cases r ch d s <;> rw [e] <;> rfl

/-- Settles O11: the checks pass, and `writeReg` is read back in its own register and in no other. -/
theorem wrregWritesOneStagingRegister : Obligations.WrregWritesOneStagingRegister := by
  intro ch reg d r s ha hr hw hs hact hk ho
  have hc : r.channelCheck ch s = none := by
    rw [channelCheck_eq, failIf_eq_none, decide_eq_false_iff_not]
    rintro (⟨h, hle⟩ | ⟨h, hle⟩ | ⟨h, -⟩)
    · exact absurd (hs h) (by omega)
    · exact absurd (hact h) (by omega)
    · cases r <;> cases h
      cases hw
  have hd : r.widthCheck d = none := by
    rw [widthCheck_eq, failIf_eq_none, decide_eq_false_iff_not]
    rintro (⟨h, hle⟩ | ⟨h, hle⟩)
    · exact absurd (hk h) (by omega)
    · exact absurd (ho h) (by omega)
  have hcs : firstError (portCheck s :: wrregChecks ch reg 0#8 d s) = none := by
    simp only [wrregChecks, hr, portCheck_s s ha, hw, hc, hd]
    rfl
  have hwr : writeNumber ch reg d s = writeReg r ch d s := by simp only [writeNumber, hr]
  refine ⟨respondOk .wrreg false [] (writeReg r ch d s), ?_, ?_, ?_, ?_, fun r' ch' idx' hne => ?_⟩
  · rw [exec, execWrreg, guarded_pass s _ _ _ hcs, hwr]
  · rw [writeReg_frame]
    rfl
  · rw [writeReg_frame, ← ha]
    rfl
  · rw [readReg_respondOk]
    exact readReg_writeReg_same hw hk ho
  · rw [readReg_respondOk]
    by_cases hch : ch' = ch
    · subst hch
      exact readReg_writeReg_register (hne.resolve_right (not_not_intro rfl))
    · exact readReg_writeReg_channel hch

end Sys2Proof.Proofs
end

section
/-! PROOFS. Construction: what FINIT and WINIT construct, and that a sample after FINIT sees nothing of what was there
before (40_config_init.md R112 to R117, R120). -/

namespace Sys2Proof.Proofs

open Sys2Proof.Machine Sys2Proof.Machine.Arith Sys2Proof.Laws

variable {s : State} {c : BitVec 8}

/-! ## FINIT -/

/-- Settles O14: past the checks FINIT compares the number of sections with ORDER div 2 before it writes. -/
theorem finitRefusesABadDesign : Obligations.FinitRefusesABadDesign := by
  intro c s hc hl
  rw [exec, execFinit, hc]
  exact if_neg hl

theorem exec_finit_pass (hc : firstError (finitChecks c s) = none)
    (hl : (sectionsFor c s).length = (s.chan c.toNat).order.toNat / 2) :
    exec (.finit c) s = .next (respondOk .finit false [] (constructCascade c (sectionsFor c s) s)) := by
  rw [exec, execFinit, hc]
  exact if_pos hl

/-- FINIT writes the stage file and the channel file, nothing else. -/
theorem constructCascade_frame (c : BitVec 8) (secs : List Coefs) (s : State) :
    constructCascade c secs s =
      { s with
        chans := (constructCascade c secs s).chans, stages := (constructStages c secs s.params.nsmax s).stages } := by
  rw [constructCascade, constructStages_frame]
  rfl

theorem constructCascade_params (c : BitVec 8) (secs : List Coefs) (s : State) :
    (constructCascade c secs s).params = s.params := by rw [constructCascade_frame]

theorem constructCascade_nanDraws (c : BitVec 8) (secs : List Coefs) (s : State) :
    (constructCascade c secs s).nanDraws = s.nanDraws := by rw [constructCascade_frame]

theorem chan_constructCascade (c : BitVec 8) (secs : List Coefs) (s : State) (d : ℕ) :
    (constructCascade c secs s).chan d =
      if d = c.toNat then
        { s.chan c.toNat with nst := BitVec.ofNat 16 ((s.chan c.toNat).order.toNat / 2), finited := true }
      else s.chan d := by
  rw [constructCascade, chan_setChan, constructStages_frame]
  rfl

theorem stage_constructCascade (c : BitVec 8) (secs : List Coefs) (s : State) (d j : ℕ) (hn : s.params.nsmax ≤ 32)
    (hj : j < 65536) :
    (constructCascade c secs s).stage d j =
      if d = c.toNat ∧ j < s.params.nsmax then ⟨secs.getD j Coefs.zero, posZero, posZero⟩ else s.stage d j := by
  rw [constructCascade, setChan_stage]
  exact stage_constructStages s c secs _ d j (by omega) hj

/-! The checks of the cutoffs draw no NaN: both divisions are of finite numbers greater than zero. -/

theorem lt_eq_true_iff (a b : Num64) :
    lt a b = true ↔ isNaN a = false ∧ isNaN b = false ∧ orderKey a < orderKey b := by
  simp [lt, and_assoc]

theorem gt_posZero_iff (a : Num64) : gt a posZero = true ↔ isNaN a = false ∧ signBit a = false ∧ 0 < magBits a := by
  have h0 : orderKey posZero = 0 := by decide
  have hn : isNaN posZero = false := by decide
  rw [gt, lt_eq_true_iff, h0, orderKey]
  cases signBit a <;> simp [hn]

/-- A number between +0.0 and another number is finite. -/
theorem finite_of_gt_of_lt {a b : Num64} (h0 : gt a posZero = true) (h : lt a b = true) : finite a = true := by
  obtain ⟨-, hs, -⟩ := (gt_posZero_iff a).mp h0
  obtain ⟨-, hb, hlt⟩ := (lt_eq_true_iff a b).mp h
  have hb' : magBits b ≤ infMag := by simpa [isNaN] using hb
  have hle : orderKey b ≤ magBits b := by unfold orderKey; split <;> omega
  have ha : orderKey a = magBits a := by simp [orderKey, hs]
  rw [finite, decide_eq_true_eq]
  omega

/-- A finite number greater than +0.0 has a quotient by every number. -/
theorem div_draws_nothing {a b : Num64} (q q' : Num64) (ha : finite a = true) (h0 : gt a posZero = true)
    (hb : isNaN b = false) : div q a b = div q' a b := by
  obtain ⟨hn, -, hpos⟩ := (gt_posZero_iff a).mp h0
  have hz : isZero a = false := decide_eq_false hpos.ne'
  unfold div
  rw [hn, hb, isInf_eq_false_of_finite a ha, hz]
  rfl

/-- A valid cutoff relative to the Nyquist frequency, whatever NaNs the two divisions are given to answer. -/
theorem normalised_draws_nothing {f fs : Num64} (q q' : Num64) (hfs : finite fs = true) (hfs0 : gt fs posZero = true)
    (hf : gt f posZero = true) (hlt : lt f (div q fs two) = true) :
    div q f (div q fs two) = div q' f (div q' fs two) := by
  obtain ⟨-, hn, -⟩ := (lt_eq_true_iff _ _).mp hlt
  rw [← div_draws_nothing q q' hfs hfs0 (by decide : isNaN two = false)]
  exact div_draws_nothing q q' (finite_of_gt_of_lt hf hlt) hf hn

theorem kindOf_eq_some {k : BitVec 2} {kind : FilterKind} (h : kindOf k = some kind) :
    k ≠ 3#2 ∧ (k = 0#2 ↔ kind = .lowpass) := by
  revert k
  cases kind <;> decide

theorem sectionsFor_eq {kind : FilterKind} (hk : kindOf (s.chan c.toNat).kind = some kind) :
    sectionsFor c s =
      designOf s.params kind
        (div (drawNaN s.nanDraws) (s.chan c.toNat).flo (nyquist (drawNaN s.nanDraws) (s.chan c.toNat)))
        (if kind = .lowpass then none else
          some (div (drawNaN s.nanDraws) (s.chan c.toNat).fhi (nyquist (drawNaN s.nanDraws) (s.chan c.toNat))))
        (s.chan c.toNat).order.toNat := by
  simp only [sectionsFor, hk]

/-- FINIT's checks pass on legal staging registers, the Nyquist frequency read with any word for a NaN. -/
theorem finitChecks_pass {r : ChanRegs} {kind : FilterKind} (q : Num64) (hr : r = s.chan c.toNat) (ha : s.active = .s)
    (hc : c.toNat < s.params.nch) (hfs : finite r.fs = true) (hfs0 : gt r.fs posZero = true)
    (hk : kindOf r.kind = some kind) (heven : r.order.toNat % 2 = 0) (h2 : 2 ≤ r.order.toNat)
    (hn : r.order.toNat / 2 ≤ s.params.nsmax) (hlo0 : gt r.flo posZero = true)
    (hlo : lt r.flo (div q r.fs two) = true)
    (hband : kind ≠ .lowpass →
      gt r.fhi posZero = true ∧ lt r.fhi (div q r.fs two) = true ∧ lt r.flo r.fhi = true) :
    firstError (finitChecks c s) = none := by
  obtain ⟨hk3, hk0⟩ := kindOf_eq_some hk
  have hnyq : nyquist (drawNaN s.nanDraws) r = div q r.fs two := div_draws_nothing _ q hfs hfs0 (by decide)
  have hhi : r.kind = 0#2 ∨ cutoffValid (drawNaN s.nanDraws) r r.fhi = true ∧ lt r.flo r.fhi = true := by
    by_cases hkl : kind = .lowpass
    · exact .inl (hk0.mpr hkl)
    · obtain ⟨h0, hlt, hlohi⟩ := hband hkl
      exact .inr ⟨by rw [cutoffValid, hnyq, h0, hlt]; rfl, hlohi⟩
  rw [finitChecks, ← hr]
  simp only [firstError_eq_none, List.forall_mem_cons, failIf_eq_none, rateCheck]
  refine ⟨portCheck_s s ha, sensorCheck_in s c hc, by simp [hfs, hfs0], by simpa using hk3, ?_, by simpa using hn, ?_,
    ?_, ?_, by simp⟩
  · rw [heven, decide_eq_false (by omega : ¬r.order.toNat < 2)]
    rfl
  · rw [cutoffValid, hnyq, hlo0, hlo]
    rfl
  · obtain h | ⟨h, -⟩ := hhi <;> simp [h]
  · obtain h | ⟨-, h⟩ := hhi <;> simp [h]

/-- Settles O13: the checks pass, the two divisions draw no NaN, and the constructed state is read back. -/
theorem finitConstructsTheCascade : Obligations.FinitConstructsTheCascade := by
  intro c q kind s r secs hr hmax ha hc hfs hfs0 hk heven h2 hn hlo0 hlo hband hsecs hlen
  have hcs := finitChecks_pass q hr ha hc hfs hfs0 hk heven h2 hn hlo0 hlo hband
  subst hr
  have hs : sectionsFor c s = secs := by
    rw [hsecs, sectionsFor_eq hk, nyquist, ← normalised_draws_nothing q _ hfs hfs0 hlo0 hlo]
    split
    · rfl
    · next hkl =>
      obtain ⟨hhi0, hhi, -⟩ := hband hkl
      rw [← normalised_draws_nothing q _ hfs hfs0 hhi0 hhi]
  have hstage := stage_constructCascade c secs s
  refine ⟨_, exec_finit_pass hcs (hs ▸ hlen), ?_, ?_, ?_, fun c' hc' => ?_, fun k hk => ?_, fun k hk hkn => ?_,
    fun k hk => ?_, fun c' k hk hor => ?_⟩ <;> rw [hs]
  · rw [constructCascade_frame]
    rfl
  · rw [constructCascade_frame, ← ha]
    rfl
  · rw [respondOk_chan, chan_constructCascade, if_pos rfl]
  · rw [respondOk_chan, chan_constructCascade, if_neg hc']
  · rw [respondOk_stage, hstage _ _ hmax (by omega), if_pos ⟨rfl, by omega⟩, List.getD_eq_getElem?_getD,
      List.getElem?_eq_getElem (by omega)]
    rfl
  · rw [respondOk_stage, hstage _ _ hmax (by omega), if_pos ⟨rfl, hkn⟩, List.getD_eq_default _ _ (by omega)]
    rfl
  · rw [respondOk_stage, hstage _ _ hmax (by omega), if_pos ⟨rfl, hk⟩]
    exact ⟨rfl, rfl⟩
  · rw [respondOk_stage, hstage _ _ hmax hk, if_neg (by omega)]

/-! ## A sample after FINIT -/

theorem finitChecks_ne_ok (c : BitVec 8) (s : State) : firstError (finitChecks c s) ≠ some .ok := by
  intro h
  have hm := firstError_mem _ _ h
  simp [finitChecks, portCheck, sensorCheck, rateCheck, failIf_eq_some, eq_comm (a := some Status.ok)] at hm

theorem eq_ok_of_code_eq {st : Status} (h : st.code = 0#4) : st = .ok := by
  revert h
  cases st <;> decide

/-- A FINIT that answers OK has passed its checks and constructed the cascade. -/
theorem exec_finit_ok {t : State} (h : exec (.finit c) s = .next t)
    (ht : t.responses = s.responses ++ [⟨.s, 0x10000000#32, []⟩]) :
    firstError (finitChecks c s) = none ∧
      t = respondOk .finit false [] (constructCascade c (sectionsFor c s) s) := by
  rw [exec, execFinit] at h
  split at h
  · next st hst =>
    injection h with h
    subst h
    rw [raise_responses, List.append_cancel_left_eq, List.cons.injEq, Response.mk.injEq] at ht
    obtain ⟨⟨-, hh, -⟩, -⟩ := ht
    have hcode := congrArg statusField hh
    rw [statusField_responseHeader] at hcode
    exact absurd (eq_ok_of_code_eq hcode ▸ hst) (finitChecks_ne_ok c s)
  · next hc =>
    split at h
    · injection h with h
      exact ⟨hc, h.symm⟩
    · cases h

/-- The sections FINIT asks DESIGN for depend on the parameters, the draw counter and the staging registers alone. -/
theorem sectionsFor_congr {s₁ s₂ : State} (hp : s₁.params = s₂.params) (hd : s₁.nanDraws = s₂.nanDraws)
    (hfs : (s₁.chan c.toNat).fs = (s₂.chan c.toNat).fs) (hk : (s₁.chan c.toNat).kind = (s₂.chan c.toNat).kind)
    (hlo : (s₁.chan c.toNat).flo = (s₂.chan c.toNat).flo) (hhi : (s₁.chan c.toNat).fhi = (s₂.chan c.toNat).fhi)
    (ho : (s₁.chan c.toNat).order = (s₂.chan c.toNat).order) : sectionsFor c s₁ = sectionsFor c s₂ := by
  simp only [sectionsFor, nyquist, hp, hd, hfs, hk, hlo, hhi, ho]

/-- The output of a cascade depends on the draw counter and the stages it runs through alone. -/
theorem cascadeFrom_output_congr {d k n : ℕ} (v : Num64) {s₁ s₂ : State} (hd : s₁.nanDraws = s₂.nanDraws)
    (hn : k + n ≤ 65536) (hst : ∀ j, k ≤ j → j < k + n → s₁.stage d j = s₂.stage d j) :
    (cascadeFrom d k n v s₁).1 = (cascadeFrom d k n v s₂).1 := by
  induction n generalizing k v s₁ s₂ with
  | zero => rfl
  | succ n ih =>
    have hout : (biquad d k v s₁).1 = (biquad d k v s₂).1 := by
      simp only [biquad, hd, hst k le_rfl (by omega)]
    have hlater (s : State) (j : ℕ) (hj : k + 1 ≤ j) (hjn : j < k + 1 + n) :
        (biquad d k v s).2.stage d j = s.stage d j :=
      cascadeFrom_stage_other s d d k 1 j v (by omega) (by omega) (by omega)
    rw [cascadeFrom, cascadeFrom, hout]
    refine ih _ (congrArg (· + 9) hd) (by omega) fun j hj hjn => ?_
    rw [hlater _ j hj hjn, hlater _ j hj hjn]
    exact hst j (by omega) (by omega)

/-- Two states alike in what FILT reads answer a sample alike. -/
theorem exec_filt_answer_congr {s₁ s₂ : State} (x : Word) (hp : s₁.params = s₂.params) (ha : s₁.active = s₂.active)
    (hd : s₁.nanDraws = s₂.nanDraws) (hf : (s₁.chan c.toNat).finited = (s₂.chan c.toNat).finited)
    (hn : (s₁.chan c.toNat).nst = (s₂.chan c.toNat).nst)
    (hst : ∀ j, j < (s₁.chan c.toNat).nst.toNat → s₁.stage c.toNat j = s₂.stage c.toNat j) :
    ∃ u₁ u₂ r, exec (.filt c x) s₁ = .next u₁ ∧ exec (.filt c x) s₂ = .next u₂ ∧
      u₁.responses = s₁.responses ++ [r] ∧ u₂.responses = s₂.responses ++ [r] := by
  have hcs : [portCheck s₁, sensorCheck c s₁, finitedCheck c s₁, sampleCheck [x] s₁] =
      [portCheck s₂, sensorCheck c s₂, finitedCheck c s₂, sampleCheck [x] s₂] := by
    simp only [portCheck, sensorCheck, finitedCheck, sampleCheck, hp, ha, hf]
  have hlt := (s₁.chan c.toNat).nst.isLt
  have hout : (cascade c x s₁).1 = (cascade c x s₂).1 := by
    rw [cascade, cascade, ← hn]
    exact cascadeFrom_output_congr x hd (by omega) fun j _ hj => hst j (by omega)
  cases he : firstError [portCheck s₁, sensorCheck c s₁, finitedCheck c s₁, sampleCheck [x] s₁] with
  | some st =>
    refine ⟨_, _, _, guarded_fail s₁ .filt _ _ st he, guarded_fail s₂ .filt _ _ st (hcs ▸ he), raise_responses .., ?_⟩
    rw [raise_responses, ha]
  | none =>
    have h₁ := silent_cascade c x s₁
    have h₂ := silent_cascade c x s₂
    refine ⟨_, _, _, guarded_pass s₁ .filt _ _ he, guarded_pass s₂ .filt _ _ (hcs ▸ he),
      congrArg (· ++ _) h₁.responses, ?_⟩
    rw [respondOk_responses, h₂.responses, h₁.active, h₂.active, ha, hout]

/-- Settles O15: the constructed cascades agree in NST, FINITED and every stage below NST, which is all FILT reads. -/
theorem reinitialisedCascadeIsFresh : Obligations.ReinitialisedCascadeIsFresh := by
  intro c x s₁ s₂ t₁ t₂ hp hmax ha hd hfs hk hlo hhi ho h₁ ht₁ h₂ ht₂
  obtain ⟨hc, rfl⟩ := exec_finit_ok h₁ ht₁
  obtain ⟨-, rfl⟩ := exec_finit_ok h₂ ht₂
  obtain ⟨-, hn⟩ := order_of_finitChecks hc
  have hsec := sectionsFor_congr hp hd hfs hk hlo hhi ho
  refine exec_filt_answer_congr x ?_ ?_ ?_ ?_ ?_ fun j hj => ?_
  · simpa only [respondOk_params, constructCascade_params] using hp
  · simpa only [respondOk_active, (silent_constructCascade _ _ _).active] using ha
  · simpa only [respondOk_nanDraws, constructCascade_nanDraws] using hd
  · simp only [respondOk_chan, chan_constructCascade, if_true]
  · simp only [respondOk_chan, chan_constructCascade, if_true, ho]
  · rw [respondOk_chan, chan_constructCascade, if_pos rfl, BitVec.toNat_ofNat] at hj
    have hj' : j < s₁.params.nsmax := by omega
    rw [respondOk_stage, respondOk_stage, stage_constructCascade _ _ _ _ _ hmax (by omega),
      stage_constructCascade _ _ _ _ _ (hp ▸ hmax) (by omega), if_pos ⟨rfl, hj'⟩, if_pos ⟨rfl, hp ▸ hj'⟩, hsec]

/-! ## WINIT -/

theorem winAddr_eq_add (d : ℕ) (w : WinSel) (i : ℕ) : winAddr d w i = winAddr d w 0 + i := by
  rw [winAddr, winAddr, Nat.add_zero]

/-- An element written by a MemWrite of a window's start reads as written. -/
theorem win_memWrite_same (d : ℕ) (w : WinSel) (vs : List Num64) (i : ℕ) (hi : i < vs.length) :
    (memWrite d w 0 vs s).win d w i = vs[i] := by
  rw [State.win, winAddr_eq_add]
  exact memory_read_writeFrom_inside s.mem (winAddr d w 0) vs i hi

/-- An address that is no element of the written run reads as before. -/
theorem read_memWrite_of_ne (d : ℕ) (w : WinSel) (vs : List Num64) {a : ℕ}
    (h : ∀ i, i < vs.length → a ≠ winAddr d w i) :
    Memory.read (memWrite d w 0 vs s).mem a = Memory.read s.mem a := by
  refine memory_read_writeFrom_outside s.mem (winAddr d w 0) a vs ?_
  by_contra hin
  exact h (a - winAddr d w 0) (by omega) (by rw [winAddr_eq_add]; omega)

/-- Settles O16: both windows are written with as many zeros as CAPCFG says, from their start, and nothing more. -/
theorem winitZeroFillsBothWindows : Obligations.WinitZeroFillsBothWindows := by
  intro c s ha hc h1 hn
  have hlt := (s.chan c.toNat).capcfg.isLt
  have hcs : firstError (winitChecks c s) = none := by
    simp only [winitChecks, firstError_eq_none, List.forall_mem_cons, failIf_eq_none, decide_eq_false_iff_not]
    exact ⟨portCheck_s s ha, sensorCheck_in s c hc, by omega, by omega, by simp⟩
  refine ⟨_, guarded_pass s .winit _ _ hcs, rfl, ha ▸ rfl, chan_setChan_same _ _ _, fun c' hc' => ?_,
    fun w i hi => ?_, fun a hne => ?_⟩
  · rw [respondOk_chan, constructWindows, chan_setChan, if_neg hc']
    rfl
  · rw [respondOk_win, constructWindows, setChan_win]
    cases w with
    | filt => rw [win_memWrite_same _ _ _ _ (by simpa using hi), List.getElem_replicate]
    | raw =>
      rw [win_memWrite_other _ _ _ _ _ _ _ (by simp) (by simp; omega) (by omega),
        win_memWrite_same _ _ _ _ (by simpa using hi), List.getElem_replicate]
  · rw [respondOk_mem, constructWindows, setChan_mem,
      read_memWrite_of_ne _ _ _ fun i hi => hne .filt i (by simpa using hi),
      read_memWrite_of_ne _ _ _ fun i hi => hne .raw i (by simpa using hi)]

end Sys2Proof.Proofs
end

section
/-! PROOFS. Where the operations answer a NaN, and what they do to zeros (00_scope.md R10; 41_filter.md R145, R146). -/

namespace Sys2Proof.Proofs

open Sys2Proof.Machine Sys2Proof.Machine.Arith Sys2Proof.Laws

variable (q a b : Num64)

/-! ## Quiet NaNs -/

theorem toNat_append_eq {v w : ℕ} (x : BitVec v) (y : BitVec w) : (x ++ y).toNat = x.toNat * 2 ^ w + y.toNat := by
  rw [BitVec.toNat_append, ← Nat.shiftLeft_add_eq_or_of_lt y.isLt, Nat.shiftLeft_eq]

/-- Sign, an exponent of ones with the quiet bit below it, payload. -/
theorem toNat_quietNaN (p : BitVec 52) :
    (quietNaN p).toNat = (p.extractLsb' 51 1).toNat * 2 ^ 63 + 4095 * 2 ^ 51 + (p.extractLsb' 0 51).toNat := by
  rw [quietNaN, toNat_append_eq, toNat_append_eq, toNat_append_eq, BitVec.toNat_ofNat, BitVec.toNat_ofNat]
  ring

theorem isQuietNaN_quietNaN (p : BitVec 52) : isQuietNaN (quietNaN p) = true := by
  have hval := toNat_quietNaN p
  have hpay := (p.extractLsb' 0 51).isLt
  rw [isQuietNaN, isNaN, magBits, BitVec.getLsbD, Nat.testBit_eq_decide_div_mod_eq, ← Bool.decide_and,
    decide_eq_true_eq, show infMag = 2047 * 2 ^ 52 from rfl]
  omega

/-! ## Invalid operations -/

theorem finite_or_isInf (h : isNaN a = false) : finite a = true ∨ isInf a = true := by
  simp only [isNaN, finite, isInf, decide_eq_false_iff_not, decide_eq_true_eq] at h ⊢
  omega

theorem isNaN_pack {m : ℕ} (sgn : Bool) (h : m ≤ infMag) : isNaN (pack sgn m) = false := by
  rw [isNaN, magBits_pack _ _ (h.trans_lt infMag_lt)]
  exact decide_eq_false (not_lt.mpr h)

theorem isNaN_roundTo (sgn : Bool) (num den : ℕ) : isNaN (roundTo sgn num den) = false :=
  isNaN_pack sgn (roundMag_le_infMag num den)

theorem add_opposite_inf (ha : isInf a = true) (hb : isInf b = true) (hs : signBit a ≠ signBit b) :
    add q a b = q := by
  simp [add, isNaN_eq_false_of_isInf, ha, hb, hs]

theorem mul_inf_zero (h : isInf a = true ∧ isZero b = true ∨ isZero a = true ∧ isInf b = true) : mul q a b = q := by
  have hc : (isInf a && isZero b || isZero a && isInf b) = true := by simpa using h
  simp only [mul, hc, if_true, ite_self]

theorem div_undefined (h : isInf a = true ∧ isInf b = true ∨ isZero a = true ∧ isZero b = true) : div q a b = q := by
  have hc : (isInf a && isInf b || isZero a && isZero b) = true := by simpa using h
  simp only [div, hc, if_true, ite_self]

/-- Outside the invalid sum the answer is a rounded number or one of the operands. -/
theorem isNaN_add_valid (ha : isNaN a = false) (hb : isNaN b = false)
    (hs : isInf a = true → isInf b = true → signBit a = signBit b) : isNaN (add q a b) = false := by
  obtain hfa | hia := finite_or_isInf a ha
  · obtain hfb | hib := finite_or_isInf b hb
    · rw [add_finite q a b hfa hfb, isNaN_roundTo]
    · rwa [add_inf_right q a b hfa hib]
  · rwa [add_inf_left q a b hia hb (hs hia)]

theorem isNaN_mul_valid (ha : isNaN a = false) (hb : isNaN b = false) (hab : isInf a = true → isZero b = false)
    (hba : isZero a = true → isInf b = false) : isNaN (mul q a b) = false := by
  obtain hfa | hia := finite_or_isInf a ha
  · obtain hfb | hib := finite_or_isInf b hb
    · rw [mul_finite q a b hfa hfb, isNaN_roundTo]
    · rw [mul_inf_right q b a hib ha (by simpa [hib] using hba), isNaN_pack _ le_rfl]
  · rw [mul_inf_left q a b hia hb (hab hia), isNaN_pack _ le_rfl]

theorem isNaN_div_valid (ha : isNaN a = false) (hb : isNaN b = false) (hi : isInf a = true → isInf b = false)
    (hz : isZero a = true → isZero b = false) : isNaN (div q a b) = false := by
  obtain hfa | hia := finite_or_isInf a ha
  · obtain hfb | hib := finite_or_isInf b hb
    · cases hzb : isZero b with
      | false => rw [div_finite q a b hfa hfb hzb, isNaN_roundTo]
      | true =>
        rw [div_by_zero q a b hfa hfb (by simpa [hzb] using hz) hzb, isNaN_pack _ le_rfl]
    · rw [div_inf_right q b a hib hfa, isNaN_pack _ (Nat.zero_le _)]
  · have hfb := (finite_or_isInf b hb).resolve_right (by simp [hi hia])
    rw [div_inf_left q a b hia hfb, isNaN_pack _ le_rfl]

/-- An answer that is the drawn NaN where the operation is invalid and a number elsewhere. -/
theorem isNaN_exactly {q z : Num64} {invalid : Bool} (hq : isNaN q = true) (hinv : invalid = true → z = q)
    (hval : invalid = false → isNaN z = false) : isNaN z = invalid ∧ (isNaN z = true → z = q) := by
  cases invalid with
  | true => exact ⟨hinv rfl ▸ hq, fun _ => hinv rfl⟩
  | false => exact ⟨hval rfl, fun h => absurd h (by simp [hval rfl])⟩

theorem isNaN_add (hq : isNaN q = true) :
    isNaN (add q a b) = (isNaN a || isNaN b || (isInf a && isInf b && (signBit a != signBit b))) ∧
    (isNaN (add q a b) = true → add q a b = q) := by
  refine isNaN_exactly hq (fun h => ?_) fun h => ?_
  · simp only [Bool.or_eq_true, Bool.and_eq_true, bne_iff_ne] at h
    obtain hn | ⟨⟨ha, hb⟩, hs⟩ := h
    · exact add_nan q a b hn
    · exact add_opposite_inf q a b ha hb hs
  · simp only [Bool.or_eq_false_iff, Bool.and_eq_false_imp, Bool.and_eq_true, bne_eq_false_iff_eq] at h
    obtain ⟨⟨ha, hb⟩, hs⟩ := h
    exact isNaN_add_valid q a b ha hb fun hia hib => hs ⟨hia, hib⟩

theorem isNaN_mul (hq : isNaN q = true) :
    isNaN (mul q a b) = (isNaN a || isNaN b || (isInf a && isZero b) || (isZero a && isInf b)) ∧
    (isNaN (mul q a b) = true → mul q a b = q) := by
  refine isNaN_exactly hq (fun h => ?_) fun h => ?_
  · simp only [Bool.or_eq_true, Bool.and_eq_true] at h
    obtain (hn | h) | h := h
    · exact mul_nan q a b hn
    · exact mul_inf_zero q a b (.inl h)
    · exact mul_inf_zero q a b (.inr h)
  · simp only [Bool.or_eq_false_iff, Bool.and_eq_false_imp] at h
    obtain ⟨⟨⟨ha, hb⟩, hab⟩, hba⟩ := h
    exact isNaN_mul_valid q a b ha hb hab hba

theorem isNaN_div (hq : isNaN q = true) :
    isNaN (div q a b) = (isNaN a || isNaN b || (isInf a && isInf b) || (isZero a && isZero b)) ∧
    (isNaN (div q a b) = true → div q a b = q) := by
  refine isNaN_exactly hq (fun h => ?_) fun h => ?_
  · simp only [Bool.or_eq_true, Bool.and_eq_true] at h
    obtain (hn | h) | h := h
    · exact div_nan q a b hn
    · exact div_undefined q a b (.inl h)
    · exact div_undefined q a b (.inr h)
  · simp only [Bool.or_eq_false_iff, Bool.and_eq_false_imp] at h
    obtain ⟨⟨⟨ha, hb⟩, hi⟩, hz⟩ := h
    exact isNaN_div_valid q a b ha hb hi hz

/-- Settles O59: a free draw is quiet by its bits, and each operation answers it in its invalid cases and a number in
the rest. -/
theorem nanResultsAreQuiet : Obligations.NanResultsAreQuiet := by
  intro n a b q nan
  have hquiet : isQuietNaN q = true := isQuietNaN_quietNaN _
  have hq : isNaN q = true := (Bool.and_eq_true _ _ ▸ hquiet).1
  obtain ⟨hadd, hadd'⟩ := isNaN_add q a b hq
  obtain ⟨hmul, hmul'⟩ := isNaN_mul q a b hq
  obtain ⟨hdiv, hdiv'⟩ := isNaN_div q a b hq
  exact ⟨hquiet, hadd, hmul, hdiv, hadd', hmul', hdiv'⟩

/-! ## Zeros -/

theorem finite_of_isZero (h : isZero a = true) : finite a = true := by
  simp only [isZero, finite, decide_eq_true_eq] at h ⊢
  rw [h]
  decide

@[simp] theorem isZero_neg : isZero (neg a) = isZero a := by simp [isZero]

theorem value_of_isZero (h : isZero a = true) : value a = 0 := by
  simp [value, (units_eq_zero a (finite_of_isZero a h)).mpr h]

theorem isZero_roundTo_zero (sgn : Bool) (den : ℕ) (hd : 0 < den) : isZero (roundTo sgn 0 den) = true := by
  have hz : units posZero = 0 := by decide
  have h := roundMag_units posZero den hd (by decide)
  rw [hz, Nat.zero_mul] at h
  rw [isZero, magBits_roundTo, h]
  decide

theorem isZero_add (ha : isZero a = true) (hb : isZero b = true) : isZero (add q a b) = true := by
  rw [add_finite q a b (finite_of_isZero a ha) (finite_of_isZero b hb), value_of_isZero a ha, value_of_isZero b hb]
  exact isZero_roundTo_zero _ 1 one_pos

theorem isZero_sub (ha : isZero a = true) (hb : isZero b = true) : isZero (sub q a b) = true :=
  isZero_add q a (neg b) ha (by rwa [isZero_neg])

/-- A finite factor of a zero leaves it a zero. -/
theorem isZero_mul (ha : finite a = true) (hb : isZero b = true) : isZero (mul q a b) = true := by
  have hfb := finite_of_isZero b hb
  rw [mul_finite q a b ha hfb, (units_eq_zero b hfb).mpr hb, Nat.mul_zero]
  exact isZero_roundTo_zero _ _ (by positivity)

end Sys2Proof.Proofs
end

section
/-! PROOFS. The biquad stage, the cascade and its batch, and the cascade at rest (41_filter.md R140 to R145). -/

namespace Sys2Proof.Proofs

open Sys2Proof.Machine Sys2Proof.Machine.Arith Sys2Proof.Laws

variable {s : State} {c : BitVec 8}

/-! ## One stage -/

theorem stage_biquad_same (c k : ℕ) (x : Num64) (s : State) :
    (biquad c k x s).2.stage c k =
      (biquadStep (fun j => drawNaN (s.nanDraws + j)) (s.stage c k) x).2 :=
  stage_setStage_same s c k _

/-- A stage is a cascade of one, which leaves every other stage alone. -/
theorem stage_biquad_other {c k c' k' : ℕ} (x : Num64) (hk : k < 65536) (hk' : k' < 65536) (h : c' ≠ c ∨ k' ≠ k) :
    (biquad c k x s).2.stage c' k' = s.stage c' k' :=
  cascadeFrom_stage_other s c c' k 1 k' x (by omega) (by omega) hk'

/-- Settles O17: the stage computes on the registers it read before it writes. -/
theorem stageIsDirectForm : Obligations.StageIsDirectForm := fun c k x s =>
  ⟨rfl, stage_biquad_same c k x s, biquad_state s c k x, fun _ _ => stage_biquad_other x⟩

/-! ## The cascade -/

/-- Stages run on where the stages before them have stopped. -/
theorem cascadeFrom_add (c k m n : ℕ) (v : Num64) (s : State) :
    cascadeFrom c k (m + n) v s = cascadeFrom c (k + m) n (cascadeFrom c k m v s).1 (cascadeFrom c k m v s).2 := by
  induction m generalizing k v s with
  | zero => rw [Nat.zero_add]; rfl
  | succ m ih =>
    rw [Nat.succ_add, cascadeFrom, ih, cascadeFrom, Nat.add_right_comm k 1 m, Nat.add_assoc k m 1]

/-- What stage `j` of a cascade of `n` reads: the output of the stages before it, its own old registers, and the
draws after the nine of each stage before it. What it leaves stays until the end. -/
theorem cascadeFrom_stage {c j n : ℕ} (x : Num64) (hj : j < n) (hn : n ≤ 65536) :
    ((cascadeFrom c 0 (j + 1) x s).1, (cascadeFrom c 0 n x s).2.stage c j) =
      biquadStep (fun i => drawNaN (s.nanDraws + 9 * j + i)) (s.stage c j) (cascadeFrom c 0 j x s).1 := by
  have hread : (cascadeFrom c 0 j x s).2.stage c j = s.stage c j :=
    cascadeFrom_stage_other s c c 0 j j x (by omega) (by omega) (by omega)
  have hdraws : (cascadeFrom c 0 j x s).2.nanDraws = s.nanDraws + 9 * j := by rw [cascadeFrom_frame]
  have hstep : cascadeFrom c 0 (j + 1) x s =
      biquad c j (cascadeFrom c 0 j x s).1 (cascadeFrom c 0 j x s).2 := by
    rw [cascadeFrom_add, Nat.zero_add]; rfl
  have hkeep : (cascadeFrom c 0 n x s).2.stage c j = (cascadeFrom c 0 (j + 1) x s).2.stage c j := by
    obtain ⟨m, rfl⟩ := Nat.exists_eq_add_of_le (Nat.succ_le_of_lt hj)
    rw [cascadeFrom_add]
    exact cascadeFrom_stage_other _ c c _ m j _ (by omega) (by omega) (by omega)
  rw [hkeep, hstep, stage_biquad_same, ← hread, ← hdraws]
  rfl

/-! ## FILT and FILTB on a constructed channel -/

/-- Port S runs a command on a constructed sensor channel. -/
structure Constructed (c : BitVec 8) (s : State) : Prop where
  active : s.active = .s
  exists_chan : c.toNat < s.params.nch
  finited : (s.chan c.toNat).finited = true

/-- The guard lets the samples pass. -/
def GuardPasses (xs : List Num64) (s : State) : Prop := s.params.guardNonfinite = true → ∀ x ∈ xs, finite x = true

theorem filtChecks_pass (h : Constructed c s) {xs : List Num64} (hx : GuardPasses xs s) :
    firstError [portCheck s, sensorCheck c s, finitedCheck c s, sampleCheck xs s] = none := by
  have hg : sampleCheck xs s = none := by
    rw [sampleCheck, failIf_eq_none]
    simpa [GuardPasses] using hx
  rw [portCheck_s s h.active, sensorCheck_in s c h.exists_chan, finitedCheck_on s c h.finited, hg]
  rfl

/-- The response of a FILT that answers `y`. -/
def filtResponse (y : Word) : Response := ⟨.s, 0x20000001#32, [y]⟩

theorem exec_filt_pass (h : Constructed c s) {x : Word} (hx : GuardPasses [x] s) :
    exec (.filt c x) s =
      .next { (cascade c x s).2 with responses := s.responses ++ [filtResponse (cascade c x s).1] } := by
  have hsilent := silent_cascade c x s
  have hresp : filtResponse (cascade c x s).1 =
      ⟨(cascade c x s).2.active, responseHeader Mnemonic.filt.opcode false .ok 1, [(cascade c x s).1]⟩ := by
    rw [hsilent.active, h.active]
    rfl
  rw [hresp, ← hsilent.responses]
  exact guarded_pass s .filt _ _ (filtChecks_pass h hx)

theorem exec_filtb_pass (h : Constructed c s) {xs : List Word} (hx : GuardPasses xs s) :
    exec (.filtb c xs) s =
      .next { (cascadeBatch c xs s).2 with
        responses := s.responses ++
          [⟨.s, 0x21#8 ++ 0#8 ++ BitVec.ofNat 16 xs.length, (cascadeBatch c xs s).1⟩] } := by
  have hsilent := silent_cascadeBatch c xs s
  rw [← h.active, ← hsilent.active, ← hsilent.responses, ← cascadeBatch_length s c xs, ← responseHeader_ok]
  exact guarded_pass s .filtb _ _ (filtChecks_pass h hx)

/-- Settles O18: the value that enters stage `k` is the output of a cascade of `k`. -/
theorem filtRunsTheStagesInOrder : Obligations.FiltRunsTheStagesInOrder := by
  intro c x s ha hc hf hx
  have hlt := (s.chan c.toNat).nst.isLt
  have hexec := exec_filt_pass ⟨ha, hc, hf⟩ fun hg => List.forall_mem_singleton.mpr (hx hg)
  refine ⟨_, fun k => (cascadeFrom c.toNat 0 k x s).1, hexec, ?_, rfl, rfl, fun k hk => ?_, fun k => ?_,
    fun c' k hk hor => ?_⟩
  · rw [cascade_frame]
  · exact cascadeFrom_stage x hk (by omega)
  · exact (exec_writes hexec).apply_eq (fun u => (u.stage c.toNat k).coef) fun _ h =>
      h.coef_eq (Mnemonic.noConfusion ·) _ _
  · exact cascadeFrom_stage_other s _ _ _ _ _ _ (by omega) (by omega) hk

/-! ## A batch -/

/-- The filter does not read the record of responses. -/
theorem cascadeFrom_setResponses (d k n : ℕ) (v : Num64) (rs : List Response) (s : State) :
    cascadeFrom d k n v { s with responses := rs } =
      ((cascadeFrom d k n v s).1, { (cascadeFrom d k n v s).2 with responses := rs }) := by
  induction n generalizing k v s with
  | zero => rfl
  | succ n ih => exact ih (k + 1) _ (biquad d k v s).2

theorem cascadeBatch_setResponses (xs : List Num64) (rs : List Response) (s : State) :
    cascadeBatch c xs { s with responses := rs } =
      ((cascadeBatch c xs s).1, { (cascadeBatch c xs s).2 with responses := rs }) := by
  induction xs generalizing s with
  | nil => rfl
  | cons x xs ih =>
    have hx : cascade c x { s with responses := rs } =
        ((cascade c x s).1, { (cascade c x s).2 with responses := rs }) := cascadeFrom_setResponses _ _ _ _ _ _
    rw [cascadeBatch, hx, ih]
    rfl

/-- The FILTs of a batch, one after the other, run the cascade as the batch does and answer its values one by one. -/
theorem execAll_filt (h : Constructed c s) {xs : List Word} (hx : GuardPasses xs s) :
    execAll (xs.map fun x => .filt c x) s =
      .next { (cascadeBatch c xs s).2 with
        responses := s.responses ++ (cascadeBatch c xs s).1.map filtResponse } := by
  induction xs generalizing s with
  | nil => simp [execAll, cascadeBatch]
  | cons x xs ih =>
    have hhead := exec_filt_pass h fun hg => List.forall_mem_singleton.mpr (hx hg x List.mem_cons_self)
    rw [List.map_cons, execAll, hhead]
    dsimp only
    rw [ih, cascadeBatch_setResponses]
    · simp [cascadeBatch]
    · obtain ⟨ha, hc, hf⟩ := h
      rw [cascade_frame]
      exact ⟨ha, hc, hf⟩
    · rw [cascade_frame]
      exact fun hg y hy => hx hg y (List.mem_cons_of_mem x hy)

/-- Settles O19: both run the cascade over the samples in order, and the responses do not enter into it. -/
theorem filtbIsTheFiltsInOrder : Obligations.FiltbIsTheFiltsInOrder := fun c xs s ha hc hf hx =>
  ⟨_, _, _, exec_filtb_pass ⟨ha, hc, hf⟩ hx, execAll_filt ⟨ha, hc, hf⟩ hx, cascadeBatch_length s c xs, rfl, rfl⟩

/-! ## The cascade at rest -/

/-- A zero sample into a stage at rest gives a zero and leaves the stage at rest. -/
theorem biquadStep_zero (q : ℕ → Num64) {r : StageRegs} {x : Num64} (hx : isZero x = true) (hw1 : isZero r.w1 = true)
    (hw2 : isZero r.w2 = true) (hb0 : finite r.coef.b0 = true) (hb1 : finite r.coef.b1 = true)
    (hb2 : finite r.coef.b2 = true) (ha1 : finite r.coef.a1 = true) (ha2 : finite r.coef.a2 = true) :
    isZero (biquadStep q r x).1 = true ∧ isZero (biquadStep q r x).2.w1 = true ∧
    isZero (biquadStep q r x).2.w2 = true := by
  have hin : isZero (biquadStep q r x).2.w1 = true :=
    isZero_sub _ _ _ (isZero_sub _ _ _ hx (isZero_mul _ _ _ ha1 hw1)) (isZero_mul _ _ _ ha2 hw2)
  have hout : isZero (biquadStep q r x).1 = true :=
    isZero_add _ _ _ (isZero_add _ _ _ (isZero_mul _ _ _ hb0 hin) (isZero_mul _ _ _ hb1 hw1))
      (isZero_mul _ _ _ hb2 hw2)
  exact ⟨hout, hin, hw1⟩

/-- Settles O20: by induction along the stages a zero enters each of them, and each gives a zero and stays at rest. -/
theorem zeroIsAFixedPointOfTheFilter : Obligations.ZeroIsAFixedPointOfTheFilter := by
  intro c x s ha hc hf hx hrest
  obtain ⟨t, v, hexec, -, hv0, hresp, hstage, -, -⟩ :=
    filtRunsTheStagesInOrder c x s ha hc hf fun _ => finite_of_isZero x hx
  have hstep : ∀ k, k < (s.chan c.toNat).nst.toNat → isZero (v k) = true →
      isZero (v (k + 1)) = true ∧ isZero (t.stage c.toNat k).w1 = true ∧ isZero (t.stage c.toNat k).w2 = true := by
    intro k hk hv
    obtain ⟨hw1, hw2, hb0, hb1, hb2, ha1, ha2⟩ := hrest k hk
    have hout : v (k + 1) = (biquadStep _ _ _).1 := congrArg Prod.fst (hstage k hk)
    have hreg : t.stage c.toNat k = (biquadStep _ _ _).2 := congrArg Prod.snd (hstage k hk)
    rw [hout, hreg]
    exact biquadStep_zero _ hv hw1 hw2 hb0 hb1 hb2 ha1 ha2
  have hzero : ∀ k, k ≤ (s.chan c.toNat).nst.toNat → isZero (v k) = true := by
    intro k
    induction k with
    | zero => exact fun _ => hv0 ▸ hx
    | succ k ih => exact fun hk => (hstep k hk (ih (by omega))).1
  exact ⟨t, _, hexec, hresp, hzero _ le_rfl, fun k hk => (hstep k hk (hzero k hk.le)).2⟩

end Sys2Proof.Proofs
end

section
/-! PROOFS. The window pair: what a PUSH puts into it and leaves alone, what any number of them leave in it, and the
snapshot (42_window.md R160 to R163). -/

namespace Sys2Proof.Proofs

open Sys2Proof.Machine Sys2Proof.Laws

variable {s : State} {c : BitVec 8}

/-! ## One window as a list -/

theorem windowOf_getElem (w : WinSel) (i : ℕ) (h : i < (windowOf c w s).length) :
    (windowOf c w s)[i] = s.win c.toNat w i :=
  (List.getElem?_eq_some_iff.mp (windowOf_getElem? s c w i (by simpa using h))).2

theorem windowOf_eq_replicate {w : WinSel} {v : Num64} (h : ∀ i, i < s.cap c → s.win c.toNat w i = v) :
    windowOf c w s = List.replicate (s.cap c) v :=
  List.ext_getElem (by simp) fun i hi _ => by
    rw [windowOf_getElem, List.getElem_replicate, h i (by simpa using hi)]

@[simp] theorem windowOf_respondOk (w : WinSel) (m : Mnemonic) (f : Bool) (ds : List Word) :
    windowOf c w (respondOk m f ds s) = windowOf c w s := rfl

/-! ## The pair in one step -/

/-- The member of a pushed pair that a window takes. -/
def sampleFor (xr xf : Word) : WinSel → Word
  | .raw => xr
  | .filt => xf

/-- Each window of the pair loses its oldest element and gains its own sample; the push into the one leaves the other
alone (R161). -/
theorem windowOf_pushPair (w : WinSel) (xr xf : Word) (h : 1 ≤ s.cap c) :
    windowOf c w (pushPair c xr xf s) = (windowOf c w s).tail ++ [sampleFor xr xf w] := by
  cases w with
  | raw =>
    rw [pushPair, windowOf_wpush_other (wpush c .raw xr s) c c .filt .raw xf (by simp) h,
      windowOf_wpush_same s c .raw xr h, sampleFor]
  | filt =>
    rw [pushPair, windowOf_wpush_same (wpush c .raw xr s) c .filt xf h,
      windowOf_wpush_other s c c .raw .filt xr (by simp) h, sampleFor]

/-- An element of a pushed window, as an element of the list the window has become. -/
theorem win_pushPair (w : WinSel) (xr xf : Word) {i : ℕ} (h : i < s.cap c) :
    ((windowOf c w s).tail ++ [sampleFor xr xf w])[i]? = some ((pushPair c xr xf s).win c.toNat w i) := by
  rw [← windowOf_pushPair w xr xf (by omega)]
  exact windowOf_getElem? (pushPair c xr xf s) c w i h

theorem win_pushPair_shift (w : WinSel) (xr xf : Word) {i : ℕ} (h : i + 1 < s.cap c) :
    (pushPair c xr xf s).win c.toNat w i = s.win c.toNat w (i + 1) := by
  have hi : i < (windowOf c w s).tail.length := by rw [List.length_tail, windowOf_length]; omega
  rw [← Option.some_inj, ← win_pushPair w xr xf (Nat.lt_of_succ_lt h), List.getElem?_append_left hi,
    List.getElem?_tail, windowOf_getElem? s c w _ h]

theorem win_pushPair_newest (w : WinSel) (xr xf : Word) (h : 1 ≤ s.cap c) :
    (pushPair c xr xf s).win c.toNat w (s.cap c - 1) = sampleFor xr xf w := by
  have hlast : (windowOf c w s).tail.length = s.cap c - 1 := by rw [List.length_tail, windowOf_length]
  rw [← Option.some_inj, ← win_pushPair w xr xf (Nat.sub_one_lt_of_lt h), ← hlast, List.getElem?_concat_length]

theorem read_wpush_of_ne (w : WinSel) (v : Num64) {a : ℕ} (hc : 1 ≤ s.cap c)
    (h : ∀ i, i < s.cap c → a ≠ winAddr c.toNat w i) :
    Memory.read (wpush c w v s).mem a = Memory.read s.mem a :=
  read_memWrite_of_ne _ _ _ fun i hi => h i (pushed_length s c w v hc ▸ hi)

theorem read_pushPair_of_ne (xr xf : Word) {a : ℕ} (hc : 1 ≤ s.cap c)
    (h : ∀ w i, i < s.cap c → a ≠ winAddr c.toNat w i) :
    Memory.read (pushPair c xr xf s).mem a = Memory.read s.mem a :=
  (read_wpush_of_ne (s := wpush c .raw xr s) .filt xf hc (h .filt)).trans (read_wpush_of_ne .raw xr hc (h .raw))

/-! ## PUSH -/

/-- Port S runs a PUSH on a channel with windows of at least one element. -/
structure Pushable (c : BitVec 8) (s : State) : Prop where
  active : s.active = .s
  exists_chan : c.toNat < s.params.nch
  winited : (s.chan c.toNat).winited = true
  cap_pos : 1 ≤ s.cap c

theorem exec_push_pass (h : Pushable c s) (xr xf : Word) :
    exec (.push c xr xf) s = .next (respondOk .push false [] (pushPair c xr xf s)) := by
  refine guarded_pass s .push _ _ ?_
  rw [portCheck_s s h.active, sensorCheck_in s c h.exists_chan, winitedCheck_on s c h.winited]
  rfl

/-- A PUSH writes no register that the next PUSH checks. -/
theorem Pushable.after_push (h : Pushable c s) (xr xf : Word) :
    Pushable c (respondOk .push false [] (pushPair c xr xf s)) :=
  { active := h.active, exists_chan := h.exists_chan, winited := h.winited, cap_pos := h.cap_pos }

/-- Settles O21: element by element, the pair of windows is the pair without its oldest elements, followed by the
samples. -/
theorem pushShiftsBothWindows : Obligations.PushShiftsBothWindows := by
  intro c xr xf s ha hc hw hcap
  refine ⟨_, exec_push_pass ⟨ha, hc, hw, hcap⟩ xr xf, rfl, ha ▸ rfl, fun w i hi => ?_, ?_, ?_, fun a hne => ?_⟩
  · rw [respondOk_win, win_pushPair_shift w xr xf hi]
  · rw [respondOk_win, ← State.cap, win_pushPair_newest .raw xr xf hcap, sampleFor]
  · rw [respondOk_win, ← State.cap, win_pushPair_newest .filt xr xf hcap, sampleFor]
  · rw [respondOk_mem, read_pushPair_of_ne xr xf hcap hne]

/-! ## Any number of pushes -/

/-- A run of pushes leaves in each window as many elements as it held, the last of what it held and then took. -/
theorem execAll_push (h : Pushable c s) (vs : List (Word × Word)) :
    ∃ t, execAll (vs.map fun v => .push c v.1 v.2) s = .next t ∧
      ∀ w, windowOf c w t = (windowOf c w s ++ vs.map fun v => sampleFor v.1 v.2 w).drop vs.length := by
  induction vs generalizing s with
  | nil => exact ⟨s, rfl, fun w => by simp⟩
  | cons v vs ih =>
    obtain ⟨t, hrun, hwin⟩ := ih (h.after_push v.1 v.2)
    refine ⟨t, ?_, fun w => ?_⟩
    · rw [List.map_cons, execAll, exec_push_pass h]
      exact hrun
    · have hne : windowOf c w s ≠ [] := List.ne_nil_of_length_pos (by rw [windowOf_length]; exact h.cap_pos)
      rw [hwin, windowOf_respondOk, windowOf_pushPair w v.1 v.2 h.cap_pos, List.append_assoc,
        List.singleton_append, ← List.tail_append_of_ne_nil hne, List.drop_tail]
      rfl

/-- Settles O22: WINIT leaves both windows all zeros, and the pushes that follow shift them out. -/
theorem windowHoldsTheMostRecent : Obligations.WindowHoldsTheMostRecent := by
  intro c vs s ha hc h1 hn
  obtain ⟨u, hinit, hframe, -, hchan, -, hzero, -⟩ := winitZeroFillsBothWindows c s ha hc h1 hn
  have hcap : u.cap c = (s.chan c.toNat).capcfg.toNat := by rw [State.cap, hchan]
  have hready : Pushable c u := ⟨by rw [hframe]; exact ha, by rw [hframe]; exact hc, by rw [hchan], hcap ▸ h1⟩
  have hzeros : ∀ w, windowOf c w u = List.replicate (s.chan c.toNat).capcfg.toNat posZero := fun w => by
    rw [← hcap]
    exact windowOf_eq_replicate fun i hi => hzero w i (hcap ▸ hi)
  obtain ⟨t, hrun, hwin⟩ := execAll_push hready vs
  refine ⟨t, ?_, hzeros .raw ▸ hwin .raw, hzeros .filt ▸ hwin .filt⟩
  rw [execAll, hinit]
  exact hrun

/-! ## SNAP -/

/-- Settles O23: the data words are the window as a list, and CNT its length. -/
theorem snapReturnsTheWholeWindow : Obligations.SnapReturnsTheWholeWindow := by
  intro c w s hc hw
  have hchecks : firstError [sensorCheck c s, winitedCheck c s] = none := by
    rw [sensorCheck_in s c hc, winitedCheck_on s c hw]
    rfl
  have hcnt : BitVec.ofNat 16 (windowOf c w s).length = (s.chan c.toNat).cap := by
    rw [windowOf_length, State.cap, BitVec.ofNat_toNat, BitVec.setWidth_eq]
  refine ⟨windowOf c w s, windowOf_length s c w, windowOf_getElem? s c w, ?_⟩
  rw [← hcnt, ← responseHeader_ok]
  exact guarded_pass s .snap _ _ hchecks

end Sys2Proof.Proofs
end

section
/-! PROOFS. The spectral analyzer: the points ANALYZE answers, the sign of the magnitudes of a finite window, and what
an answer depends on (43_spectrum.md R175 to R184). -/

namespace Sys2Proof.Proofs

open Sys2Proof.Machine Sys2Proof.Machine.Arith Sys2Proof.Laws

variable {i : Instr} {s t u : State} {c : BitVec 8} {w : WinSel}

/-! ## Magnitudes -/

/-- On a finite window no magnitude is drawn (DFT-ZERO, DFT-FUN of R180). -/
theorem dftMag_finite {x : List Num64} (k d : ℕ) (hx : x.all finite = true) :
    dftMag x k d = if x.all isZero then posZero else magnitudeOfCode (Config.dftMagnitude x k).val := by
  rw [dftMag, hx]
  rfl

theorem finite_of_all_isZero {x : List Num64} (hx : x.all isZero = true) : x.all finite = true :=
  List.all_eq_true.mpr fun a ha => finite_of_isZero a (List.all_eq_true.mp hx a ha)

/-- A number whose sign bit is clear is not below zero. -/
theorem lt_posZero_of_signBit {a : Num64} (h : signBit a = false) : lt a posZero = false := by
  have h0 : orderKey posZero = 0 := by decide
  have ha : orderKey a = magBits a := by simp [orderKey, h]
  rw [lt, h0, ha, decide_eq_false (by omega), Bool.and_false]

/-- Every code is a number from +0.0 to +infinity, or -0.0 (DFT-NONNEG). -/
theorem magnitudeOfCode_nonneg (code : ℕ) :
    isNaN (magnitudeOfCode code) = false ∧ lt (magnitudeOfCode code) posZero = false := by
  unfold magnitudeOfCode
  split
  · next h => exact ⟨isNaN_pack false h, lt_posZero_of_signBit (signBit_pack false code (h.trans_lt infMag_lt))⟩
  · decide

/-- Settles O25: an all-zero window is finite, and a finite one has +0.0 or the number of a code in each bin. -/
theorem magnitudesOfFiniteWindows : Obligations.MagnitudesOfFiniteWindows := by
  refine fun x k d => ⟨fun hz => ?_, fun hx => ?_⟩
  · rw [dftMag_finite k d (finite_of_all_isZero hz), if_pos hz]
    decide
  · rw [dftMag_finite k d hx]
    split
    · decide
    · exact magnitudeOfCode_nonneg _

/-! ## Frequencies -/

theorem isZero_numi {n : ℕ} (h1 : 1 ≤ n) (hn : n < 2 ^ 53) : isZero (numi n) = false := by
  rw [Bool.eq_false_iff]
  intro hz
  have hv := (numi_exact n hn).2
  rw [value_of_isZero _ hz, eq_comm, mul_eq_zero, Nat.cast_eq_zero] at hv
  exact hv.elim (by omega) (pow_ne_zero 1074 two_ne_zero)

/-- A frequency is a product of finite numbers divided by a finite number that is not zero, so none of its operations
answers a NaN (R177). -/
theorem binFreq_draws_nothing {fs : Num64} {n k : ℕ} (q q' : Num64) (hfs : finite fs = true) (hk : k < 2 ^ 53)
    (h1 : 1 ≤ n) (hn : n < 2 ^ 53) : binFreq q fs n k = binFreq q' fs n k := by
  have hnum := (numi_exact n hn).1
  unfold binFreq
  rw [mul_finite q _ _ (numi_exact k hk).1 hfs, mul_finite q' _ _ (numi_exact k hk).1 hfs]
  simp only [div, isNaN_roundTo, isNaN_eq_false_of_finite _ hnum, isInf_eq_false_of_finite _ hnum,
    isZero_numi h1 hn, Bool.or_self, Bool.and_false, Bool.false_eq_true, if_false]

/-! ## The points of a spectrum -/

/-- The j-th point: the frequency and the magnitude of the j-th bin. -/
theorem spectrumFrom_getElem? (q fs : Num64) (x : List Num64) (d k : ℕ) {j r : ℕ} (hj : j < r) :
    (spectrumFrom q fs x d k r)[2 * j]? = some (binFreq q fs x.length (k + j)) ∧
    (spectrumFrom q fs x d k r)[2 * j + 1]? = some (dftMag x (k + j) (d + j)) := by
  induction r generalizing d k j with
  | zero => omega
  | succ r ih =>
    cases j with
    | zero => exact ⟨rfl, rfl⟩
    | succ j =>
      rw [show k + (j + 1) = k + 1 + j by omega, show d + (j + 1) = d + 1 + j by omega]
      exact ih (d + 1) (k + 1) (by omega)

/-- On a finite window and with a finite rate the points depend on neither kind of draw. -/
theorem spectrumFrom_draws_nothing {fs : Num64} {x : List Num64} (q q' : Num64) (d d' : ℕ) {k r : ℕ}
    (hfs : finite fs = true) (hx : x.all finite = true) (hr : r ≤ x.length) (hk : k + r ≤ 2 ^ 53)
    (hn : x.length < 2 ^ 53) : spectrumFrom q fs x d k r = spectrumFrom q' fs x d' k r := by
  induction r generalizing d d' k with
  | zero => rfl
  | succ r ih =>
    have hmag : dftMag x k d = dftMag x k d' := by rw [dftMag_finite k d hx, dftMag_finite k d' hx]
    rw [spectrumFrom, spectrumFrom, hmag, binFreq_draws_nothing q q' hfs (by omega) (by omega) hn,
      ih (d + 1) (d' + 1) (by omega) (by omega)]

/-! ## ANALYZE -/

theorem rateCheck_eq_none (fs : Num64) : rateCheck fs = none ↔ finite fs = true ∧ gt fs posZero = true := by
  simp [rateCheck, failIf_eq_none]

/-- Settles O24: the checks pass, and the points are read off the spectrum bin by bin. -/
theorem analyzeReturnsTheBins : Obligations.AnalyzeReturnsTheBins := by
  intro c w q s hc hw hcap hfs hfs0
  have hlt := cap_lt s c
  have hchecks : firstError [sensorCheck c s, winitedCheck c s, rateCheck (s.chan c.toNat).fs] = none := by
    rw [sensorCheck_in s c hc, winitedCheck_on s c hw, (rateCheck_eq_none _).mpr ⟨hfs, hfs0⟩]
    rfl
  refine ⟨_, Machine.spectrum c w s, guarded_pass s .analyze _ _ hchecks, rfl, ?_, spectrumFrom_length ..,
    fun k hk => ?_⟩
  · rw [respondOk_responses, responseHeader_ok]
    rfl
  · have hfreq := binFreq_draws_nothing (k := k + 1) (drawNaN s.nanDraws) q hfs (by omega) hcap (by omega)
    have hpoint := spectrumFrom_getElem? (drawNaN s.nanDraws) (s.chan c.toNat).fs (windowOf c w s) s.magDraws 1 hk
    rw [windowOf_length, Nat.add_comm 1 k, State.cap, hfreq] at hpoint
    exact hpoint

/-! ## What an answer depends on -/

/-- What ANALYZE reads of a channel is the same in both states: the parameters, WINITED, CAP, FS and the selected
window (R181). -/
structure SameAnalysis (c : BitVec 8) (w : WinSel) (s t : State) : Prop where
  params : t.params = s.params
  winited : (t.chan c.toNat).winited = (s.chan c.toNat).winited
  cap : (t.chan c.toNat).cap = (s.chan c.toNat).cap
  fs : (t.chan c.toNat).fs = (s.chan c.toNat).fs
  window : windowOf c w t = windowOf c w s

theorem windowOf_all_finite (h : ∀ i, i < s.cap c → finite (s.win c.toNat w i) = true) :
    (windowOf c w s).all finite = true := by
  refine List.all_eq_true.mpr fun a ha => ?_
  obtain ⟨i, hi, rfl⟩ := List.mem_iff_getElem.mp ha
  rw [windowOf_getElem]
  exact h i (by simpa using hi)

theorem windowOf_congr (hcap : t.cap c = s.cap c) (h : ∀ i, i < s.cap c → t.win c.toNat w i = s.win c.toNat w i) :
    windowOf c w t = windowOf c w s :=
  List.ext_getElem (by simpa using hcap) fun i _ hi => by
    rw [windowOf_getElem, windowOf_getElem, h i (by simpa using hi)]

theorem SameAnalysis.spectrum_eq (h : SameAnalysis c w s t) (hfs : finite (s.chan c.toNat).fs = true)
    (hx : (windowOf c w s).all finite = true) : Machine.spectrum c w t = Machine.spectrum c w s := by
  have hlt := cap_lt s c
  have hbins : binCount (s.cap c) ≤ s.cap c := by unfold binCount; omega
  have hcap : t.cap c = s.cap c := by rw [State.cap, h.cap]; rfl
  rw [Machine.spectrum, Machine.spectrum, h.window, h.fs, hcap]
  exact spectrumFrom_draws_nothing _ _ _ _ hfs hx (by rwa [windowOf_length]) (by omega) (by rw [windowOf_length]; omega)

/-- Two states alike in what ANALYZE reads, with a finite window, answer it alike, each on its own port (DFT-FUN). -/
theorem SameAnalysis.exec_analyze (h : SameAnalysis c w s t) (hx : (windowOf c w s).all finite = true) :
    ∃ (s' t' : State) (hd : BitVec 32) (ds : List Word),
      exec (.analyze c w) s = .next s' ∧ s'.responses = s.responses ++ [⟨s.active, hd, ds⟩] ∧
      exec (.analyze c w) t = .next t' ∧ t'.responses = t.responses ++ [⟨t.active, hd, ds⟩] := by
  have hcs : [sensorCheck c t, winitedCheck c t, rateCheck (t.chan c.toNat).fs] =
      [sensorCheck c s, winitedCheck c s, rateCheck (s.chan c.toNat).fs] := by
    simp only [sensorCheck, winitedCheck, h.params, h.winited, h.fs]
  cases he : firstError [sensorCheck c s, winitedCheck c s, rateCheck (s.chan c.toNat).fs] with
  | some st =>
    exact ⟨_, _, _, _, guarded_fail s .analyze _ _ st he, raise_responses ..,
      guarded_fail t .analyze _ _ st (hcs ▸ he), raise_responses ..⟩
  | none =>
    obtain ⟨hfs, -⟩ := (rateCheck_eq_none (s.chan c.toNat).fs).mp ((firstError_eq_none _).mp he _ (by simp))
    refine ⟨_, _, _, _, guarded_pass s .analyze _ _ he, respondOk_responses ..,
      guarded_pass t .analyze _ _ (hcs ▸ he), ?_⟩
    rw [respondOk_responses, h.spectrum_eq hfs hx]

/-! ## Commands between two analyses -/

theorem guarded_active {m : Mnemonic} {cs : List (Option Status)} {e : State}
    (h : guarded m cs s e = .next t) (he : e.active = s.active) : t.active = s.active := by
  obtain ⟨st, -, rfl⟩ | ⟨-, rfl⟩ := guarded_cases s m cs e t h
  · rfl
  · exact he

/-- A command leaves the port it runs on in its place (log 15). -/
theorem exec_active (h : exec i s = .next t) : t.active = s.active := by
  cases i with
  | wrreg ch reg idx d => exact guarded_active h (silent_writeNumber ch reg d s).active
  | finit c =>
    rw [exec, execFinit] at h
    split at h
    · injection h with h
      exact h ▸ rfl
    · split at h
      · injection h with h
        exact h ▸ (silent_constructCascade c _ s).active
      · cases h
  | filt c x => exact guarded_active h (silent_cascade c x s).active
  | filtb c xs => exact guarded_active h (silent_cascadeBatch c xs s).active
  | actwr a v => exact guarded_active h (silent_writeActuator a v s).active
  | drive a v => exact guarded_active h (silent_writeActuator a (driveValue a v s) (drawMap s)).active
  | tick c =>
    rw [exec, execTick] at h
    split at h
    · injection h with h
      exact h ▸ rfl
    · split at h
      · injection h with h
        exact h ▸ rfl
      · exact guarded_active (s := (boardRead c s).2) h (silent_ingested c _ _ _).active
  | _ => exact guarded_active h rfl

theorem eq_zero_of_ofNumber_fs {reg : BitVec 8} (h : Reg.ofNumber reg = some .fs) : reg = 0x00#8 := by
  revert h reg
  decide

theorem writeNumber_fs {reg : BitVec 8} (hreg : reg ≠ 0x00#8) (ch c : BitVec 8) (d : Word) (s : State) :
    ((writeNumber ch reg d s).chan c.toNat).fs = (s.chan c.toNat).fs := by
  unfold writeNumber
  split
  · rfl
  · next r hr =>
    have hne : Reg.fs ≠ r := by
      rintro rfl
      exact hreg (eq_zero_of_ofNumber_fs hr)
    by_cases hc : c = ch
    · subst hc
      exact readReg_writeReg_register (idx := 0#8) hne
    · exact readReg_writeReg_channel (r' := .fs) (idx := 0#8) hc

/-- FS of every channel stays as it was but for a WRREG of FS (R110). -/
theorem exec_fs_eq (hi : ∀ ch idx d, i ≠ .wrreg ch 0x00#8 idx d) (h : exec i s = .next t) (c : BitVec 8) :
    (t.chan c.toNat).fs = (s.chan c.toNat).fs := by
  by_cases hm : i.mnemonic = .wrreg
  · cases i with
    | wrreg ch reg idx d =>
      have hreg : reg ≠ 0x00#8 := by
        rintro rfl
        exact hi ch idx d rfl
      obtain ⟨st, -, rfl⟩ | ⟨-, rfl⟩ := guarded_cases s _ _ _ t h
      · rfl
      · exact writeNumber_fs hreg ch c d s
    | _ => cases hm
  · exact exec_chan_eq ChanRegs.fs h (absurd · hm) (fun _ _ _ => rfl) (fun _ _ _ => rfl) c.toNat

theorem windowOf_eq_of_mem (hm : t.mem = s.mem) (hcap : (t.chan c.toNat).cap = (s.chan c.toNat).cap) :
    windowOf c w t = windowOf c w s := by
  simp only [windowOf, memRead, State.cap, hm, hcap]

/-- The command is none of those that may write a window, CAP, WINITED or FS (R181). -/
def LeavesAnalysis (i : Instr) : Prop :=
  i.mnemonic ∉ [.push, .tick, .winit] ∧ ∀ ch idx d, i ≠ .wrreg ch 0x00#8 idx d

theorem leavesAnalysis_analyze (c : BitVec 8) (w : WinSel) : LeavesAnalysis (.analyze c w) :=
  ⟨by simp [Instr.mnemonic], fun _ _ _ h => nomatch h⟩

theorem LeavesAnalysis.exec_sameAnalysis (hi : LeavesAnalysis i) (h : exec i s = .next t) : SameAnalysis c w s t := by
  obtain ⟨hm, hfs⟩ := hi
  simp only [List.mem_cons, List.not_mem_nil, or_false, not_or] at hm
  obtain ⟨hpush, htick, hwinit⟩ := hm
  have hw := exec_writes h
  have hmem : t.mem = s.mem := hw.apply_eq State.mem fun _ h => h.mem_eq (by simp [hwinit, hpush, htick])
  have hchan := exec_chan_eq (fun r => (r.cap, r.winited)) h (fun _ _ _ => rfl) (fun _ _ _ => rfl) (absurd · hwinit)
    c.toNat
  obtain ⟨hcap, hwinited⟩ := Prod.mk.inj hchan
  exact ⟨hw.params_eq, hwinited, hcap, exec_fs_eq hfs h c, windowOf_eq_of_mem hmem hcap⟩

theorem SameAnalysis.trans (h : SameAnalysis c w s t) (h' : SameAnalysis c w t u) : SameAnalysis c w s u :=
  ⟨h'.params.trans h.params, h'.winited.trans h.winited, h'.cap.trans h.cap, h'.fs.trans h.fs,
    h'.window.trans h.window⟩

/-- A run of `LeavesAnalysis` commands leaves what ANALYZE reads as it was, and stays on its port. -/
theorem execAll_sameAnalysis {is : List Instr} (his : ∀ i ∈ is, LeavesAnalysis i) (h : execAll is s = .next t) :
    SameAnalysis c w s t ∧ t.active = s.active := by
  induction is generalizing s with
  | nil =>
    injection h with h
    exact h ▸ ⟨⟨rfl, rfl, rfl, rfl, rfl⟩, rfl⟩
  | cons i is ih =>
    obtain ⟨hi, his⟩ := List.forall_mem_cons.mp his
    cases hx : exec i s with
    | next u =>
      simp only [execAll, hx] at h
      obtain ⟨hu, ha⟩ := ih his h
      exact ⟨(hi.exec_sameAnalysis hx).trans hu, ha.trans (exec_active hx)⟩
    | fault r => cases r
    | refused r => simp [execAll, hx] at h

/-- Settles O26: the answer reads what `SameAnalysis` names, and the first ANALYZE and the commands after it keep it. -/
theorem analyzeIsIdempotent : Obligations.AnalyzeIsIdempotent := by
  refine ⟨fun c w s₁ s₂ hp hw hcap hfs hwin => ?_, fun c w is s t u hfin his ht hu => ?_⟩
  · have hsame : SameAnalysis c w s₁ s₂ :=
      ⟨hp.symm, hw.symm, hcap.symm, hfs.symm,
        windowOf_congr (congrArg BitVec.toNat hcap.symm) fun i hi => (hwin i hi).1.symm⟩
    exact hsame.exec_analyze (windowOf_all_finite fun i hi => (hwin i hi).2)
  · have hrun : execAll (.analyze c w :: is) s = .next u := by rw [execAll, ht]; exact hu
    have hleaves := List.forall_mem_cons.mpr ⟨leavesAnalysis_analyze c w, his⟩
    obtain ⟨hsame, ha⟩ := execAll_sameAnalysis (c := c) (w := w) hleaves hrun
    obtain ⟨t', v, hd, ds, ht', hr, hv, hr'⟩ := hsame.exec_analyze (windowOf_all_finite hfin)
    obtain rfl : t = t' := by
      rw [ht] at ht'
      injection ht'
    exact ⟨v, _, hv, hr, ha ▸ hr'⟩

end Sys2Proof.Proofs
end

section
/-! PROOFS. Zeros added, units multiplied and divided by, and the NaNs of a difference (00_scope.md R10). -/

namespace Sys2Proof.Proofs

open Sys2Proof.Machine Sys2Proof.Machine.Arith Sys2Proof.Laws

variable (q a b : Num64)

theorem isNaN_drawNaN (n : ℕ) : isNaN (drawNaN n) = true := by
  have h : isQuietNaN (drawNaN n) = true := isQuietNaN_quietNaN _
  rw [isQuietNaN, Bool.and_eq_true] at h
  exact h.1

theorem sub_nan (h : isNaN a = true ∨ isNaN b = true) : sub q a b = q :=
  add_nan q a (neg b) (by rwa [isNaN_neg])

@[simp] theorem magBits_absf : magBits (absf a) = magBits a := by
  have h : (0x7FFFFFFFFFFFFFFF#64).setWidth 63 = BitVec.allOnes 63 := by decide
  have hw : (absf a).setWidth 63 = a.setWidth 63 := by rw [absf, BitVec.setWidth_and, h, BitVec.and_allOnes]
  simpa [magBits, BitVec.toNat_setWidth] using congrArg BitVec.toNat hw

@[simp] theorem isNaN_absf : isNaN (absf a) = isNaN a := by rw [isNaN, magBits_absf, isNaN]

/-- No number lies above +infinity. -/
theorem gt_posInf : gt a posInf = false := by
  rw [gt, Bool.eq_false_iff]
  intro h
  obtain ⟨-, hn, hlt⟩ := (lt_eq_true_iff _ _).mp h
  have hinf : orderKey posInf = infMag := by decide
  have ha : magBits a ≤ infMag := by simpa [isNaN] using hn
  have hle : orderKey a ≤ magBits a := by unfold orderKey; split <;> omega
  omega

/-! ## Equality -/

theorem eq_self_of_not_isNaN (h : isNaN a = false) : Arith.eq a a = true := by simp [Arith.eq, h]

theorem eq_of_isZero (ha : isZero a = true) (hb : isZero b = true) : Arith.eq a b = true := by
  have hkey : ∀ c : Num64, isZero c = true → orderKey c = 0 := fun c hc => by
    rw [isZero, decide_eq_true_eq] at hc
    simp [orderKey, hc]
  have hnan := fun c hc => isNaN_eq_false_of_finite c (finite_of_isZero c hc)
  simp [Arith.eq, hnan a ha, hnan b hb, hkey a ha, hkey b hb]

/-! ## Zeros -/

theorem natAbs_value : (value a).natAbs = units a := by
  unfold value
  split <;> simp

/-- Adding a zero gives every number back, but for a zero that is added to +0.0 and may lose its sign. -/
theorem add_isZero (ha : isNaN a = false) (hb : isZero b = true) (hs : isZero a = false ∨ signBit b = true) :
    add q a b = a := by
  have hfb := finite_of_isZero b hb
  obtain hfa | hia := finite_or_isInf a ha
  · have hsign : (if value a = 0 then signBit a && signBit b else decide (value a < 0)) = signBit a := by
      split
      · next h0 =>
        have hz : isZero a = true := by rw [← units_eq_zero a hfa, ← natAbs_value, h0, Int.natAbs_zero]
        obtain hs | hs := hs
        · simp [hs] at hz
        · rw [hs, Bool.and_true]
      · next h0 =>
        unfold value at h0 ⊢
        cases hsa : signBit a with
        | false => simp
        | true =>
          simp only [hsa, if_true] at h0 ⊢
          exact decide_eq_true (by omega)
    have hmag := roundMag_units a 1 one_pos hfa
    rw [mul_one] at hmag
    rw [add_finite q a b hfa hfb, value_of_isZero b hb, add_zero, hsign, natAbs_value, roundTo, hmag, pack_self]
  · have hni : isInf b ≠ true := by simp [isInf_eq_false_of_finite b hfb]
    exact add_inf_left q a b hia (isNaN_eq_false_of_finite b hfb) (absurd · hni)

theorem sub_posZero (ha : isNaN a = false) : sub q a posZero = a :=
  add_isZero q a (neg posZero) ha (by decide) (.inr (by decide))

/-- Adding +0.0 gives an equal number back: only -0.0 becomes another, the other zero. -/
theorem eq_add_posZero (ha : isNaN a = false) : Arith.eq (add q a posZero) a = true := by
  cases hz : isZero a with
  | false => rw [add_isZero q a posZero ha (by decide) (.inl hz), eq_self_of_not_isNaN a ha]
  | true => exact eq_of_isZero _ _ (isZero_add q a posZero hz (by decide)) hz

/-! ## Units -/

/-- The magnitude of +1.0 and -1.0 is 2 ^ 1074 units of the smallest subnormal. -/
theorem units_of_magBits_one (h : magBits b = magBits one) : units b = 2 ^ 1074 := by
  have h1 : magBits one = 1022 * 2 ^ 52 + 2 ^ 52 := by decide
  rw [units_of_magBits b (by norm_num) (.inr le_rfl) (h.trans h1), ← pow_add]

theorem magBits_of_isInf (h : isInf a = true) : magBits a = infMag := of_decide_eq_true h

/-- A factor of +1.0 or -1.0 changes at most the sign. -/
theorem mul_unit (ha : isNaN a = false) (hb : magBits b = magBits one) :
    mul q a b = pack (signBit a != signBit b) (magBits a) ∧
    mul q b a = pack (signBit a != signBit b) (magBits a) := by
  have h1 : magBits one = 1023 * 2 ^ 52 := by decide
  have hfb : finite b = true := by rw [finite, hb, h1]; decide
  have hzb : isZero b = false := by rw [isZero, hb, h1]; decide
  have hub := units_of_magBits_one b hb
  obtain hfa | hia := finite_or_isInf a ha
  · have hmag := roundMag_units a (2 ^ 1074) (by positivity) hfa
    rw [mul_finite q a b hfa hfb, mul_finite q b a hfb hfa, hub, Nat.mul_comm _ (units a), roundTo, roundTo, hmag,
      bne_comm (a := signBit b)]
    exact ⟨rfl, rfl⟩
  · have hnb := isNaN_eq_false_of_finite b hfb
    rw [mul_inf_left q a b hia hnb hzb, mul_inf_right q a b hia hnb hzb, magBits_of_isInf a hia]
    exact ⟨rfl, rfl⟩

theorem mul_one_right (ha : isNaN a = false) : mul q a one = a := by
  have h : signBit one = false := by decide
  rw [(mul_unit q a one ha rfl).1, h, Bool.bne_false, pack_self]

theorem div_one_right (ha : isNaN a = false) : div q a one = a := by
  have h : signBit one = false := by decide
  obtain hfa | hia := finite_or_isInf a ha
  · rw [div_finite q a one hfa (by decide) (by decide), units_of_magBits_one one rfl, h, Bool.bne_false, roundTo,
      roundMag_units a _ (by positivity) hfa, pack_self]
  · rw [div_inf_left q a one hia (by decide), h, Bool.bne_false, ← magBits_of_isInf a hia, pack_self]

end Sys2Proof.Proofs
end

section
/-! PROOFS. The map and the limiter as functions of numbers (44_actuator.md R191 to R196). -/

namespace Sys2Proof.Proofs

open Sys2Proof.Machine Sys2Proof.Machine.Arith Sys2Proof.Laws

theorem isNaN_nansFrom (n j : ℕ) : isNaN (nansFrom n j) = true := isNaN_drawNaN (n + j)

/-! ## The map -/

/-- A NaN bound of the value range makes the range's width or the distance from its start a NaN, and every operation
after it passes a NaN on. -/
theorem isNaN_amap {q : ℕ → Num64} {r : ActRegs} (v : Num64) (hq : ∀ j, isNaN (q j) = true)
    (h : isNaN r.vlo = true ∨ isNaN r.vhi = true) : isNaN (amap q r v) = true := by
  have hdiv : isNaN (div (q 2) (sub (q 0) v r.vlo) (sub (q 1) r.vhi r.vlo)) = true := by
    rw [div_nan _ _ _ (.inr (by rw [sub_nan _ _ _ h.symm, hq])), hq]
  rw [amap, mul_nan _ _ _ (.inl hdiv), add_nan _ _ _ (.inl (hq 4)), hq]

/-- On the ranges from 0.0 to 1.0 and from 0.0 to `ohi` the map is the product with `ohi`. -/
theorem amap_unit_range (q : ℕ → Num64) (x ohi last step : Num64) (hx : isNaN x = false) (ho : isNaN ohi = false) :
    amap q ⟨posZero, one, posZero, ohi, step, last⟩ x = add (q 5) (mul (q 4) x ohi) posZero := by
  simp only [amap, sub_posZero _ _ hx, sub_posZero _ _ ho, sub_posZero _ one (by decide), div_one_right _ _ hx]

/-- Half of a hundred is fifty, without rounding. -/
theorem mul_half_hundred (q : Num64) : mul q 0x3FE0000000000000#64 0x4059000000000000#64 = 0x4049000000000000#64 := by
  rw [mul_finite _ _ _ (by decide) (by decide)]
  decide +kernel

/-- Settles O28: the value range divides by 1.0 and every zero is subtracted without effect, so 0.5 is multiplied by
100.0, and any other number by 1.0. -/
theorem mapIdentityRange : Obligations.MapIdentityRange := by
  refine fun q => ⟨fun last step => ?_, fun x last step hx => ?_⟩
  · rw [amap_unit_range q _ _ _ _ (by decide) (by decide), mul_half_hundred]
    exact add_isZero _ _ _ (by decide) (by decide) (.inl (by decide))
  · rw [amap_unit_range q x _ _ _ hx (by decide), mul_one_right _ x hx]
    exact eq_add_posZero _ x hx

/-! ## The limiter -/

theorem rateLimit_pass {q : ℕ → Num64} {new last st : Num64} (h : gt (absf (sub (q 0) new last)) st = false) :
    rateLimit q new last st = new := by
  simp [rateLimit, h]

theorem rateLimit_limit {q : ℕ → Num64} {new last st : Num64} (h : gt (absf (sub (q 0) new last)) st = true) :
    rateLimit q new last st =
      add (q 2) last (mul (q 1) (if gt (sub (q 0) new last) posZero then one else negOne) st) := by
  simp only [rateLimit, h, if_true]

/-- A difference that is a NaN exceeds no step. -/
theorem rateLimit_nan {q : ℕ → Num64} {new last : Num64} (st : Num64) (h : isNaN (sub (q 0) new last) = true) :
    rateLimit q new last st = new :=
  rateLimit_pass (lt_nan_right _ _ (by rwa [isNaN_absf]))

/-- Settles O30: no difference exceeds +infinity, and a difference from or of a NaN exceeds no step. -/
theorem limiterPassesThrough : Obligations.LimiterPassesThrough := by
  intro n new last st
  refine ⟨?_, fun h => ?_, fun h => ?_⟩
  · rintro rfl
    exact rateLimit_pass (gt_posInf _)
  · exact rateLimit_nan st (by rw [sub_nan _ _ _ (.inl h), isNaN_nansFrom])
  · exact rateLimit_nan st (by rw [sub_nan _ _ _ (.inr h), isNaN_nansFrom])

/-- The sum of a number and a finite step, up or down, is a number, so it is the same whatever NaNs its operations are
given. -/
theorem add_step_draws_nothing {last sg st : Num64} (q₁ q₁' q₂ q₂' : Num64) (hq : isNaN q₂' = true)
    (hsg : magBits sg = magBits one) (hlast : isNaN last = false) (hst : finite st = true) :
    add q₂ last (mul q₁ sg st) = add q₂' last (mul q₁' sg st) := by
  have hnst := isNaN_eq_false_of_finite st hst
  rw [(mul_unit q₁ st sg hnst hsg).2, (mul_unit q₁' st sg hnst hsg).2]
  have hfin : finite (pack (signBit st != signBit sg) (magBits st)) = true := by
    rw [finite, magBits_pack _ _ (magBits_lt st)]
    exact hst
  refine (add_congr q₂ _ _ q₂' hq ?_).1
  exact isNaN_add_valid _ _ _ hlast (isNaN_eq_false_of_finite _ hfin) fun _ h => by
    simp [isInf_eq_false_of_finite _ hfin] at h

/-- The limiter answers none of the NaNs its operations are given: a difference that is a NaN passes the operand, and
a step that is exceeded is finite. -/
theorem rateLimit_draws_nothing {q q' : ℕ → Num64} {new last st : Num64} (hq : ∀ j, isNaN (q j) = true)
    (hq' : ∀ j, isNaN (q' j) = true) (hst : gt st posZero = true) :
    rateLimit q new last st = rateLimit q' new last st := by
  by_cases hd : isNaN (sub (q' 0) new last) = false
  · obtain ⟨hdiff, -, hlast⟩ := sub_congr (q 0) new last (q' 0) (hq' 0) hd
    cases hgt : gt (absf (sub (q' 0) new last)) st with
    | false => rw [rateLimit_pass hgt, rateLimit_pass (hdiff ▸ hgt)]
    | true =>
      rw [rateLimit_limit hgt, rateLimit_limit (hdiff ▸ hgt), hdiff]
      refine add_step_draws_nothing _ _ _ _ (hq' 2) ?_ hlast (finite_of_gt_of_lt hst hgt)
      split <;> rfl
  · have hd' : isNaN (sub (q 0) new last) ≠ false := fun h =>
      hd ((sub_congr (q' 0) new last (q 0) (hq 0) h).1 ▸ h)
    rw [rateLimit_nan st (Bool.of_not_eq_false hd), rateLimit_nan st (Bool.of_not_eq_false hd')]

end Sys2Proof.Proofs
end

section
/-! PROOFS. The commands of the actuators: what MAP and RLIM answer, what the write of an actuator does, and that a
command reads no other actuator than the one it names (44_actuator.md R190 to R199; 45_hot_path.md R214). -/

namespace Sys2Proof.Proofs

open Sys2Proof.Machine Sys2Proof.Laws

variable {i : Instr} {s t u s₁ s₂ t₁ t₂ e₁ e₂ : State} {a : BitVec 8} {m : Mnemonic} {cs cs₁ cs₂ : List (Option Status)}

/-! ## MAP and RLIM -/

/-- On port S an actuator that exists leaves a command's first two checks behind. -/
theorem firstError_actuator (ha : s.active = .s) (hn : a.toNat < s.params.nact) (cs : List (Option Status)) :
    firstError (portCheck s :: actuatorCheck a s :: cs) = firstError cs := by
  rw [portCheck_s s ha, actuatorCheck_in s a hn, firstError_none, firstError_none]

theorem exec_map_pass (ha : s.active = .s) (hn : a.toNat < s.params.nact) (v : Word)
    (h : Arith.eq (s.act a.toNat).vhi (s.act a.toNat).vlo = false) :
    exec (.map a v) s = .next (respondOk .map false [mapped a v s] (drawMap s)) :=
  guarded_pass s .map _ _ ((firstError_actuator ha hn _).trans (by rw [rangeCheck, h]; rfl))

theorem exec_map_degenerate (ha : s.active = .s) (hn : a.toNat < s.params.nact) (v : Word)
    (h : Arith.eq (s.act a.toNat).vhi (s.act a.toNat).vlo = true) :
    exec (.map a v) s = .next (raise Mnemonic.map.opcode .degenerateRange s) :=
  guarded_fail s .map _ _ _ ((firstError_actuator ha hn _).trans (by rw [rangeCheck, h]; rfl))

theorem exec_rlim_pass (ha : s.active = .s) (hn : a.toNat < s.params.nact) (v : Word)
    (h : Arith.gt (s.act a.toNat).step posZero = true) :
    exec (.rlim a v) s = .next (respondOk .rlim false [limited a v s] s) :=
  guarded_pass s .rlim _ _ ((firstError_actuator ha hn _).trans (by rw [stepCheck, h]; rfl))

/-- Settles O27: the range check decides, and a NaN bound is equal to nothing and spoils the result. -/
theorem mapRescales : Obligations.MapRescales := by
  intro a v s ha hn q r m
  refine ⟨?_, fun hnan => ⟨?_, isNaN_amap v (isNaN_nansFrom s.nanDraws) hnan⟩⟩
  · have hhead : responseHeader Mnemonic.map.opcode false .ok 1 = 0x40000001#32 := by decide
    split
    · next heq => exact exec_map_degenerate ha hn v heq
    · next heq =>
      rw [exec_map_pass ha hn v (Bool.of_not_eq_true heq), ← ha, ← hhead]
      rfl
  · exact hnan.elim (eq_nan_right _ _) (eq_nan_left _ _)

/-- Settles O29: the checks pass, and the limiter computes the same with any NaN. -/
theorem rlimLimitsTheStep : Obligations.RlimLimitsTheStep := by
  intro a v s ha hn hstep
  have hhead : responseHeader Mnemonic.rlim.opcode false .ok 1 = 0x41000001#32 := by decide
  refine ⟨limited a v s, ?_, fun q hq => ?_⟩
  · rw [exec_rlim_pass ha hn v hstep, ← ha, ← hhead]
    rfl
  · have hdraws : limited a v s = rateLimit (fun _ => q) v (s.act a.toNat).last (s.act a.toNat).step :=
      rateLimit_draws_nothing (isNaN_nansFrom s.nanDraws) (fun _ => hq) hstep
    rw [hdraws]
    exact ⟨rateLimit_pass (q := fun _ => q), rateLimit_limit (q := fun _ => q)⟩

/-! ## The write of an actuator -/

/-- BoardWrite and LAST: one acknowledgement is taken off the Board's list, one call recorded, and the actuator file
written; nothing else (R198, R199). -/
theorem writeActuator_frame (a : BitVec 8) (v : Num64) (s : State) :
    (writeActuator a v s).2 =
      { s with
        acts := (writeActuator a v s).2.acts, boardAcks := s.boardAcks.tail,
        boardWrites := s.boardWrites ++ [⟨a, v, (writeActuator a v s).1⟩] } := by
  unfold writeActuator
  dsimp only
  split <;> rfl

theorem act_writeActuator (a : BitVec 8) (v : Num64) (s : State) (j : ℕ) :
    (writeActuator a v s).2.act j =
      if j = a.toNat ∧ (writeActuator a v s).1 = true then { s.act j with last := v } else s.act j := by
  unfold writeActuator
  dsimp only
  split
  · next hk =>
    rw [act_setAct]
    by_cases hj : j = a.toNat
    · rw [if_pos hj, if_pos ⟨hj, hk⟩, hj]
      rfl
    · rw [if_neg hj, if_neg (not_and_of_not_left _ hj)]
      rfl
  · next hk =>
    rw [if_neg (not_and_of_not_right _ hk)]
    rfl

/-- The acknowledgement is the Board's next listed one. -/
theorem writeActuator_ack {k : Bool} {ks : List Bool} (a : BitVec 8) (v : Num64) (h : s.boardAcks = k :: ks) :
    (writeActuator a v s).1 = k := by
  simp [writeActuator, boardWrite, h]

theorem exec_actwr_pass (ha : s.active = .s) (hn : a.toNat < s.params.nact) (v : Word) :
    exec (.actwr a v) s = .next (respondOk .actwr (writeActuator a v s).1 [] (writeActuator a v s).2) :=
  guarded_pass s .actwr _ _ (firstError_actuator ha hn [])

/-- Settles O31: the port, the actuator, and past both checks one write of the actuator. -/
theorem actwrWritesAndRecords : Obligations.ActwrWritesAndRecords := by
  refine fun a v s => ⟨fun ha => exec_write_class_d ha rfl, fun ha hn => ?_, fun ha hn => ?_⟩
  · refine guarded_fail s .actwr _ _ .outOfRange ?_
    rw [portCheck_s s ha, actuatorCheck, decide_eq_true hn]
    rfl
  · have hhead : (if (writeActuator a v s).1 then 0x42800000#32 else 0x42000000#32) =
        responseHeader Mnemonic.actwr.opcode (writeActuator a v s).1 .ok 0 := by
      cases (writeActuator a v s).1 <;> decide
    refine ⟨_, (writeActuator a v s).1, exec_actwr_pass ha hn v, fun k ks => writeActuator_ack a v, ?_,
      fun hk => ?_, fun hk => ?_, fun j hj => ?_⟩
    · rw [writeActuator_frame, hhead, ← ha]
      rfl
    · rw [respondOk_act, act_writeActuator, if_pos ⟨rfl, hk⟩]
    · rw [respondOk_act, act_writeActuator, if_neg (by simp [hk])]
    · rw [respondOk_act, act_writeActuator, if_neg (not_and_of_not_left _ hj)]

/-! ## Actuators are independent -/

/-- The two states agree on actuator `a`, the executing port, NACT, the draw counter and the Board's acknowledgements
and writes (R197). -/
structure SameActuator (a : BitVec 8) (s₁ s₂ : State) : Prop where
  act : s₁.act a.toNat = s₂.act a.toNat
  active : s₁.active = s₂.active
  nact : s₁.params.nact = s₂.params.nact
  nanDraws : s₁.nanDraws = s₂.nanDraws
  boardAcks : s₁.boardAcks = s₂.boardAcks
  boardWrites : s₁.boardWrites = s₂.boardWrites

/-- From `s₁` and from `s₂` the same response is given, and actuator `a` and the BoardWrites end alike. -/
structure ActAlike (a : BitVec 8) (s₁ s₂ t₁ t₂ : State) : Prop where
  act : t₁.act a.toNat = t₂.act a.toNat
  boardWrites : t₁.boardWrites = t₂.boardWrites
  answer : ∃ r, t₁.responses = s₁.responses ++ [r] ∧ t₂.responses = s₂.responses ++ [r]

theorem SameActuator.mapped_eq (h : SameActuator a s₁ s₂) (v : Num64) : mapped a v s₁ = mapped a v s₂ := by
  rw [mapped, h.nanDraws, h.act, mapped]

theorem SameActuator.limited_eq (h : SameActuator a s₁ s₂) (v : Num64) : limited a v s₁ = limited a v s₂ := by
  rw [limited, h.nanDraws, h.act, limited]

theorem SameActuator.drawMap (h : SameActuator a s₁ s₂) : SameActuator a (drawMap s₁) (drawMap s₂) :=
  { h with nanDraws := by rw [drawMap_nanDraws, drawMap_nanDraws, h.nanDraws] }

theorem SameActuator.driveValue_eq (h : SameActuator a s₁ s₂) (v : Num64) : driveValue a v s₁ = driveValue a v s₂ := by
  rw [driveValue, h.mapped_eq, h.drawMap.limited_eq, driveValue]

theorem SameActuator.writeActuator_ack (h : SameActuator a s₁ s₂) (v : Num64) :
    (writeActuator a v s₁).1 = (writeActuator a v s₂).1 := by
  simp only [writeActuator, boardWrite, h.boardAcks, h.boardWrites]

theorem SameActuator.raise (h : SameActuator a s₁ s₂) (op : BitVec 8) (st : Status) :
    ActAlike a s₁ s₂ (raise op st s₁) (raise op st s₂) :=
  ⟨h.act, h.boardWrites, _, raise_responses s₁ op st, by rw [h.active]; exact raise_responses s₂ op st⟩

theorem SameActuator.respondOk (h : SameActuator a s₁ s₂) (f : Bool) (ds : List Word) :
    ActAlike a s₁ s₂ (respondOk m f ds s₁) (respondOk m f ds s₂) :=
  ⟨h.act, h.boardWrites, _, respondOk_responses s₁ m f ds, by rw [h.active]; exact respondOk_responses s₂ m f ds⟩

/-- A write of the actuator and its answer. -/
theorem SameActuator.respondOk_writeActuator (h : SameActuator a s₁ s₂) (v : Num64) (ds : List Word) :
    ActAlike a s₁ s₂ (Machine.respondOk m (writeActuator a v s₁).1 ds (writeActuator a v s₁).2)
      (Machine.respondOk m (writeActuator a v s₂).1 ds (writeActuator a v s₂).2) := by
  have hack := h.writeActuator_ack v
  have hs₁ := silent_writeActuator a v s₁
  have hs₂ := silent_writeActuator a v s₂
  refine ⟨?_, ?_, ⟨s₁.active, responseHeader m.opcode (writeActuator a v s₁).1 .ok ds.length, ds⟩, ?_, ?_⟩
  · rw [respondOk_act, respondOk_act, act_writeActuator, act_writeActuator, hack, h.act]
  · rw [respondOk_boardWrites, respondOk_boardWrites, writeActuator_frame, writeActuator_frame a v s₂, hack,
      h.boardWrites]
  · rw [respondOk_responses, hs₁.responses, hs₁.active]
  · rw [respondOk_responses, hs₂.responses, hs₂.active, hack, h.active]

/-- Guarded commands with the same checks and alike effects end alike. -/
theorem SameActuator.guarded (h : SameActuator a s₁ s₂) (hcs : cs₁ = cs₂) (he : ActAlike a s₁ s₂ e₁ e₂)
    (h₁ : guarded m cs₁ s₁ e₁ = .next t₁) (h₂ : guarded m cs₂ s₂ e₂ = .next t₂) : ActAlike a s₁ s₂ t₁ t₂ := by
  subst hcs
  obtain ⟨st, hst, rfl⟩ | ⟨hn, rfl⟩ := guarded_cases s₁ m cs₁ e₁ t₁ h₁
  · rw [guarded_fail s₂ m cs₁ e₂ st hst] at h₂
    injection h₂ with h₂
    exact h₂ ▸ h.raise m.opcode st
  · rw [guarded_pass s₂ m cs₁ e₂ hn] at h₂
    injection h₂ with h₂
    exact h₂ ▸ he

/-- Settles O33: the checks and the value read actuator `a` and the environment only, and so does the write. -/
theorem actuatorsAreIndependent : Obligations.ActuatorsAreIndependent := by
  intro a v i s₁ s₂ t₁ t₂ hi hact hactive hnact hdraws hacks hwrites h₁ h₂
  have h : SameActuator a s₁ s₂ := ⟨hact, hactive, hnact, hdraws, hacks, hwrites⟩
  have hport : portCheck s₁ = portCheck s₂ := by rw [portCheck, hactive, portCheck]
  have hexists : actuatorCheck a s₁ = actuatorCheck a s₂ := by rw [actuatorCheck, hnact, actuatorCheck]
  have halike : ActAlike a s₁ s₂ t₁ t₂ := by
    obtain rfl | rfl := hi
    · refine h.guarded (by rw [hport, hexists, hact]) ?_ h₁ h₂
      rw [h.limited_eq]
      exact h.respondOk _ _
    · refine h.guarded (by rw [hport, hexists, hact]) ?_ h₁ h₂
      rw [h.driveValue_eq]
      obtain ⟨hact, hwrites, hanswer⟩ := h.drawMap.respondOk_writeActuator (driveValue a v s₂) _
      exact ⟨hact, hwrites, hanswer⟩
  exact ⟨halike.act, halike.boardWrites, halike.answer⟩

end Sys2Proof.Proofs
end

section
/-! PROOFS. Who calls the Board: TICK alone reads it, ACTWR and DRIVE alone write it, once where they answer OK
(44_actuator.md R199; 45_hot_path.md R212, R217). -/

namespace Sys2Proof.Proofs

open Sys2Proof.Machine Sys2Proof.Laws

variable {i : Instr} {s t u : State} {m : Mnemonic} {cs : List (Option Status)}

/-! ## Operations that do not call the Board -/

/-- No BoardRead between the two states, and no listed answer taken. -/
structure NoBoardRead (s t : State) : Prop where
  boardReads : t.boardReads = s.boardReads
  boardAnswers : t.boardAnswers = s.boardAnswers

/-- No BoardWrite between the two states, and no listed acknowledgement taken. -/
structure NoBoardWrite (s t : State) : Prop where
  boardWrites : t.boardWrites = s.boardWrites
  boardAcks : t.boardAcks = s.boardAcks

/-- No call to the Board at all. -/
structure NoBoardCall (s t : State) : Prop where
  read : NoBoardRead s t
  write : NoBoardWrite s t

theorem NoBoardRead.respondOk (h : NoBoardRead s u) (f : Bool) (ds : List Word) :
    NoBoardRead s (respondOk m f ds u) := ⟨h.boardReads, h.boardAnswers⟩

theorem NoBoardWrite.respondOk (h : NoBoardWrite s u) (f : Bool) (ds : List Word) :
    NoBoardWrite s (respondOk m f ds u) := ⟨h.boardWrites, h.boardAcks⟩

theorem NoBoardCall.respondOk (h : NoBoardCall s u) (f : Bool) (ds : List Word) :
    NoBoardCall s (respondOk m f ds u) := ⟨h.read.respondOk f ds, h.write.respondOk f ds⟩

theorem noBoardCall_raise (op : BitVec 8) (st : Status) (s : State) : NoBoardCall s (raise op st s) :=
  ⟨⟨rfl, rfl⟩, ⟨rfl, rfl⟩⟩

theorem noBoardCall_writeNumber (ch reg : BitVec 8) (d : Word) (s : State) :
    NoBoardCall s (writeNumber ch reg d s) := by
  unfold writeNumber
  split
  · exact ⟨⟨rfl, rfl⟩, ⟨rfl, rfl⟩⟩
  · next r _ =>
    obtain he | ⟨-, st, he⟩ | ⟨-, st, he⟩ := writeReg_cases r ch d s <;> rw [he] <;> exact ⟨⟨rfl, rfl⟩, ⟨rfl, rfl⟩⟩

theorem noBoardCall_constructCascade (c : BitVec 8) (secs : List Coefs) (s : State) :
    NoBoardCall s (constructCascade c secs s) := by
  rw [constructCascade_frame]
  exact ⟨⟨rfl, rfl⟩, ⟨rfl, rfl⟩⟩

theorem noBoardCall_cascade (c : BitVec 8) (x : Num64) (s : State) : NoBoardCall s (cascade c x s).2 := by
  rw [cascade_frame]
  exact ⟨⟨rfl, rfl⟩, ⟨rfl, rfl⟩⟩

theorem noBoardCall_cascadeBatch (c : BitVec 8) (xs : List Num64) (s : State) :
    NoBoardCall s (cascadeBatch c xs s).2 := by
  rw [cascadeBatch_frame]
  exact ⟨⟨rfl, rfl⟩, ⟨rfl, rfl⟩⟩

theorem noBoardCall_ingest (c : BitVec 8) (x : Num64) (s : State) : NoBoardCall s (ingest c x s) := by
  refine NoBoardCall.respondOk ?_ _ _
  obtain ⟨⟨hreads, hanswers⟩, ⟨hwrites, hacks⟩⟩ := noBoardCall_cascade c x s
  split <;> exact ⟨⟨hreads, hanswers⟩, ⟨hwrites, hacks⟩⟩

theorem noBoardRead_writeActuator (a : BitVec 8) (v : Num64) (s : State) : NoBoardRead s (writeActuator a v s).2 := by
  rw [writeActuator_frame]
  exact ⟨rfl, rfl⟩

/-! ## The commands -/

theorem guarded_noBoardRead {e : State} (h : guarded m cs s e = .next t) (he : NoBoardRead s e) : NoBoardRead s t := by
  obtain ⟨st, -, rfl⟩ | ⟨-, rfl⟩ := guarded_cases s m cs e t h
  · exact (noBoardCall_raise _ st s).read
  · exact he

theorem guarded_noBoardWrite {e : State} (h : guarded m cs s e = .next t) (he : NoBoardWrite s e) :
    NoBoardWrite s t := by
  obtain ⟨st, -, rfl⟩ | ⟨-, rfl⟩ := guarded_cases s m cs e t h
  · exact (noBoardCall_raise _ st s).write
  · exact he

theorem guarded_noBoardCall {e : State} (h : guarded m cs s e = .next t) (he : NoBoardCall s e) : NoBoardCall s t :=
  ⟨guarded_noBoardRead h he.read, guarded_noBoardWrite h he.write⟩

theorem execFinit_noBoardCall {c : BitVec 8} (h : execFinit c s = .next t) : NoBoardCall s t := by
  unfold execFinit at h
  split at h
  · injection h with h
    exact h ▸ noBoardCall_raise _ _ s
  · split at h
    · injection h with h
      exact h ▸ (noBoardCall_constructCascade c (sectionsFor c s) s).respondOk _ _
    · cases h

theorem execTick_noBoardWrite {c : BitVec 8} (h : execTick c s = .next t) : NoBoardWrite s t := by
  have hread : NoBoardWrite s (boardRead c s).2 := ⟨rfl, rfl⟩
  unfold execTick at h
  split at h
  · injection h with h
    exact h ▸ (noBoardCall_raise _ _ s).write
  · split at h
    · injection h with h
      exact h ▸ hread.respondOk _ _
    · next x _ =>
      obtain ⟨hwrites, hacks⟩ := guarded_noBoardWrite h (noBoardCall_ingest c x (boardRead c s).2).write
      exact ⟨hwrites.trans hread.boardWrites, hacks.trans hread.boardAcks⟩

/-- A command other than TICK, ACTWR and DRIVE makes no call to the Board. -/
theorem exec_noBoardCall (hi : i.mnemonic ∉ [.tick, .actwr, .drive]) (h : exec i s = .next t) : NoBoardCall s t := by
  cases i with
  | wrreg ch reg idx d => exact guarded_noBoardCall h ((noBoardCall_writeNumber ch reg d s).respondOk _ _)
  | finit c => exact execFinit_noBoardCall h
  | filt c x => exact guarded_noBoardCall h ((noBoardCall_cascade c x s).respondOk _ _)
  | filtb c xs => exact guarded_noBoardCall h ((noBoardCall_cascadeBatch c xs s).respondOk _ _)
  | actwr | drive | tick => simp [Instr.mnemonic] at hi
  | rdreg | winit | push | snap | analyze | map | rlim =>
    exact guarded_noBoardCall h ⟨⟨rfl, rfl⟩, ⟨rfl, rfl⟩⟩

/-- Only TICK reads the Board (R212). -/
theorem exec_noBoardRead (hi : i.mnemonic ≠ .tick) (h : exec i s = .next t) : NoBoardRead s t := by
  cases i with
  | actwr a v => exact guarded_noBoardRead h ((noBoardRead_writeActuator a v s).respondOk _ _)
  | drive a v =>
    obtain ⟨hreads, hanswers⟩ := noBoardRead_writeActuator a (driveValue a v s) (drawMap s)
    exact guarded_noBoardRead h ⟨hreads, hanswers⟩
  | tick => exact absurd rfl hi
  | _ => exact (exec_noBoardCall (by simp [Instr.mnemonic]) h).read

/-- Only ACTWR and DRIVE write the Board (R199). -/
theorem exec_noBoardWrite (hi : i.mnemonic ∉ [.actwr, .drive]) (h : exec i s = .next t) : NoBoardWrite s t := by
  by_cases htick : i.mnemonic = .tick
  · cases i with
    | tick c => exact execTick_noBoardWrite h
    | _ => cases htick
  · exact (exec_noBoardCall (List.not_mem_cons_of_ne_of_not_mem htick hi) h).write

/-! ## The one BoardWrite of an OK -/

theorem ok_of_code {st : Status} (h : st.code = 0#4) : st = .ok := by
  revert h
  cases st <;> decide

@[simp] theorem some_eq_failIf (b : Bool) (st st' : Status) : some st' = failIf b st ↔ b = true ∧ st = st' := by
  rw [eq_comm, failIf_eq_some]

/-- A command whose effect is a write of the actuator, and no check of which can fail with OK, has written the Board
once where it answers OK, and its F is the acknowledgement. -/
theorem boardWrites_of_ok {a : BitVec 8} {v : Num64} {ds : List Word} {r : Response} (hcs : some .ok ∉ cs)
    (h : guarded m cs s (respondOk m (writeActuator a v u).1 ds (writeActuator a v u).2) = .next t)
    (hresp : u.responses = s.responses) (hwrites : u.boardWrites = s.boardWrites)
    (hr : t.responses = s.responses ++ [r]) (hok : statusField r.header = 0#4) :
    t.boardWrites = s.boardWrites ++ [⟨a, v, flagField r.header⟩] := by
  obtain ⟨st, hst, rfl⟩ | ⟨-, rfl⟩ := guarded_cases s m cs _ t h
  · obtain rfl : _ = r := List.singleton_injective (List.append_cancel_left ((raise_responses ..).symm.trans hr))
    rw [statusField_responseHeader] at hok
    exact absurd (ok_of_code hok ▸ firstError_mem cs st hst) hcs
  · rw [respondOk_responses, (silent_writeActuator a v u).responses, hresp] at hr
    obtain rfl : _ = r := List.singleton_injective (List.append_cancel_left hr)
    rw [flagField_responseHeader, respondOk_boardWrites, writeActuator_frame, hwrites]

/-- Settles O57: a command that is not of the callers calls nothing, and the two writers write once. -/
theorem callersOfTheBoard : Obligations.CallersOfTheBoard := by
  intro i s t h
  refine ⟨fun hne => ?_, fun hne => ?_, fun r hi hr hok => ?_⟩
  · by_contra hi
    obtain ⟨hreads, hanswers⟩ := exec_noBoardRead hi h
    exact hne.elim (· hreads) (· hanswers)
  · by_contra hi
    obtain ⟨hwrites, hacks⟩ := exec_noBoardWrite hi h
    exact hne.elim (· hwrites) (· hacks)
  · cases i with
    | actwr a v =>
      have hcs : some .ok ∉ [portCheck s, actuatorCheck a s] := by simp [portCheck, actuatorCheck]
      exact ⟨_, boardWrites_of_ok hcs h rfl rfl hr hok, rfl, rfl⟩
    | drive a v =>
      have hcs : some .ok ∉
          [portCheck s, actuatorCheck a s, stepCheck (s.act a.toNat), rangeCheck (s.act a.toNat)] := by
        simp [portCheck, actuatorCheck, stepCheck, rangeCheck]
      exact ⟨_, boardWrites_of_ok (u := drawMap s) hcs h rfl rfl hr hok, rfl, rfl⟩
    | _ => simp [Instr.mnemonic] at hi

end Sys2Proof.Proofs
end

section
/-! PROOFS. The hot path: DRIVE does what MAP, RLIM and ACTWR do one after the other, and TICK reads the Board once and
then does what FILT and PUSH do (45_hot_path.md R210 to R214). -/

namespace Sys2Proof.Proofs

open Sys2Proof.Machine Sys2Proof.Laws

variable {s t u : State} {c a : BitVec 8} {x v : Num64} {i : Instr}

/-! ## Commands in sequence and their responses -/

theorem execAll_cons_of_next (h : exec i s = .next t) (is : List Instr) : execAll (i :: is) s = execAll is t := by
  rw [execAll, h]

/-- The state with another record of responses. -/
def setResponses (rs : List Response) (s : State) : State := { s with responses := rs }

/-- The OK response of port S after an update that answers nothing. -/
theorem respondOk_of_silent (ha : s.active = .s) (hu : Silent s u) (m : Mnemonic) (f : Bool) (ds : List Word) :
    respondOk m f ds u =
      setResponses (s.responses ++ [⟨.s, responseHeader m.opcode f .ok ds.length, ds⟩]) u := by
  change setResponses (u.responses ++ [⟨u.active, responseHeader m.opcode f .ok ds.length, ds⟩]) u = _
  rw [hu.responses, hu.active, ha]

/-! ## DRIVE -/

/-- The BoardWrite of DRIVE: the value MAP and RLIM make of `v`, sent after the draws of MAP. -/
def driveWrite (a : BitVec 8) (v : Num64) (s : State) : Bool × State :=
  writeActuator a (driveValue a v s) (drawMap s)

theorem silent_driveWrite (a : BitVec 8) (v : Num64) (s : State) : Silent s (driveWrite a v s).2 :=
  have h := silent_writeActuator a (driveValue a v s) (drawMap s)
  ⟨h.responses, h.active⟩

/-- Port S runs DRIVE on an actuator whose STEP is positive and whose value range has not collapsed. -/
structure Drivable (a : BitVec 8) (s : State) : Prop where
  active : s.active = .s
  exists_act : a.toNat < s.params.nact
  step_pos : Arith.gt (s.act a.toNat).step posZero = true
  range : Arith.eq (s.act a.toNat).vhi (s.act a.toNat).vlo = false

theorem exec_drive_pass (h : Drivable a s) :
    exec (.drive a v) s = .next (respondOk .drive (driveWrite a v s).1 [driveValue a v s] (driveWrite a v s).2) :=
  guarded_pass s .drive _ _ ((firstError_actuator h.active h.exists_act _).trans
    (by rw [stepCheck, rangeCheck, h.step_pos, h.range]; rfl))

/-- The write of an actuator does not read the record of responses. -/
theorem writeActuator_setResponses (a : BitVec 8) (v : Num64) (rs : List Response) (s : State) :
    writeActuator a v (setResponses rs s) = ((writeActuator a v s).1, setResponses rs (writeActuator a v s).2) := by
  have hb : boardWrite a v (setResponses rs s) = ((boardWrite a v s).1, setResponses rs (boardWrite a v s).2) := rfl
  simp only [writeActuator, hb]
  split <;> rfl

/-- The state after MAP of `v` and RLIM of the value it answers: the draws of MAP, and the two responses. -/
def mapThenLimit (a : BitVec 8) (v : Num64) (s : State) : State :=
  respondOk .rlim false [driveValue a v s] (respondOk .map false [mapped a v s] (drawMap s))

/-- RLIM finds LAST and STEP as MAP found them and the draws after MAP's, so it answers the value DRIVE sends. -/
theorem execAll_map_rlim (h : Drivable a s) (is : List Instr) :
    execAll (.map a v :: .rlim a (mapped a v s) :: is) s = execAll is (mapThenLimit a v s) := by
  have hmap := exec_map_pass h.active h.exists_act v h.range
  have hrlim := exec_rlim_pass (s := respondOk .map false [mapped a v s] (drawMap s)) h.active h.exists_act
    (mapped a v s) h.step_pos
  exact (execAll_cons_of_next hmap _).trans (execAll_cons_of_next hrlim is)

/-- The write of ACTWR after MAP and RLIM is DRIVE's, but for their two responses. -/
theorem writeActuator_mapThenLimit (a : BitVec 8) (v : Num64) (s : State) :
    writeActuator a (driveValue a v s) (mapThenLimit a v s) =
      ((driveWrite a v s).1, setResponses (mapThenLimit a v s).responses (driveWrite a v s).2) :=
  writeActuator_setResponses a (driveValue a v s) (mapThenLimit a v s).responses (drawMap s)

/-- What MAP answering `m`, RLIM answering `r` and ACTWR answering `ack` respond on port S. -/
def mapLimitWriteResponses (m r : Num64) (ack : Bool) : List Response :=
  [⟨.s, 0x40000001#32, [m]⟩, ⟨.s, 0x41000001#32, [r]⟩, ⟨.s, if ack then 0x42800000#32 else 0x42000000#32, []⟩]

theorem mapThenLimit_responses (ha : s.active = .s) (ack : Bool) :
    (mapThenLimit a v s).responses ++ [⟨.s, responseHeader Mnemonic.actwr.opcode ack .ok 0, []⟩] =
      s.responses ++ mapLimitWriteResponses (mapped a v s) (driveValue a v s) ack := by
  have hheads : mapLimitWriteResponses (mapped a v s) (driveValue a v s) ack =
      [⟨.s, responseHeader Mnemonic.map.opcode false .ok 1, [mapped a v s]⟩,
        ⟨.s, responseHeader Mnemonic.rlim.opcode false .ok 1, [driveValue a v s]⟩,
        ⟨.s, responseHeader Mnemonic.actwr.opcode ack .ok 0, []⟩] := by
    cases ack <;> rfl
  simp [mapThenLimit, hheads, ha]

theorem execAll_map_rlim_actwr (h : Drivable a s) :
    execAll [.map a v, .rlim a (mapped a v s), .actwr a (driveValue a v s)] s =
      .next (setResponses
        (s.responses ++ mapLimitWriteResponses (mapped a v s) (driveValue a v s) (driveWrite a v s).1)
        (driveWrite a v s).2) := by
  have hactwr := exec_actwr_pass (s := mapThenLimit a v s) h.active h.exists_act (driveValue a v s)
  have hsilent : Silent (mapThenLimit a v s) (setResponses (mapThenLimit a v s).responses (driveWrite a v s).2) :=
    ⟨rfl, (silent_driveWrite a v s).active⟩
  rw [execAll_map_rlim h, execAll_cons_of_next hactwr, writeActuator_mapThenLimit,
    respondOk_of_silent (s := mapThenLimit a v s) h.active hsilent, ← mapThenLimit_responses h.active]
  rfl

/-- Settles O32: both send the value MAP and RLIM make of `v`, and write the actuator alike. -/
theorem driveIsMapLimitWrite : Obligations.DriveIsMapLimitWrite := by
  intro a v s ha hn hstep hrange
  have h : Drivable a s := ⟨ha, hn, hstep, hrange⟩
  have hhead : (if (driveWrite a v s).1 then 0x43800001#32 else 0x43000001#32) =
      responseHeader Mnemonic.drive.opcode (driveWrite a v s).1 .ok 1 := by
    cases (driveWrite a v s).1 <;> rfl
  refine ⟨_, _, mapped a v s, driveValue a v s, (driveWrite a v s).1, exec_drive_pass h, execAll_map_rlim_actwr h,
    rfl, ?_⟩
  rw [respondOk_of_silent ha (silent_driveWrite a v s), hhead]
  rfl

/-! ## TICK and the Board -/

theorem silent_boardRead (c : BitVec 8) (s : State) : Silent s (boardRead c s).2 := ⟨rfl, rfl⟩

theorem Constructed.after_boardRead (h : Constructed c s) : Constructed c (boardRead c s).2 :=
  ⟨h.active, h.exists_chan, h.finited⟩

theorem tickChecks_pass (h : Constructed c s) : firstError [portCheck s, sensorCheck c s, finitedCheck c s] = none := by
  rw [portCheck_s s h.active, sensorCheck_in s c h.exists_chan, finitedCheck_on s c h.finited]
  rfl

theorem exec_tick_absent (h : Constructed c s) (hb : (boardRead c s).1 = none) :
    exec (.tick c) s = .next (respondOk .tick false [] (boardRead c s).2) := by
  rw [exec, execTick, tickChecks_pass h, hb]

/-- On a present sample TICK is guarded by the sample alone, from the state after its BoardRead. -/
theorem exec_tick_present (h : Constructed c s) (hb : (boardRead c s).1 = some x) :
    exec (.tick c) s =
      guarded .tick [sampleCheck [x] (boardRead c s).2] (boardRead c s).2 (ingest c x (boardRead c s).2) := by
  rw [exec, execTick, tickChecks_pass h, hb]

/-- Settles O35: an absent sample leaves the state after the BoardRead, and an answer with F = 0. -/
theorem tickSkipsAnAbsentSample : Obligations.TickSkipsAnAbsentSample := by
  intro c s ha hc hf hb
  rw [exec_tick_absent ⟨ha, hc, hf⟩ hb, respondOk_of_silent ha (silent_boardRead c s), ← hb]
  rfl

/-- The answer to a BoardRead is the Board's next listed one. -/
theorem boardRead_listed {b : Option Num64} {bs : List (Option Num64)} (c : BitVec 8) (h : s.boardAnswers = b :: bs) :
    (boardRead c s).1 = b := by
  simp [boardRead, h]

/-- A guarded command goes on, whether or not its checks pass. -/
theorem exists_guarded_eq_next (m : Mnemonic) (cs : List (Option Status)) (s e : State) :
    ∃ t, guarded m cs s e = .next t := by
  cases hcs : firstError cs with
  | none => exact ⟨e, guarded_pass s m cs e hcs⟩
  | some st => exact ⟨_, guarded_fail s m cs e st hcs⟩

/-- Once TICK has read the Board it goes on and does not read it again, be the sample absent, refused or ingested. -/
theorem exec_tick_reads_once (h : Constructed c s) :
    ∃ t, exec (.tick c) s = .next t ∧ NoBoardRead (boardRead c s).2 t := by
  cases hb : (boardRead c s).1 with
  | none => exact ⟨_, exec_tick_absent h hb, rfl, rfl⟩
  | some x =>
    obtain ⟨t, ht⟩ := exists_guarded_eq_next .tick [sampleCheck [x] (boardRead c s).2] (boardRead c s).2
      (ingest c x (boardRead c s).2)
    exact ⟨t, (exec_tick_present h hb).trans ht, guarded_noBoardRead ht (noBoardCall_ingest c x _).read⟩

/-- Settles O36: after the one BoardRead there is no other, and no other command makes one. -/
theorem tickReadsTheBoardOnce : Obligations.TickReadsTheBoardOnce := by
  refine ⟨fun c s ha hc hf => ?_, fun i s t h hi => ?_⟩
  · obtain ⟨t, ht, hreads, hanswers⟩ := exec_tick_reads_once ⟨ha, hc, hf⟩
    exact ⟨t, (boardRead c s).1, ht, hreads, hanswers, fun b bs => boardRead_listed c⟩
  · obtain ⟨hreads, hanswers⟩ := exec_noBoardRead hi h
    exact ⟨hreads, hanswers⟩

/-! ## TICK on a present sample -/

theorem exec_tick_pass (h : Constructed c s) (hb : (boardRead c s).1 = some x) (hx : GuardPasses [x] s) :
    exec (.tick c) s = .next (ingest c x (boardRead c s).2) := by
  have hg : sampleCheck [x] (boardRead c s).2 = none := by
    rw [sampleCheck, failIf_eq_none]
    simpa [GuardPasses] using hx
  rw [exec_tick_present h hb, guarded_pass _ _ _ _ (by rw [hg]; rfl)]

/-- The state TICK leaves a present sample in: filtered, and pushed with its output where the channel has windows. -/
def ingested (c : BitVec 8) (x : Num64) (s : State) : State :=
  if (s.chan c.toNat).winited then pushPair c x (cascade c x s).1 (cascade c x s).2 else (cascade c x s).2

theorem ingest_eq (ha : s.active = .s) (c : BitVec 8) (x : Num64) :
    ingest c x s =
      setResponses (s.responses ++ [⟨.s, 0x50800002#32, [x, (cascade c x s).1]⟩]) (ingested c x s) := by
  have hsilent : Silent s (ingested c x s) := silent_ingested c x (cascade c x s).1 s
  have hhead : responseHeader Mnemonic.tick.opcode true .ok 2 = 0x50800002#32 := by decide
  rw [← hhead]
  exact respondOk_of_silent ha hsilent .tick true [x, (cascade c x s).1]

theorem Constructed.after_cascade (h : Constructed c s) : Constructed c (cascade c x s).2 := by
  rw [cascade_frame]
  exact ⟨h.active, h.exists_chan, h.finited⟩

/-- PUSH needs the windows, whatever their capacity. -/
theorem exec_push_winited (ha : s.active = .s) (hc : c.toNat < s.params.nch) (hw : (s.chan c.toNat).winited = true)
    (xr xf : Word) :
    exec (.push c xr xf) s =
      .next (setResponses (s.responses ++ [⟨.s, 0x30000000#32, []⟩]) (pushPair c xr xf s)) := by
  have hcs : firstError [portCheck s, sensorCheck c s, winitedCheck c s] = none := by
    rw [portCheck_s s ha, sensorCheck_in s c hc, winitedCheck_on s c hw]
    rfl
  have hsilent : Silent s (pushPair c xr xf s) := ⟨rfl, rfl⟩
  rw [exec, execPush, guarded_pass s _ _ _ hcs, respondOk_of_silent ha hsilent]
  rfl

/-- After a FILT of `x` PUSH still finds the channel and its windows, and does not read the record of responses. -/
theorem exec_push_after_filt (h : Constructed c s) (hw : (s.chan c.toNat).winited = true) (rs : List Response)
    (x : Num64) :
    exec (.push c x (cascade c x s).1) (setResponses rs (cascade c x s).2) =
      .next (setResponses (rs ++ [⟨.s, 0x30000000#32, []⟩]) (pushPair c x (cascade c x s).1 (cascade c x s).2)) := by
  have hu : Constructed c (cascade c x s).2 := h.after_cascade
  have hw' : ((cascade c x s).2.chan c.toNat).winited = true := by
    rw [cascade_frame]
    exact hw
  exact exec_push_winited (s := setResponses rs (cascade c x s).2) hu.active hu.exists_chan hw' x (cascade c x s).1

/-- What FILT answering `y` and, where the channel has windows, PUSH respond on port S. -/
def filtPushResponses (winited : Bool) (y : Num64) : List Response :=
  filtResponse y :: if winited then [⟨.s, 0x30000000#32, []⟩] else []

/-- FILT and, where the channel has windows, PUSH leave the sample as TICK does. -/
theorem execAll_filt_push (h : Constructed c s) (hx : GuardPasses [x] s) :
    execAll (if (s.chan c.toNat).winited then [.filt c x, .push c x (cascade c x s).1] else [.filt c x]) s =
      .next (setResponses (s.responses ++ filtPushResponses (s.chan c.toNat).winited (cascade c x s).1)
        (ingested c x s)) := by
  have hfilt : exec (.filt c x) s =
      .next (setResponses (s.responses ++ [filtResponse (cascade c x s).1]) (cascade c x s).2) := exec_filt_pass h hx
  cases hw : (s.chan c.toNat).winited with
  | false =>
    rw [ingested, hw]
    exact execAll_cons_of_next hfilt []
  | true =>
    have hpush := exec_push_after_filt h hw (s.responses ++ [filtResponse (cascade c x s).1]) x
    rw [ingested, hw, if_pos rfl, if_pos rfl, execAll_cons_of_next hfilt, execAll_cons_of_next hpush,
      List.append_assoc]
    rfl

/-- Settles O34: after the BoardRead both leave the sample ingested, and only their responses differ. -/
theorem tickFiltersAndPushesAPresentSample : Obligations.TickFiltersAndPushesAPresentSample := by
  intro c x s ha hc hf hb hg
  have h : Constructed c s := ⟨ha, hc, hf⟩
  have hx : GuardPasses [x] s := fun hguard => List.forall_mem_singleton.mpr (hg hguard)
  have hread : { s with boardAnswers := s.boardAnswers.tail, boardReads := s.boardReads ++ [⟨c, some x⟩] } =
      (boardRead c s).2 := by
    rw [← hb]
    rfl
  rw [hread]
  exact ⟨_, _, (cascade c x (boardRead c s).2).1, exec_tick_pass h hb hx, execAll_filt_push h.after_boardRead hx, rfl,
    ingest_eq (s := (boardRead c s).2) ha c x⟩

end Sys2Proof.Proofs
end

section
/-! PROOFS. How a command ends: with its first failing check and nothing else changed, with the guard's refusal of the
sample a TICK has read, or with OK; and that every step ends (60_exceptions.md R226, R232, R234, R236). -/

namespace Sys2Proof.Proofs

open Sys2Proof.Machine Sys2Proof.Laws

variable {i : Instr} {s t u : State} {r : Response} {st : Status}

/-! ## The checks of a command -/

/-- The checks a command makes before it does anything, in their order (R232). TICK tests its sample after them. -/
def checksOf (i : Instr) (s : State) : List (Option Status) :=
  match i with
  | .wrreg ch reg idx d => portCheck s :: wrregChecks ch reg idx d s
  | .rdreg ch reg idx => rdregChecks ch reg idx s
  | .finit c => finitChecks c s
  | .winit c => winitChecks c s
  | .filt c x => [portCheck s, sensorCheck c s, finitedCheck c s, sampleCheck [x] s]
  | .filtb c xs => [portCheck s, sensorCheck c s, finitedCheck c s, sampleCheck xs s]
  | .push c _ _ => [portCheck s, sensorCheck c s, winitedCheck c s]
  | .snap c _ => [sensorCheck c s, winitedCheck c s]
  | .analyze c _ => [sensorCheck c s, winitedCheck c s, rateCheck (s.chan c.toNat).fs]
  | .map a _ => [portCheck s, actuatorCheck a s, rangeCheck (s.act a.toNat)]
  | .rlim a _ => [portCheck s, actuatorCheck a s, stepCheck (s.act a.toNat)]
  | .actwr a _ => [portCheck s, actuatorCheck a s]
  | .drive a _ => [portCheck s, actuatorCheck a s, stepCheck (s.act a.toNat), rangeCheck (s.act a.toNat)]
  | .tick c => [portCheck s, sensorCheck c s, finitedCheck c s]

/-- The first failing check is the answer, and the whole of it. -/
theorem exec_fail (h : firstError (checksOf i s) = some st) : exec i s = .next (raise i.mnemonic.opcode st s) := by
  cases i with
  | finit c =>
    rw [checksOf] at h
    rw [exec, execFinit, h]
    rfl
  | tick c =>
    rw [checksOf] at h
    rw [exec, execTick, h]
    rfl
  | _ => exact guarded_fail s _ _ _ st h

/-- Settles O46: the port check comes before every other check of a command outside the read class. -/
theorem portDRefusesWriteCommands : Obligations.PortDRefusesWriteCommands := fun _ _ => exec_write_class_d

/-! ## The end of a command -/

/-- A TICK has read the sample `x`, and the guard refuses it (R212, R224). -/
structure TickRefuses (c : BitVec 8) (x : Num64) (s t : State) : Prop where
  board : (boardRead c s).1 = some x
  guard : s.params.guardNonfinite = true
  nonfinite : Arith.finite x = false
  state : t = raise Mnemonic.tick.opcode .nonFiniteSample (boardRead c s).2

/-- Everything a command that goes on can do, by its answer. -/
inductive Ends (i : Instr) (s t : State) : Prop
  | failed (st : Status) (h : firstError (checksOf i s) = some st) (ht : t = raise i.mnemonic.opcode st s)
  | refused (c : BitVec 8) (x : Num64) (hi : i = .tick c) (h : TickRefuses c x s t)
  | ok (f : Bool) (ds : List Word) (h : t.responses = (respondOk i.mnemonic f ds s).responses)

theorem respondOk_ends {f : Bool} {ds : List Word} (hu : Silent s u) : Ends i s (respondOk i.mnemonic f ds u) :=
  .ok f ds (by rw [respondOk_responses, respondOk_responses, hu.responses, hu.active])

theorem guarded_ends {f : Bool} {ds : List Word}
    (h : guarded i.mnemonic (checksOf i s) s (respondOk i.mnemonic f ds u) = .next t) (hu : Silent s u) :
    Ends i s t := by
  obtain ⟨st, hst, rfl⟩ | ⟨-, rfl⟩ := guarded_cases s _ _ _ t h
  · exact .failed st hst rfl
  · exact respondOk_ends hu

theorem execFinit_ends {c : BitVec 8} (h : execFinit c s = .next t) : Ends (.finit c) s t := by
  unfold execFinit at h
  split at h
  · next st hst =>
    injection h with h
    exact .failed st hst h.symm
  · split at h
    · injection h with h
      exact h ▸ respondOk_ends (i := .finit c) (silent_constructCascade c _ s)
    · cases h

/-- The guard refuses samples of which one is not finite, with NonFiniteSample. -/
theorem sampleCheck_eq_some {xs : List Num64} :
    sampleCheck xs s = some st ↔
      s.params.guardNonfinite = true ∧ (∃ x ∈ xs, Arith.finite x = false) ∧ .nonFiniteSample = st := by
  simp [sampleCheck, failIf_eq_some, and_assoc]

/-- A present sample is refused by the guard, or ingested and answered. -/
theorem guarded_sample_ends {c : BitVec 8} {x : Num64} (hb : (boardRead c s).1 = some x)
    (h : guarded .tick [sampleCheck [x] (boardRead c s).2] (boardRead c s).2 (ingest c x (boardRead c s).2) = .next t) :
    Ends (.tick c) s t := by
  obtain ⟨st, hst, rfl⟩ | ⟨-, rfl⟩ := guarded_cases _ _ _ _ t h
  · have hcheck := List.mem_singleton.mp (firstError_mem _ st hst)
    obtain ⟨hg, hx, rfl⟩ := sampleCheck_eq_some.mp hcheck.symm
    exact .refused c x rfl ⟨hb, hg, by simpa using hx, rfl⟩
  · have hu := silent_ingested c x (cascade c x (boardRead c s).2).1 (boardRead c s).2
    exact respondOk_ends (i := .tick c) (s := s) ⟨hu.responses, hu.active⟩

theorem execTick_ends {c : BitVec 8} (h : execTick c s = .next t) : Ends (.tick c) s t := by
  unfold execTick at h
  split at h
  · next st hst =>
    injection h with h
    exact .failed st hst h.symm
  · split at h
    · injection h with h
      exact h ▸ respondOk_ends (i := .tick c) (silent_boardRead c s)
    · next x hb => exact guarded_sample_ends hb h

theorem exec_ends (h : exec i s = .next t) : Ends i s t := by
  cases i with
  | wrreg ch reg idx d => exact guarded_ends h (silent_writeNumber ch reg d s)
  | finit c => exact execFinit_ends h
  | filt c x => exact guarded_ends h (silent_cascade c x s)
  | filtb c xs => exact guarded_ends h (silent_cascadeBatch c xs s)
  | actwr a v => exact guarded_ends h (silent_writeActuator a v s)
  | drive a v => exact guarded_ends h (silent_driveWrite a v s)
  | tick c => exact execTick_ends h
  | _ => exact guarded_ends h ⟨rfl, rfl⟩

/-! ## The status of an answer -/

theorem code_injective : Function.Injective Status.code := by
  intro a b h
  cases a <;> cases b <;> simp [Status.code] at h ⊢

theorem response_eq {r' : Response} (h : t.responses = s.responses ++ [r']) (hr : t.responses = s.responses ++ [r]) :
    r' = r := List.singleton_injective (List.append_cancel_left (h.symm.trans hr))

/-- A command that answers an error has failed a check with it, or is a TICK whose sample the guard refused. -/
theorem error_cases (h : exec i s = .next t) (hr : t.responses = s.responses ++ [r])
    (hne : statusField r.header ≠ 0#4) :
    (∃ st, firstError (checksOf i s) = some st ∧ t = raise i.mnemonic.opcode st s ∧
      r = ⟨s.active, responseHeader i.mnemonic.opcode false st 0, []⟩) ∨
    (∃ c x, i = .tick c ∧ TickRefuses c x s t ∧
      r = ⟨s.active, responseHeader Mnemonic.tick.opcode false .nonFiniteSample 0, []⟩) := by
  cases exec_ends h with
  | failed st hst ht => exact .inl ⟨st, hst, ht, (response_eq (ht ▸ raise_responses ..) hr).symm⟩
  | refused c x hi ht => exact .inr ⟨c, x, hi, ht, (response_eq (ht.state ▸ raise_responses ..) hr).symm⟩
  | ok f ds hok =>
    rw [← response_eq hok hr, statusField_responseHeader] at hne
    exact absurd rfl hne

/-- Settles O47: a failed check appends a response with neither flag nor data, and so does the guard after TICK's
BoardRead. -/
theorem errorsChangeNothing : Obligations.ErrorsChangeNothing := by
  intro i s t r h hr hne
  obtain ⟨st, -, rfl, rfl⟩ | ⟨c, x, rfl, ht, rfl⟩ := error_cases h hr hne
  · exact ⟨flagField_responseHeader .., cntField_responseHeader .., rfl, .inl rfl⟩
  · refine ⟨flagField_responseHeader .., cntField_responseHeader .., rfl,
      .inr ⟨⟨c, rfl⟩, statusField_responseHeader .., ⟨c, (boardRead c s).1⟩, ?_⟩⟩
    rw [ht.state]
    rfl

/-- The table gives the command the status it answers. -/
theorem status_mem_mayAnswer (h : exec i s = .next t) (hr : t.responses = s.responses ++ [r])
    (hst : statusField r.header = st.code) : st ∈ mayAnswer i := by
  obtain ⟨f, st', ds, hmem, hr'⟩ := oneResponsePerCommand i s t h
  rw [← response_eq hr' hr, statusField_responseHeader] at hst
  exact code_injective hst ▸ hmem

/-- An error other than NonFiniteSample is that of a check. -/
theorem firstError_of_status (h : exec i s = .next t) (hr : t.responses = s.responses ++ [r])
    (hst : statusField r.header = st.code) (hok : st ≠ .ok) (hnf : st ≠ .nonFiniteSample) :
    firstError (checksOf i s) = some st := by
  have hne : statusField r.header ≠ 0#4 := fun h0 => hok (ok_of_code (hst.symm.trans h0))
  obtain ⟨st', hcs, -, rfl⟩ | ⟨c, x, -, -, rfl⟩ := error_cases h hr hne <;> rw [statusField_responseHeader] at hst
  · exact code_injective hst ▸ hcs
  · exact absurd (code_injective hst).symm hnf

/-! ## Every step ends -/

theorem designOf_length {p : Params} (hp : DesignLen p) (kind : FilterKind) (wlo : Num64) (whi : Option Num64)
    (n : ℕ) : (designOf p kind wlo whi n).length = n / 2 := by
  unfold designOf
  split
  · next d hd =>
    have hn : d.order = n := by
      have hmatch := List.find?_some hd
      simp only [Bool.and_eq_true, beq_iff_eq] at hmatch
      exact hmatch.2
    exact hn ▸ hp d (List.mem_of_find?_eq_some hd)
  · exact Vector.length_toList

theorem kindOf_isSome {k : BitVec 2} (h : k ≠ 3#2) : (kindOf k).isSome := by
  revert k
  decide

/-- Past its checks FINIT has the sections it asks for, where the listed values of DESIGN are of the right length. -/
theorem sectionsFor_length {c : BitVec 8} (hp : DesignLen s.params) (h : firstError (finitChecks c s) = none) :
    (sectionsFor c s).length = (s.chan c.toNat).order.toNat / 2 := by
  have hk : (s.chan c.toNat).kind ≠ 3#2 := by
    simp only [finitChecks, firstError_eq_none, List.forall_mem_cons, failIf_eq_none, beq_eq_false_iff_ne] at h
    obtain ⟨-, -, -, hk, -⟩ := h
    exact hk
  obtain ⟨kind, hkind⟩ := Option.isSome_iff_exists.mp (kindOf_isSome hk)
  rw [sectionsFor_eq hkind]
  exact designOf_length hp _ _ _ _

theorem execTick_ends_next (c : BitVec 8) (s : State) : ∃ t, execTick c s = .next t := by
  unfold execTick
  split
  · exact ⟨_, rfl⟩
  · split
    · exact ⟨_, rfl⟩
    · exact exists_guarded_eq_next _ _ _ _

/-- Every command goes on: only a FINIT could be refused, and DESIGN-LEN keeps it from that. -/
theorem exists_exec_eq_next (hp : DesignLen s.params) (i : Instr) : ∃ t, exec i s = .next t := by
  cases i with
  | finit c =>
    cases hcs : firstError (finitChecks c s) with
    | some st => exact ⟨_, exec_fail hcs⟩
    | none => exact ⟨_, exec_finit_pass hcs (sectionsFor_length hp hcs)⟩
  | tick c => exact execTick_ends_next c s
  | _ => exact exists_guarded_eq_next _ _ _ _

theorem exists_serve_eq_next (hp : DesignLen s.params) (p : Port) : ∃ t, serve p s = .next t := by
  cases hq : s.pending p with
  | nil => exact ⟨s, by rw [serve, dequeue_nil s p hq]⟩
  | cons f fs =>
    have hu : (setPending p fs s).params = s.params := (sameRegs_setPending p fs s).params
    rw [serve, dequeue_cons s p f fs hq]
    cases hd : decode f with
    | none => exact ⟨_, by simp only [hd]; rfl⟩
    | some i =>
      simp only [hd]
      exact exists_exec_eq_next (s := { setPending p fs s with active := p }) (hu ▸ hp) i

/-- Settles O52: an idle step, a delivery and a reset go on as they are, and a served agent's command does. -/
theorem theMachineNeverStops : Obligations.TheMachineNeverStops := by
  intro s hp
  cases hev : s.events with
  | nil => exact ⟨s, step_idle s hev⟩
  | cons e es =>
    rw [Safe, step_cons s e es hev]
    cases e with
    | deliver p f => exact ⟨_, rfl⟩
    | serve p => exact exists_serve_eq_next (s := { s with events := es }) hp p
    | reset => exact ⟨_, rfl⟩

end Sys2Proof.Proofs
end

section
/-! PROOFS. When each error is reported: the check that fails first, and the commands that can answer its status
(60_exceptions.md R221 to R228; 40_config_init.md R112 to R115, R120). -/

namespace Sys2Proof.Proofs

open Sys2Proof.Machine Sys2Proof.Machine.Arith Sys2Proof.Laws

variable {s : State} {c a : BitVec 8} {cs : List (Option Status)} {st : Status}

/-! ## Checks that fail -/

theorem sensorCheck_out (h : s.params.nch ≤ c.toNat) : sensorCheck c s = some .outOfRange := by
  simp [sensorCheck, h]

theorem actuatorCheck_out (h : s.params.nact ≤ a.toNat) : actuatorCheck a s = some .outOfRange := by
  simp [actuatorCheck, h]

theorem finitedCheck_off (h : (s.chan c.toNat).finited = false) : finitedCheck c s = some .notInitialised := by
  simp [finitedCheck, h]

theorem winitedCheck_off (h : (s.chan c.toNat).winited = false) : winitedCheck c s = some .notInitialised := by
  simp [winitedCheck, h]

theorem rateCheck_bad {fs : Num64} (h : finite fs = false ∨ gt fs posZero = false) :
    rateCheck fs = some .invalidConfig := by
  rw [rateCheck, failIf_eq_some]
  simpa using h

theorem stepCheck_bad {r : ActRegs} (h : gt r.step posZero = false) : stepCheck r = some .invalidConfig := by
  simp [stepCheck, h]

/-- On port S a sensor channel that exists leaves a command's first two checks behind. -/
theorem firstError_sensor (ha : s.active = .s) (hc : c.toNat < s.params.nch) (cs : List (Option Status)) :
    firstError (portCheck s :: sensorCheck c s :: cs) = firstError cs := by
  rw [portCheck_s s ha, sensorCheck_in s c hc, firstError_none, firstError_none]

/-- On port S a sensor channel that does not exist is reported before any further check. -/
theorem firstError_sensor_out (ha : s.active = .s) (hc : s.params.nch ≤ c.toNat) (cs : List (Option Status)) :
    firstError (portCheck s :: sensorCheck c s :: cs) = some .outOfRange := by
  rw [portCheck_s s ha, sensorCheck_out hc, firstError_none, firstError_some]

theorem firstError_actuator_out (ha : s.active = .s) (hn : s.params.nact ≤ a.toNat) (cs : List (Option Status)) :
    firstError (portCheck s :: actuatorCheck a s :: cs) = some .outOfRange := by
  rw [portCheck_s s ha, actuatorCheck_out hn, firstError_none, firstError_some]

/-- The first failing check is among the first `n`, or the first of the rest. -/
theorem firstError_take_drop (n : ℕ) (cs : List (Option Status)) :
    firstError cs = (firstError (cs.take n)).or (firstError (cs.drop n)) := by
  induction cs generalizing n with
  | nil => simp
  | cons c cs ih =>
    cases n with
    | zero => simp
    | succ n => cases c <;> simp [ih n]

theorem firstError_of_take {n : ℕ} (h : firstError (cs.take n) = none) : firstError cs = firstError (cs.drop n) := by
  rw [firstError_take_drop n, h, Option.none_or]

/-- A status none of the first `n` checks fails with is reported once they have all passed. -/
theorem take_of_firstError {n : ℕ} (hn : some st ∉ cs.take n) (h : firstError cs = some st) :
    firstError (cs.take n) = none ∧ firstError (cs.drop n) = some st := by
  rw [firstError_take_drop n] at h
  cases hcs : firstError (cs.take n) with
  | none => exact ⟨rfl, by rwa [hcs, Option.none_or] at h⟩
  | some st' =>
    rw [hcs, Option.some_or, Option.some.injEq] at h
    exact absurd (h ▸ firstError_mem _ _ hcs) hn

/-! ## OutOfRange and NotInitialised -/

/-- Settles O43: CH is tested next after the port, and by WRREG after the read-only check alone. -/
theorem channelOutOfRangeIsReported : Obligations.ChannelOutOfRangeIsReported := by
  refine fun c s => ⟨fun hc => ⟨fun ha => ?_, fun w => exec_fail ?_, fun w => exec_fail ?_⟩, fun hn ha v => ?_,
    fun reg idx d hreg => ?_⟩
  · have hout := firstError_sensor_out ha hc
    exact ⟨exec_fail (hout _), exec_fail (hout _), fun _ => exec_fail (hout _), fun _ => exec_fail (hout _),
      fun _ _ => exec_fail (hout _), exec_fail (hout _)⟩
  · rw [checksOf, sensorCheck_out hc, firstError_some]
  · rw [checksOf, sensorCheck_out hc, firstError_some]
  · have hout := firstError_actuator_out ha hn
    exact ⟨exec_fail (hout _), exec_fail (hout _), exec_fail (hout _), exec_fail (hout _)⟩
  · obtain ⟨hreserved, hmapped⟩ := registerAccessErrors c reg idx d s
    cases hr : Reg.ofNumber reg with
    | none =>
      obtain ⟨hread, hwrite⟩ := hreserved hr
      exact ⟨hread, fun ha _ => hwrite ha⟩
    | some r =>
      obtain ⟨-, hchan, -, -⟩ := hmapped r hr
      obtain ⟨hread, hwrite⟩ := hchan (hreg r hr)
      exact ⟨hread, fun ha hw => hwrite ha (hw r rfl)⟩

/-- Settles O42: past the port and CH, the valid bit is the next check of each command. -/
theorem useBeforeConstructionIsReported : Obligations.UseBeforeConstructionIsReported := by
  refine fun c s hc => ⟨fun ha hf => ?_, fun hw => ⟨fun ha x y => exec_fail ?_, fun w => exec_fail ?_,
    fun w => exec_fail ?_⟩⟩
  · have hout (cs : List (Option Status)) :
        firstError (portCheck s :: sensorCheck c s :: finitedCheck c s :: cs) = some .notInitialised := by
      rw [firstError_sensor ha hc, finitedCheck_off hf, firstError_some]
    exact ⟨fun _ => exec_fail (hout _), fun _ => exec_fail (hout _), exec_fail (hout _)⟩
  · rw [checksOf, firstError_sensor ha hc, winitedCheck_off hw, firstError_some]
  · rw [checksOf, sensorCheck_in s c hc, winitedCheck_off hw, firstError_none, firstError_some]
  · rw [checksOf, sensorCheck_in s c hc, winitedCheck_off hw, firstError_none, firstError_some]

/-! ## FINIT -/

/-- FINIT runs on port S and on an existing channel, and its first four checks, up to the sampling rate and the kind,
pass (R112, R113). -/
structure RateAndKind (c : BitVec 8) (s : State) : Prop where
  active : s.active = .s
  exists_chan : c.toNat < s.params.nch
  finite_fs : finite (s.chan c.toNat).fs = true
  pos_fs : gt (s.chan c.toNat).fs posZero = true
  kind : (s.chan c.toNat).kind ≠ 3#2

theorem RateAndKind.checks (h : RateAndKind c s) : firstError ((finitChecks c s).take 4) = none := by
  have hrate := (rateCheck_eq_none _).mpr ⟨h.finite_fs, h.pos_fs⟩
  have hkind : ((s.chan c.toNat).kind == 3#2) = false := beq_eq_false_iff_ne.mpr h.kind
  rw [finitChecks]
  dsimp only [List.take]
  rw [firstError_sensor h.active h.exists_chan, hrate, hkind]
  rfl

/-- The order check refuses odd orders and order 0 (R114). -/
theorem badOrder_iff (o : BitVec 16) :
    (o.toNat % 2 == 1 || decide (o.toNat < 2)) = true ↔ o.toNat % 2 = 1 ∨ o = 0#16 := by
  have h0 : o = 0#16 ↔ o.toNat = 0 := by rw [← BitVec.toNat_inj]; rfl
  rw [h0]
  simp only [Bool.or_eq_true, beq_iff_eq, decide_eq_true_eq]
  omega

theorem RateAndKind.firstError_badOrder (h : RateAndKind c s)
    (ho : (s.chan c.toNat).order.toNat % 2 = 1 ∨ (s.chan c.toNat).order = 0#16) :
    firstError (finitChecks c s) = some .invalidFilterOrder := by
  rw [firstError_of_take h.checks, finitChecks]
  dsimp only [List.drop]
  rw [(badOrder_iff _).mpr ho, failIf_true, firstError_some]

/-- Settles O37: the order is checked after the rate and the kind, and by FINIT alone. -/
theorem finitRefusesOddAndZeroOrders : Obligations.FinitRefusesOddAndZeroOrders := by
  refine ⟨fun c s ha hc hfs hfs0 hk ho => exec_fail (RateAndKind.firstError_badOrder ⟨ha, hc, hfs, hfs0, hk⟩ ho),
    fun i s t r h hr hst => ?_⟩
  have hmay := status_mem_mayAnswer (st := .invalidFilterOrder) h hr hst
  have hcs := firstError_of_status (st := .invalidFilterOrder) h hr hst (by decide) (by decide)
  cases i with
  | finit c =>
    have hmem := firstError_mem _ _ hcs
    simp only [checksOf, finitChecks, portCheck, sensorCheck, rateCheck, List.mem_cons, some_eq_failIf, reduceCtorEq,
      and_false, false_or, or_false, and_true, List.not_mem_nil] at hmem
    exact ⟨c, rfl, (badOrder_iff _).mp hmem⟩
  | _ => simp [mayAnswer] at hmay

theorem RateAndKind.firstError_goodOrder (h : RateAndKind c s) (heven : (s.chan c.toNat).order.toNat % 2 = 0)
    (h2 : 2 ≤ (s.chan c.toNat).order.toNat) : firstError (finitChecks c s) = firstError ((finitChecks c s).drop 5) := by
  have ho : ((s.chan c.toNat).order.toNat % 2 == 1 || decide ((s.chan c.toNat).order.toNat < 2)) = false := by
    rw [heven, decide_eq_false (not_lt.mpr h2)]
    rfl
  rw [firstError_of_take h.checks, finitChecks]
  dsimp only [List.drop]
  rw [ho, failIf_false, firstError_none]

/-- Settles O45: the size is checked after the rest but for the cutoffs. -/
theorem tooLargeConstructionIsReported : Obligations.TooLargeConstructionIsReported := by
  refine fun c s ha hc => ⟨fun hfs hfs0 hk heven h2 hn => exec_fail ?_, fun h0 hn => exec_fail ?_⟩
  · rw [checksOf, RateAndKind.firstError_goodOrder ⟨ha, hc, hfs, hfs0, hk⟩ heven h2, finitChecks]
    dsimp only [List.drop]
    rw [decide_eq_true hn, failIf_true, firstError_some]
  · have h0' : (s.chan c.toNat).capcfg.toNat ≠ 0 := fun e => h0 (BitVec.eq_of_toNat_eq e)
    rw [checksOf, winitChecks, firstError_sensor ha hc, decide_eq_false h0', decide_eq_true hn]
    rfl

/-! ## Cutoffs -/

/-- A cutoff that is a NaN, at most 0 or at least the Nyquist frequency, `q` being answered for a NaN (R115). -/
def badCutoff (q : Num64) (r : ChanRegs) (f : Num64) : Bool :=
  isNaN f || le f posZero || le (div q r.fs two) f

/-- A bad cutoff is in use, or a band filter has its cutoffs in the wrong order (R222). -/
def BadCutoffs (q : Num64) (r : ChanRegs) : Prop :=
  badCutoff q r r.flo = true ∨ r.kind ≠ 0#2 ∧ (badCutoff q r r.fhi = true ∨ le r.fhi r.flo = true)

/-- Of two numbers that are not NaNs one is less than the other exactly where that one is not at most it. -/
theorem le_eq_not_lt {a b : Num64} (ha : isNaN a = false) (hb : isNaN b = false) : le b a = !lt a b := by
  rw [le, lt, lt, Arith.eq, ha, hb]
  simp only [Bool.not_false, Bool.true_and, ← Bool.decide_or, ← decide_not, not_lt, le_iff_lt_or_eq]

theorem isNaN_nyquist (q : Num64) {fs : Num64} (hfs : finite fs = true) : isNaN (div q fs two) = false := by
  have hinf : isInf two = false := by decide
  have hzero : isZero two = false := by decide
  exact isNaN_div_valid q fs two (isNaN_eq_false_of_finite fs hfs) (by decide) (fun _ => hinf) fun _ => hzero

/-- Under a legal sampling rate the valid cutoffs are those that are not bad, whatever NaN the division is given. -/
theorem badCutoff_eq (q q' : Num64) {r : ChanRegs} (f : Num64) (hfs : finite r.fs = true)
    (hfs0 : gt r.fs posZero = true) : badCutoff q r f = !cutoffValid q' r f := by
  have hnyq : nyquist q' r = div q r.fs two := div_draws_nothing _ q hfs hfs0 (by decide)
  have hn := isNaN_nyquist q hfs
  rw [badCutoff, cutoffValid, hnyq, gt]
  cases hf : isNaN f with
  | true => rw [lt_nan_right _ _ hf, lt_nan_left _ _ hf]; rfl
  | false => rw [le_eq_not_lt (by decide) hf, le_eq_not_lt hf hn, Bool.false_or, Bool.not_and]

theorem isNaN_of_badCutoff {q : Num64} {r : ChanRegs} {f : Num64} (h : badCutoff q r f = false) : isNaN f = false := by
  simp only [badCutoff, Bool.or_eq_false_iff] at h
  exact h.1.1

/-- The last three checks of FINIT refuse the cutoffs R222 lists. -/
theorem cutoffChecks_iff (q : Num64) (hfs : finite (s.chan c.toNat).fs = true)
    (hfs0 : gt (s.chan c.toNat).fs posZero = true) :
    firstError ((finitChecks c s).drop 6) = some .invalidCutoff ↔ BadCutoffs q (s.chan c.toNat) := by
  have hbad (f : Num64) := badCutoff_eq q (drawNaN s.nanDraws) f hfs hfs0
  rw [finitChecks]
  dsimp only [List.drop]
  simp only [firstError_failIf_eq_some, firstError_nil, reduceCtorEq, or_false, Bool.and_eq_true, bne_iff_ne, ← hbad,
    BadCutoffs, ← and_or_left]
  refine or_congr_right' fun hlo => and_congr_right fun _ => or_congr_right' fun hhi => ?_
  rw [Bool.not_eq_true] at hlo hhi
  rw [le_eq_not_lt (isNaN_of_badCutoff hlo) (isNaN_of_badCutoff hhi)]

/-- Settles O38: the cutoffs are checked last, under a legal rate, and by FINIT alone. -/
theorem finitRefusesBadCutoffs : Obligations.FinitRefusesBadCutoffs := by
  intro q bad inUse
  refine ⟨fun c s r hr ha hc hfs hfs0 hk heven h2 hn hbad => exec_fail ?_, fun i s t r h hr hst => ?_⟩
  · subst hr
    have hcut := (cutoffChecks_iff q hfs hfs0).mpr hbad
    rw [checksOf, RateAndKind.firstError_goodOrder ⟨ha, hc, hfs, hfs0, hk⟩ heven h2, ← hcut, finitChecks]
    dsimp only [List.drop]
    rw [decide_eq_false (not_lt.mpr hn), failIf_false, firstError_none]
  · have hmay := status_mem_mayAnswer (st := .invalidCutoff) h hr hst
    have hcs := firstError_of_status (st := .invalidCutoff) h hr hst (by decide) (by decide)
    cases i with
    | finit c =>
      have hothers : some .invalidCutoff ∉ (finitChecks c s).take 6 := by
        simp [finitChecks, portCheck, sensorCheck, rateCheck]
      obtain ⟨hpass, hcut⟩ := take_of_firstError hothers hcs
      have hrate := (firstError_eq_none _).mp hpass (rateCheck (s.chan c.toNat).fs) (by simp [finitChecks])
      obtain ⟨hfs, hfs0⟩ := (rateCheck_eq_none _).mp hrate
      exact ⟨c, rfl, (cutoffChecks_iff q hfs hfs0).mp hcut⟩
    | _ => simp [mayAnswer] at hmay

/-! ## InvalidConfig -/

/-- Settles O41: rate and kind, capacity and step are checked next after the port, CH and the windows of ANALYZE. -/
theorem invalidConfigIsReported : Obligations.InvalidConfigIsReported := by
  refine ⟨fun c w s hc hfs => ⟨fun ha => exec_fail ?_, fun hw => exec_fail ?_⟩, fun c s ha hc hk => exec_fail ?_,
    fun c s ha hc h0 => exec_fail ?_, fun a v s ha hn hstep => ⟨exec_fail ?_, exec_fail ?_⟩⟩
  · rw [checksOf, finitChecks, firstError_sensor ha hc, rateCheck_bad hfs, firstError_some]
  · rw [checksOf, sensorCheck_in s c hc, winitedCheck_on s c hw, rateCheck_bad hfs]
    rfl
  · rw [checksOf, finitChecks, firstError_sensor ha hc, hk]
    by_cases hfs : rateCheck (s.chan c.toNat).fs = none
    · rw [hfs]
      rfl
    · rw [rateCheck_eq_none, not_and_or, Bool.not_eq_true, Bool.not_eq_true] at hfs
      rw [rateCheck_bad hfs, firstError_some]
  · rw [checksOf, winitChecks, firstError_sensor ha hc, h0]
    rfl
  · rw [checksOf, firstError_actuator ha hn, stepCheck_bad hstep, firstError_some]
  · rw [checksOf, firstError_actuator ha hn, stepCheck_bad hstep, firstError_some]

/-! ## DegenerateRange -/

theorem rangeCheck_eq_some {r : ActRegs} :
    rangeCheck r = some st ↔ Arith.eq r.vhi r.vlo = true ∧ .degenerateRange = st := failIf_eq_some _ _ _

/-- Settles O39: the range is the last check of MAP and of DRIVE, and no other command has it. -/
theorem degenerateRangeIsReported : Obligations.DegenerateRangeIsReported := by
  refine ⟨fun a v s ha hn heq => ⟨exec_map_degenerate ha hn v heq, fun hstep => exec_fail ?_⟩,
    fun i s t r h hr hst => ?_⟩
  · rw [checksOf, firstError_actuator ha hn, stepCheck, hstep, rangeCheck_eq_some.mpr ⟨heq, rfl⟩]
    rfl
  · have hmay := status_mem_mayAnswer (st := .degenerateRange) h hr hst
    have hmem := firstError_mem _ _ (firstError_of_status (st := .degenerateRange) h hr hst (by decide) (by decide))
    cases i with
    | map a v =>
      exact ⟨a, v, .inl rfl, by simpa [checksOf, portCheck, actuatorCheck, rangeCheck] using hmem⟩
    | drive a v =>
      exact ⟨a, v, .inr rfl, by simpa [checksOf, portCheck, actuatorCheck, stepCheck, rangeCheck] using hmem⟩
    | _ => simp [mayAnswer] at hmay

/-! ## NonFiniteSample -/

theorem Constructed.firstError_nonfinite (h : Constructed c s) (hg : s.params.guardNonfinite = true) {x : Num64}
    (hx : finite x = false) {xs : List Num64} (hmem : x ∈ xs) :
    firstError [portCheck s, sensorCheck c s, finitedCheck c s, sampleCheck xs s] = some .nonFiniteSample := by
  rw [firstError_sensor h.active h.exists_chan, finitedCheck_on s c h.finited,
    sampleCheck_eq_some.mpr ⟨hg, ⟨x, hmem, hx⟩, rfl⟩]
  rfl

/-- Of the checks of FILT and FILTB only the guard's fails with NonFiniteSample. -/
theorem nonfinite_of_mem_checks {xs : List Num64}
    (h : some .nonFiniteSample ∈ [portCheck s, sensorCheck c s, finitedCheck c s, sampleCheck xs s]) :
    s.params.guardNonfinite = true ∧ ∃ x ∈ xs, finite x = false := by
  simpa [portCheck, sensorCheck, finitedCheck, sampleCheck] using h

theorem Constructed.exec_tick_nonfinite (h : Constructed c s) (hg : s.params.guardNonfinite = true) {x : Num64}
    (hx : finite x = false) (hb : (boardRead c s).1 = some x) :
    exec (.tick c) s = .next (raise Mnemonic.tick.opcode .nonFiniteSample (boardRead c s).2) := by
  have hcheck : sampleCheck [x] (boardRead c s).2 = some .nonFiniteSample :=
    sampleCheck_eq_some.mpr ⟨hg, ⟨x, List.mem_singleton_self x, hx⟩, rfl⟩
  rw [exec_tick_present h hb, guarded_fail _ _ _ _ .nonFiniteSample (by rw [hcheck]; rfl)]

/-- Settles O40: the guard is the last check of FILT and FILTB, and TICK's one check after its BoardRead. -/
theorem guardRefusesNonFiniteSamples : Obligations.GuardRefusesNonFiniteSamples := by
  refine ⟨fun c x xs s ha hc hf hg hx => ?_, fun i s t r h hr hst => ?_⟩
  · have hcon : Constructed c s := ⟨ha, hc, hf⟩
    exact ⟨exec_fail (hcon.firstError_nonfinite hg hx (List.mem_singleton_self x)),
      fun hmem => exec_fail (hcon.firstError_nonfinite hg hx hmem), hcon.exec_tick_nonfinite hg hx⟩
  · have hne : statusField r.header ≠ 0#4 := by rw [hst]; decide
    have hmay := status_mem_mayAnswer (st := .nonFiniteSample) h hr hst
    obtain ⟨st, hcs, -, rfl⟩ | ⟨c, x, rfl, ht, -⟩ := error_cases h hr hne
    · rw [statusField_responseHeader] at hst
      obtain rfl : st = .nonFiniteSample := code_injective hst
      have hmem := firstError_mem _ _ hcs
      cases i with
      | filt c x =>
        obtain ⟨hg, y, hy, hx⟩ := nonfinite_of_mem_checks hmem
        exact ⟨hg, c, x, List.mem_singleton.mp hy ▸ hx, .inl rfl⟩
      | filtb c xs =>
        obtain ⟨hg, x, hmem, hx⟩ := nonfinite_of_mem_checks hmem
        exact ⟨hg, c, x, hx, .inr (.inl ⟨xs, hmem, rfl⟩)⟩
      | tick c => simp [checksOf, portCheck, sensorCheck, finitedCheck] at hmem
      | _ => simp [mayAnswer] at hmay
    · refine ⟨ht.guard, c, x, ht.nonfinite, .inr (.inr ⟨rfl, ?_⟩)⟩
      rw [ht.state, raise_boardReads, boardRead_reads, ht.board]

end Sys2Proof.Proofs
end

section
/-! PROOFS. The state right after reset: every element at its reset value, the invariant, and what the commands answer
there (70_reset_and_hazards.md R250, R251, R253). -/

namespace Sys2Proof.Proofs

open Sys2Proof.Machine Sys2Proof.Laws

variable {s : State} {es : List Event}

/-! ## Reset values -/

@[simp] theorem resetMachine_chan (s : State) (c : Nat) : (resetMachine s).chan c = ChanRegs.reset := rfl
@[simp] theorem resetMachine_stage (s : State) (c k : Nat) : (resetMachine s).stage c k = StageRegs.reset := rfl
@[simp] theorem resetMachine_act (s : State) (a : Nat) : (resetMachine s).act a = ActRegs.reset := rfl
@[simp] theorem resetMachine_win (s : State) (c : Nat) (w : WinSel) (i : Nat) :
    (resetMachine s).win c w i = posZero := rfl
@[simp] theorem resetMachine_portS (s : State) : (resetMachine s).portS = [] := rfl
@[simp] theorem resetMachine_portD (s : State) : (resetMachine s).portD = [] := rfl

theorem step_reset (h : s.events = .reset :: es) : step s = .next (resetMachine { s with events := es }) :=
  step_cons s .reset es h

/-- Settles O9: the step is `resetMachine`, which empties the register files, the window memory and the ports, and an
element that is not listed reads as its reset value. -/
theorem resetRestoresEveryElement : Obligations.ResetRestoresEveryElement := by
  refine fun s es hev => ⟨_, step_reset hev, fun c => ?chan, fun c k => ?stage, fun c w i => resetMachine_win _ c w i,
    fun a => ?act, resetMachine_params _, resetMachine_portS _, resetMachine_portD _, resetMachine_responses _,
    resetMachine_boardReads _, resetMachine_boardWrites _⟩
  case chan => simp [ChanRegs.reset]
  case stage => simp [StageRegs.reset, Coefs.zero, coefElem]
  case act => simp [ActRegs.reset]

/-- Settles O49: an empty register file is canonical, and a channel at its reset values is unconstructed and within
every bound. -/
theorem resetHasTheInvariant : Obligations.ResetHasTheInvariant := fun _ hp => resetOf_inv hp

/-! ## Answers -/

/-- With STEP at its reset value, +infinity, the limiter passes its operand through (R195, R251). -/
theorem limited_resetOf (p : Params) (a : BitVec 8) (v : Word) : limited a v (State.resetOf p) = v :=
  rateLimit_pass (gt_posInf _)

/-- Settles O10: at its reset values a sensor channel is unconstructed and has no sampling rate and no capacity, and an
actuator channel has an empty value range and an unlimited step; the answers are those of the error rules and of
RLIM. -/
theorem afterResetAnswers : Obligations.AfterResetAnswers := by
  intro p c x y xs w hc hn
  have hrange : Arith.eq ActRegs.reset.vhi ActRegs.reset.vlo = true := by decide
  have hstep : Arith.gt ActRegs.reset.step posZero = true := by decide
  have hfs : Arith.gt ChanRegs.reset.fs posZero = false := by decide
  obtain ⟨hfinited, hwinited⟩ := useBeforeConstructionIsReported c (State.resetOf p) hc
  obtain ⟨hfilt, hfiltb, htick⟩ := hfinited rfl rfl
  obtain ⟨hpush, hsnap, hanalyze⟩ := hwinited rfl
  obtain ⟨hdegenerate, -⟩ := degenerateRangeIsReported
  obtain ⟨hmap, hdrive⟩ := hdegenerate c x (State.resetOf p) rfl hn hrange
  obtain ⟨hrate, -, hcapcfg, -⟩ := invalidConfigIsReported
  obtain ⟨hfinit, -⟩ := hrate c w (State.resetOf p) hc (.inr hfs)
  have hrlim := exec_rlim_pass (s := State.resetOf p) rfl hn x hstep
  rw [limited_resetOf] at hrlim
  exact ⟨hfilt x, hfiltb xs, htick, hpush rfl x y, hsnap w, hanalyze w, hmap, hdrive hstep, hfinit rfl,
    hcapcfg c _ rfl hc rfl, hrlim⟩

end Sys2Proof.Proofs
end
